-- ==== Sys2Proof/Word.lean ====
section
/-! DEFINITION. The word types of the block (00_scope R11, R13): bytes, digits and pin levels. -/

namespace Sys2Proof

/-- `u8` of R11: an unsigned 8-bit value, bit 0 the least significant. -/
abbrev Byte := BitVec 8

/-- `u4` of R11: one decimal digit's nibble. -/
abbrev Nibble := BitVec 4

/-- A digital level of R13: Low = 0 = `false`, High = 1 = `true`. -/
abbrev Level := Bool

/-- The level Low of R13. -/
abbrev low : Level := false

/-- The level High of R13. -/
abbrev high : Level := true

end Sys2Proof
end

