-- ==== Sys2Proof/Syntax.lean ====
section
/-! DEFINITION. The block's instructions (00_scope R2): one constructor per row of the opcode table,
the 20 wire commands of 30_encoding R91 and the 54 block operations of R95, with their operands. -/

namespace Sys2Proof

/-- The packed register block (10_state R27): eight bytes in burst order k = 0..7. -/
structure Block where
  seconds : Byte
  minutes : Byte
  hours   : Byte
  date    : Byte
  month   : Byte
  dow     : Byte
  year    : Byte
  control : Byte
deriving DecidableEq, Repr, Inhabited

/-- The 7-field Timestamp of R18, in the order of R97. The year is a `nat`, every other field a `u8` (44_sequences R215). -/
structure Timestamp where
  hour   : Byte
  minute : Byte
  second : Byte
  year   : Nat
  month  : Byte
  day    : Byte
  dow    : Byte
deriving DecidableEq, Repr, Inhabited

/-- The nine registers of 10_state R35, in index order n = 0..8. -/
inductive RegName where
  | seconds | minutes | hours | date | month | dow | year | control | trickle
deriving DecidableEq, Repr

/-- The admitted wire commands of R91: a write or a read of one register, or a clock burst. -/
inductive WireCmd where
  | wr (r : RegName)
  | rd (r : RegName)
  | burstWr
  | burstRd
deriving DecidableEq, Repr

/-- One constructor per row of the opcode table. A wire command that writes carries the data bytes
that follow it on the wire (R91); a block operation carries its operands of R95. -/
inductive Instr where
  -- the wire commands (R91)
  | wrSeconds (d : Byte)
  | rdSeconds
  | wrMinutes (d : Byte)
  | rdMinutes
  | wrHours (d : Byte)
  | rdHours
  | wrDate (d : Byte)
  | rdDate
  | wrMonth (d : Byte)
  | rdMonth
  | wrDow (d : Byte)
  | rdDow
  | wrYear (d : Byte)
  | rdYear
  | wrControl (d : Byte)
  | rdControl
  | wrTrickle (d : Byte)
  | rdTrickle
  | burstWr (blk : Block)
  | burstRd
  -- transport (41_transport)
  | sessionStart
  | sessionEnd
  | shiftOut (b : Byte) (rel : Bool)
  | shiftIn
  | readReg (a : Byte)
  | writeReg (a : Byte) (d : Byte)
  | burstRead
  | burstWrite (blk : Block)
  -- BCD codec (42_bcd)
  | bcdDecode (h : Nibble) (l : Nibble)
  | bcdEncHigh (v : Byte)
  | bcdEncLow (v : Byte)
  | bcdPack (v : Byte) (w : Nat)
  -- register-map decoders (43_register_map section 1)
  | decSeconds (b : Byte)
  | decMinutes (b : Byte)
  | decHours (b : Byte)
  | decDate (b : Byte)
  | decMonth (b : Byte)
  | decDow (b : Byte)
  | decYear (b : Byte)
  | decControl (b : Byte)
  | decBlock (blk : Block)
  -- register-map encoders and merges (43_register_map section 2)
  | encSeconds (second : Byte)
  | encMinutes (minute : Byte)
  | encHours24 (hour : Byte)
  | encDate (day : Byte)
  | encMonth (month : Byte)
  | encDow (dow : Byte)
  | encYear (year : Nat)
  | encControl
  | encBlock (ts : Timestamp)
  | mergeDate (blk : Block) (year : Nat) (month : Byte) (day : Byte) (dow : Byte)
  | mergeTime (blk : Block) (hour : Byte) (minute : Byte) (second : Byte)
  -- composite sequences (44_sequences)
  | clearWp
  | initChip
  | getSecond
  | getMinute
  | getHour
  | getDay
  | getMonth
  | getDow
  | getYear
  | getFull
  | getDateOnly
  | getTimeOnly
  | setSecond (second : Byte)
  | setMinute (minute : Byte)
  | setHour (hour : Byte)
  | setDay (day : Byte)
  | setMonth (month : Byte)
  | setDow (dow : Byte)
  | setYear (year : Nat)
  | setFull (ts : Timestamp)
  | setDateOnly (year : Nat) (month : Byte) (day : Byte) (dow : Byte)
  | setTimeOnly (hour : Byte) (minute : Byte) (second : Byte)
deriving DecidableEq, Repr

/-- The two formats of an opcode table row (R2). -/
inductive Format where
  | wireCmd
  | blockOp
deriving DecidableEq, Repr

/-- One entry of the host's program: a format and its words (log 1, log 2). The first word is the
command byte of R90 or the OPC of R95; the others are the data bytes or operands, one word each, in R95's order. -/
structure Request where
  format : Format
  words  : List Nat
deriving DecidableEq, Repr

end Sys2Proof
end

