-- ==== Sys2Proof/Machine/State.lean ====
section
/-! DEFINITION. The machine's state (10_state R20, 20_memory R70), its stops, and the state after reset. -/

namespace Sys2Proof.Machine

/-- The sequencer's two states (R21). -/
inductive Seq where
  | idle | active
deriving DecidableEq, Repr

/-- The direction of the data pin (R13). -/
inductive Dir where
  | out | inp
deriving DecidableEq, Repr

/-- The seven delay parameters of R8. -/
inductive DelayParam where
  | ceSetup | dataSetup | clkHigh | clkLow | rdHigh | rdAccess | ceRecovery
deriving DecidableEq, Repr

/-- The pin events of R13. -/
inductive Event where
  | ce (l : Level)
  | clk (l : Level)
  | dir (d : Dir)
  | drv (l : Level)
  | smp (b : Level)
  | dly (p : DelayParam)
deriving DecidableEq, Repr

/-- The closed list of model faults (R241), in the order of their codes 1..14. They are values of `State.fault`:
raising one is a next state (R15, R242). -/
inductive FaultReason where
  | badOpc | sessionOpen | noSession | releasePending | badCommand | noRelease | badRelease
  | notWrite | notRead | overrun | underrun | badAddress | contention | pinShared
deriving DecidableEq, Repr

/-- The code column of R241. -/
def FaultReason.code : FaultReason → Nat
  | .badOpc => 1 | .sessionOpen => 2 | .noSession => 3 | .releasePending => 4 | .badCommand => 5
  | .noRelease => 6 | .badRelease => 7 | .notWrite => 8 | .notRead => 9 | .overrun => 10
  | .underrun => 11 | .badAddress => 12 | .contention => 13 | .pinShared => 14

/-- What an operation returns to the host (the results column of R95). -/
inductive Result where
  | none
  | byte (b : Byte)
  | digit (d : Nibble)
  | block (blk : Block)
  | year (y : Nat)
  | flag (b : Bool)
  | seconds (second : Byte) (ch : Bool)
  | hours (mode12 pm : Bool) (hour hour24view : Byte)
  | decoded (ts : Timestamp) (ch mode12 pm : Bool) (hour12 : Byte) (wp : Bool)
  | timestamp (ts : Timestamp)
  | date (year : Nat) (month day dow : Byte)
  | time (hour minute second : Byte)
deriving DecidableEq, Repr

/-- The nine peer registers `REG[0..8]` (R35, R70): the burst block and TRICKLE. -/
structure Regs where
  clock   : Block
  trickle : Byte
deriving DecidableEq, Repr, Inhabited

/-- Which peer is at the other end of the wires: none (R77), the reference peer with zero ticks
(R74, the source's backing store), or the reference peer whose clock ticks (R74). Log 7. -/
inductive PeerKind where
  | disconnected | still | ticking
deriving DecidableEq, Repr

/-- `pstate` of R70. -/
inductive PState where
  | off | cmd | wdata | rdata
deriving DecidableEq, Repr

/-- The peer's state (R70). -/
structure Peer where
  kind   : PeerKind
  regs   : Regs
  pstate : PState
  pbit   : Nat
  pk     : Nat
  pcmd   : Byte
  wbuf   : Block
  snap   : Regs
  pdrive : Bool
  plevel : Level
deriving DecidableEq, Repr

/-- The three pin identifiers a block instance is bound to (R9, R249). -/
structure Pins where
  ce : Nat
  io : Nat
  clk : Nat
deriving DecidableEq, Repr

/-- What the platform supplies at construction (R263): this instance's pins, the pins of the other
instances (R250), and whether every pin primitive returns (PINS_RETURN, R253). No step changes it. -/
structure Platform where
  pins        : Pins
  others      : List Pins
  pinsReturn  : Bool
deriving DecidableEq, Repr

/-- Why the machine stops without a next state. -/
inductive Fault where
  /-- Raised by any operation that reaches a pin primitive while the platform's primitives do not all
  return: stuck (R253, ID5). Safe: the operation completes only under PINS_RETURN. -/
  | pinsHang
deriving DecidableEq, Repr

/-- Why a step has no meaning. -/
inductive Refusal where
  /-- Raised by a refused arm of `exec` for an instruction that has no meaning yet. Safe. -/
  | notModelled (mnemonic : String)
  /-- Raised by the request decoder, and by BCD_PACK on an ill-formed term, for an operand outside its type (R95). Safe. -/
  | operandOutsideType
  /-- Raised by the step when the three pins of this instance are not distinct (R249, ID4). Safe. -/
  | pinsNotDistinct
deriving DecidableEq, Repr

/-- The whole machine: the block's state of R20, the host's program and results (R30, R29), the platform (R249),
the peer (R70), and the counter of draws (R16, log 9). -/
structure State where
  seq      : Seq
  ce       : Level
  clk      : Level
  iodir    : Dir
  ioOut    : Level
  sr       : Byte
  bit      : BitVec 4
  rel      : Bool
  cmdValid : Bool
  cmd      : Byte
  nbytes   : Nat
  buf      : Block
  fault    : Option FaultReason
  revTrace : List Event   -- the trace of R29, newest event first; State.trace gives it in order
  program  : List Request
  hpc      : Nat
  results  : List Result
  platform : Platform
  peer     : Peer
  draws    : Nat
deriving DecidableEq, Repr

/-- Eight zero bytes: the value log 11, 12 and 13 name for registers whose reset value is unspecified. -/
def zeroBlock : Block := ⟨0, 0, 0, 0, 0, 0, 0, 0⟩

/-- The peer at block reset (R262): OFF and not driving; its registers are a draw in the spec and zero here (log 11, log 13). -/
def Peer.reset : Peer :=
  { kind := .still, regs := ⟨zeroBlock, 0⟩, pstate := .off, pbit := 0, pk := 0, pcmd := 0,
    wbuf := zeroBlock, snap := ⟨zeroBlock, 0⟩, pdrive := false, plevel := low }

/-- The platform of R263: three distinct pins, no other instance on them, primitives that return (log 5, log 6). -/
def Platform.reset : Platform := { pins := ⟨0, 1, 2⟩, others := [], pinsReturn := true }

/-- The machine right after block reset (R260-R262). -/
def State.reset : State :=
  { seq := .idle, ce := low, clk := low, iodir := .inp, ioOut := low, sr := 0, bit := 0, rel := false,
    cmdValid := false, cmd := 0, nbytes := 0, buf := zeroBlock, fault := none, revTrace := [],
    program := [], hpc := 0, results := [], platform := Platform.reset, peer := Peer.reset, draws := 0 }

end Sys2Proof.Machine
end

