-- ==== Sys2Proof/Config.lean ====
section
/-! DEFINITION. What is fixed for one machine: the chip-select polarity, the timing parameters, the
open parameters of 00_scope R10 and the free values of R16. -/

namespace Sys2Proof.Config

open Sys2Proof.Machine

/-- CE_ACTIVE of R9, High by the spec's decision D3 (log 15). -/
abbrev ceActive : Level := high

/-- The source's minimum of each delay in microseconds (R8). No rule depends on it; Safety sums it as R281 does. -/
def minMicros : DelayParam → Nat
  | .ceSetup => 4
  | .dataSetup => 1
  | .clkHigh => 1
  | .clkLow => 1
  | .rdHigh => 1
  | .rdAccess => 1
  | .ceRecovery => 4

/-- UNDRIVEN of R10 and R76: the level of the n-th draw, sampled where nobody drives the data line (log 9). -/
opaque undriven : Nat → Level

/-- `draw()` of the peer's `rdsrc` (R72): the bit of the n-th draw, driven where the peer has no byte to send (log 9). -/
opaque peerBit : Nat → Level

/-- `draw()` of ENC_YEAR (R187): the byte of the n-th draw, for a year outside 2000..2099 (log 10). -/
opaque yearByte : Nat → Byte

/-- The drawn number of PEER_TICKs between two sessions (R74), the n-th draw (log 8). -/
opaque tickCount : Nat → Nat

/-- PEER_TICK of R10 and R74: how the chip's clock advances its nine registers (log 9). -/
opaque peerTick : Regs → Regs

end Sys2Proof.Config
end

