-- ==== Sys2Proof/WellFormed.lean ====
section
/-! DEFINITION. Which instruction terms the interface's operand types check (30_encoding R95). -/

namespace Sys2Proof

/-- R95: every operand lies in its type. The Lean types hold all of them but the width of BCD_PACK,
which is 1..4 (42_bcd R143). -/
def Instr.wellFormed : Instr → Bool
  | .bcdPack _ w => 1 ≤ w && w ≤ 4
  | _ => true

end Sys2Proof
end

