-- ==== Sys2Proof/Decode.lean ====
section
/-! DEFINITION. The two total decoders of 30_encoding (R90-R99), the encoder, and the bit-field helpers they share with the machine. -/

namespace Sys2Proof

/-- `b[lo+w-1 : lo]` of R11, read as an unsigned number. -/
def field (b : Byte) (lo w : Nat) : Nat := b.toNat / 2 ^ lo % 2 ^ w

/-- `b[i]` of R11. -/
def bitAt (b : Byte) (i : Nat) : Bool := b.getLsbD i

/-- `b[i] <- l`: the byte with bit i set to l and every other bit kept. -/
def setBit (b : Byte) (i : Nat) (l : Bool) : Byte :=
  if l then b ||| (1#8 <<< i) else b &&& ~~~(1#8 <<< i)

/-! ## Command bytes (R90-R93, R99) -/

/-- The register index n of R34. -/
def RegName.idx : RegName → Nat
  | .seconds => 0 | .minutes => 1 | .hours => 2 | .date => 3 | .month => 4
  | .dow => 5 | .year => 6 | .control => 7 | .trickle => 8

/-- The register with index n, if there is one (R34). -/
def RegName.ofIdx : Nat → Option RegName
  | 0 => some .seconds | 1 => some .minutes | 2 => some .hours | 3 => some .date | 4 => some .month
  | 5 => some .dow | 6 => some .year | 7 => some .control | 8 => some .trickle
  | _ => none

/-- The write address `0x80 + 2n` of R34. -/
def RegName.writeAddr (r : RegName) : Byte := BitVec.ofNat 8 (0x80 + 2 * r.idx)

/-- The read address `0x81 + 2n` of R34. -/
def RegName.readAddr (r : RegName) : Byte := BitVec.ofNat 8 (0x81 + 2 * r.idx)

/-- The command byte of R91. -/
def WireCmd.byte : WireCmd → Byte
  | .wr r => r.writeAddr
  | .rd r => r.readAddr
  | .burstWr => 0xBE#8
  | .burstRd => 0xBF#8

/-- `decode_cmd` of R99: the row of R91, or `none` for INVALID. -/
def decodeCmd (c : Byte) : Option WireCmd :=
  if !bitAt c 7 || bitAt c 6 then none
  else if field c 1 5 = 31 then some (if bitAt c 0 then .burstRd else .burstWr)
  else (RegName.ofIdx (field c 1 5)).map (fun r => if bitAt c 0 then .rd r else .wr r)

/-- `need(cmd)` of R92: how many data bytes follow the command byte. -/
def need (c : Byte) : Nat := if field c 1 5 = 31 then 8 else 1

/-! ## Requests (R95, log 2) -/

/-- What a request decodes to. -/
inductive Decoded where
  | instr (i : Instr)   -- a row of R91 or R95 with its operands
  | badOpc              -- an OPC outside R95: F_BAD_OPC
  | badCommand          -- a command byte outside R91: F_BAD_COMMAND (log 25)
  | badOperands         -- an operand outside its type, or not as many operands as the row has
deriving DecidableEq, Repr

/-- One `u8` operand. -/
def readU8 : List Nat → Option (Byte × List Nat)
  | n :: r => if n < 256 then some (BitVec.ofNat 8 n, r) else none
  | [] => none

/-- One `u4` operand. -/
def readU4 : List Nat → Option (Nibble × List Nat)
  | n :: r => if n < 16 then some (BitVec.ofNat 4 n, r) else none
  | [] => none

/-- One `bool` operand: 0 is false, 1 is true. -/
def readBool : List Nat → Option (Bool × List Nat)
  | n :: r => if n < 2 then some (n == 1, r) else none
  | [] => none

/-- The width operand w in 1..4 of BCD_PACK, whose four values have the codes 0..3 (log 2). -/
def readWidth : List Nat → Option (Nat × List Nat)
  | n :: r => if n < 4 then some (n + 1, r) else none
  | [] => none

/-- One `nat` operand. -/
def readNat : List Nat → Option (Nat × List Nat)
  | n :: r => some (n, r)
  | [] => none

/-- Eight `u8` operands in burst order (R97). -/
def readBlock (ws : List Nat) : Option (Block × List Nat) := do
  let (b0, ws) ← readU8 ws
  let (b1, ws) ← readU8 ws
  let (b2, ws) ← readU8 ws
  let (b3, ws) ← readU8 ws
  let (b4, ws) ← readU8 ws
  let (b5, ws) ← readU8 ws
  let (b6, ws) ← readU8 ws
  let (b7, ws) ← readU8 ws
  return (⟨b0, b1, b2, b3, b4, b5, b6, b7⟩, ws)

/-- A Timestamp's seven operands in the order of R97. -/
def readTimestamp (ws : List Nat) : Option (Timestamp × List Nat) := do
  let (hour, ws) ← readU8 ws
  let (minute, ws) ← readU8 ws
  let (second, ws) ← readU8 ws
  let (year, ws) ← readNat ws
  let (month, ws) ← readU8 ws
  let (day, ws) ← readU8 ws
  let (dow, ws) ← readU8 ws
  return (⟨hour, minute, second, year, month, day, dow⟩, ws)

/-- No operand is left over. -/
def take0 (i : Instr) : List Nat → Decoded
  | [] => .instr i
  | _ :: _ => .badOperands

/-- One more operand, then `k`. -/
def takeWith {α : Type} (read : List Nat → Option (α × List Nat)) (k : α → List Nat → Decoded) (ws : List Nat) : Decoded :=
  match read ws with
  | some (a, r) => k a r
  | none => .badOperands

/-- One operand. -/
def take1 {α : Type} (ra : List Nat → Option (α × List Nat)) (f : α → Instr) : List Nat → Decoded :=
  takeWith ra (fun a => take0 (f a))

/-- Two operands. -/
def take2 {α β : Type} (ra : List Nat → Option (α × List Nat)) (rb : List Nat → Option (β × List Nat))
    (f : α → β → Instr) : List Nat → Decoded :=
  takeWith ra (fun a => take1 rb (f a))

/-- Three operands. -/
def take3 {α β γ : Type} (ra : List Nat → Option (α × List Nat)) (rb : List Nat → Option (β × List Nat))
    (rc : List Nat → Option (γ × List Nat)) (f : α → β → γ → Instr) : List Nat → Decoded :=
  takeWith ra (fun a => take2 rb rc (f a))

/-- Four operands. -/
def take4 {α β γ δ : Type} (ra : List Nat → Option (α × List Nat)) (rb : List Nat → Option (β × List Nat))
    (rc : List Nat → Option (γ × List Nat)) (rd : List Nat → Option (δ × List Nat))
    (f : α → β → γ → δ → Instr) : List Nat → Decoded :=
  takeWith ra (fun a => take3 rb rc rd (f a))

/-- The wire session of a register write: the command's data byte follows (R91). -/
def wireWrite (r : RegName) : List Nat → Decoded :=
  match r with
  | .seconds => take1 readU8 .wrSeconds
  | .minutes => take1 readU8 .wrMinutes
  | .hours => take1 readU8 .wrHours
  | .date => take1 readU8 .wrDate
  | .month => take1 readU8 .wrMonth
  | .dow => take1 readU8 .wrDow
  | .year => take1 readU8 .wrYear
  | .control => take1 readU8 .wrControl
  | .trickle => take1 readU8 .wrTrickle

/-- The wire session of a register read: the peer drives the data byte, so no word follows (R91). -/
def wireRead (r : RegName) : List Nat → Decoded :=
  match r with
  | .seconds => take0 .rdSeconds
  | .minutes => take0 .rdMinutes
  | .hours => take0 .rdHours
  | .date => take0 .rdDate
  | .month => take0 .rdMonth
  | .dow => take0 .rdDow
  | .year => take0 .rdYear
  | .control => take0 .rdControl
  | .trickle => take0 .rdTrickle

/-- A wire command: R99 on its byte, then its data bytes. DESIGN CHOICE (log 25): the spec names F_BAD_COMMAND for a SHIFT_OUT
of such a byte only (R93, R103, R241 row 5) and does not say where a wire-command request with a byte outside R91 faults; it
does so here, before the session's first check and first event. A word above 255 is no byte of R91 (log 2). -/
def decodeWire (c : Nat) (ws : List Nat) : Decoded :=
  if c < 256 then
    match decodeCmd (BitVec.ofNat 8 c) with
    | some (.wr r) => wireWrite r ws
    | some (.rd r) => wireRead r ws
    | some .burstWr => take1 readBlock .burstWr ws
    | some .burstRd => take0 .burstRd ws
    | none => .badCommand
  else .badCommand

/-- A block operation: the row of R95 that OPC selects, then its operands. -/
def decodeOp (opc : Nat) (ws : List Nat) : Decoded :=
  match opc with
  | 0x01 => take0 .sessionStart ws
  | 0x02 => take0 .sessionEnd ws
  | 0x03 => take2 readU8 readBool .shiftOut ws
  | 0x04 => take0 .shiftIn ws
  | 0x05 => take1 readU8 .readReg ws
  | 0x06 => take2 readU8 readU8 .writeReg ws
  | 0x07 => take0 .burstRead ws
  | 0x08 => take1 readBlock .burstWrite ws
  | 0x10 => take2 readU4 readU4 .bcdDecode ws
  | 0x11 => take1 readU8 .bcdEncHigh ws
  | 0x12 => take1 readU8 .bcdEncLow ws
  | 0x13 => take2 readU8 readWidth .bcdPack ws
  | 0x20 => take1 readU8 .decSeconds ws
  | 0x21 => take1 readU8 .decMinutes ws
  | 0x22 => take1 readU8 .decHours ws
  | 0x23 => take1 readU8 .decDate ws
  | 0x24 => take1 readU8 .decMonth ws
  | 0x25 => take1 readU8 .decDow ws
  | 0x26 => take1 readU8 .decYear ws
  | 0x27 => take1 readU8 .decControl ws
  | 0x28 => take1 readBlock .decBlock ws
  | 0x30 => take1 readU8 .encSeconds ws
  | 0x31 => take1 readU8 .encMinutes ws
  | 0x32 => take1 readU8 .encHours24 ws
  | 0x33 => take1 readU8 .encDate ws
  | 0x34 => take1 readU8 .encMonth ws
  | 0x35 => take1 readU8 .encDow ws
  | 0x36 => take1 readNat .encYear ws
  | 0x37 => take0 .encControl ws
  | 0x38 => take1 readTimestamp .encBlock ws
  | 0x39 => takeWith readBlock (fun blk => take4 readNat readU8 readU8 readU8 (.mergeDate blk)) ws
  | 0x3A => take4 readBlock readU8 readU8 readU8 .mergeTime ws
  | 0x40 => take0 .clearWp ws
  | 0x41 => take0 .initChip ws
  | 0x42 => take0 .getSecond ws
  | 0x43 => take0 .getMinute ws
  | 0x44 => take0 .getHour ws
  | 0x45 => take0 .getDay ws
  | 0x46 => take0 .getMonth ws
  | 0x47 => take0 .getDow ws
  | 0x48 => take0 .getYear ws
  | 0x49 => take0 .getFull ws
  | 0x4A => take0 .getDateOnly ws
  | 0x4B => take0 .getTimeOnly ws
  | 0x4C => take1 readU8 .setSecond ws
  | 0x4D => take1 readU8 .setMinute ws
  | 0x4E => take1 readU8 .setHour ws
  | 0x4F => take1 readU8 .setDay ws
  | 0x50 => take1 readU8 .setMonth ws
  | 0x51 => take1 readU8 .setDow ws
  | 0x52 => take1 readNat .setYear ws
  | 0x53 => take1 readTimestamp .setFull ws
  | 0x54 => take4 readNat readU8 readU8 readU8 .setDateOnly ws
  | 0x55 => take3 readU8 readU8 readU8 .setTimeOnly ws
  | _ => .badOpc

/-- The request decoder: total, and it refuses by name (R99). What an empty request raises is log 2's choice, and where a wire
command outside R91 faults is log 25's. -/
def decode (r : Request) : Decoded :=
  match r.format, r.words with
  | .wireCmd, c :: ws => decodeWire c ws
  | .blockOp, opc :: ws => decodeOp opc ws
  | .wireCmd, [] => .badCommand
  | .blockOp, [] => .badOpc

/-! ## The encoder -/

/-- The words of a block operand. -/
def Block.words (b : Block) : List Nat :=
  [b.seconds.toNat, b.minutes.toNat, b.hours.toNat, b.date.toNat, b.month.toNat, b.dow.toNat, b.year.toNat, b.control.toNat]

/-- The words of a Timestamp operand. -/
def Timestamp.words (t : Timestamp) : List Nat :=
  [t.hour.toNat, t.minute.toNat, t.second.toNat, t.year, t.month.toNat, t.day.toNat, t.dow.toNat]

/-- The request of a wire command: its byte (R91) and the data bytes the block sends. -/
def wireRequest (c : WireCmd) (data : List Nat) : Request := ⟨.wireCmd, c.byte.toNat :: data⟩

/-- The request of a block operation: its OPC (R95) and its operands. -/
def opRequest (opc : Nat) (operands : List Nat) : Request := ⟨.blockOp, opc :: operands⟩

/-- The request that stands for an instruction, from the tables of R91 and R95. -/
def encode : Instr → Request
  | .wrSeconds d => wireRequest (.wr .seconds) [d.toNat]
  | .rdSeconds => wireRequest (.rd .seconds) []
  | .wrMinutes d => wireRequest (.wr .minutes) [d.toNat]
  | .rdMinutes => wireRequest (.rd .minutes) []
  | .wrHours d => wireRequest (.wr .hours) [d.toNat]
  | .rdHours => wireRequest (.rd .hours) []
  | .wrDate d => wireRequest (.wr .date) [d.toNat]
  | .rdDate => wireRequest (.rd .date) []
  | .wrMonth d => wireRequest (.wr .month) [d.toNat]
  | .rdMonth => wireRequest (.rd .month) []
  | .wrDow d => wireRequest (.wr .dow) [d.toNat]
  | .rdDow => wireRequest (.rd .dow) []
  | .wrYear d => wireRequest (.wr .year) [d.toNat]
  | .rdYear => wireRequest (.rd .year) []
  | .wrControl d => wireRequest (.wr .control) [d.toNat]
  | .rdControl => wireRequest (.rd .control) []
  | .wrTrickle d => wireRequest (.wr .trickle) [d.toNat]
  | .rdTrickle => wireRequest (.rd .trickle) []
  | .burstWr blk => wireRequest .burstWr blk.words
  | .burstRd => wireRequest .burstRd []
  | .sessionStart => opRequest 0x01 []
  | .sessionEnd => opRequest 0x02 []
  | .shiftOut b rel => opRequest 0x03 [b.toNat, rel.toNat]
  | .shiftIn => opRequest 0x04 []
  | .readReg a => opRequest 0x05 [a.toNat]
  | .writeReg a d => opRequest 0x06 [a.toNat, d.toNat]
  | .burstRead => opRequest 0x07 []
  | .burstWrite blk => opRequest 0x08 blk.words
  | .bcdDecode h l => opRequest 0x10 [h.toNat, l.toNat]
  | .bcdEncHigh v => opRequest 0x11 [v.toNat]
  | .bcdEncLow v => opRequest 0x12 [v.toNat]
  | .bcdPack v w => opRequest 0x13 [v.toNat, w - 1]
  | .decSeconds b => opRequest 0x20 [b.toNat]
  | .decMinutes b => opRequest 0x21 [b.toNat]
  | .decHours b => opRequest 0x22 [b.toNat]
  | .decDate b => opRequest 0x23 [b.toNat]
  | .decMonth b => opRequest 0x24 [b.toNat]
  | .decDow b => opRequest 0x25 [b.toNat]
  | .decYear b => opRequest 0x26 [b.toNat]
  | .decControl b => opRequest 0x27 [b.toNat]
  | .decBlock blk => opRequest 0x28 blk.words
  | .encSeconds second => opRequest 0x30 [second.toNat]
  | .encMinutes minute => opRequest 0x31 [minute.toNat]
  | .encHours24 hour => opRequest 0x32 [hour.toNat]
  | .encDate day => opRequest 0x33 [day.toNat]
  | .encMonth month => opRequest 0x34 [month.toNat]
  | .encDow dow => opRequest 0x35 [dow.toNat]
  | .encYear year => opRequest 0x36 [year]
  | .encControl => opRequest 0x37 []
  | .encBlock ts => opRequest 0x38 ts.words
  | .mergeDate blk year month day dow => opRequest 0x39 (blk.words ++ [year, month.toNat, day.toNat, dow.toNat])
  | .mergeTime blk hour minute second => opRequest 0x3A (blk.words ++ [hour.toNat, minute.toNat, second.toNat])
  | .clearWp => opRequest 0x40 []
  | .initChip => opRequest 0x41 []
  | .getSecond => opRequest 0x42 []
  | .getMinute => opRequest 0x43 []
  | .getHour => opRequest 0x44 []
  | .getDay => opRequest 0x45 []
  | .getMonth => opRequest 0x46 []
  | .getDow => opRequest 0x47 []
  | .getYear => opRequest 0x48 []
  | .getFull => opRequest 0x49 []
  | .getDateOnly => opRequest 0x4A []
  | .getTimeOnly => opRequest 0x4B []
  | .setSecond second => opRequest 0x4C [second.toNat]
  | .setMinute minute => opRequest 0x4D [minute.toNat]
  | .setHour hour => opRequest 0x4E [hour.toNat]
  | .setDay day => opRequest 0x4F [day.toNat]
  | .setMonth month => opRequest 0x50 [month.toNat]
  | .setDow dow => opRequest 0x51 [dow.toNat]
  | .setYear year => opRequest 0x52 [year]
  | .setFull ts => opRequest 0x53 ts.words
  | .setDateOnly year month day dow => opRequest 0x54 [year, month.toNat, day.toNat, dow.toNat]
  | .setTimeOnly hour minute second => opRequest 0x55 [hour.toNat, minute.toNat, second.toNat]

/-! ## The table's words -/

/-- How many operand words follow the first word of a row (R91, R95), 0 where there is no row. -/
def operandCount : Format → Nat → Nat
  | .wireCmd, c => if c % 2 = 1 then 0 else need (BitVec.ofNat 8 c)
  | .blockOp, opc =>
    match opc with
    | 0x03 => 2 | 0x05 => 1 | 0x06 => 2 | 0x08 => 8
    | 0x10 => 2 | 0x11 => 1 | 0x12 => 1 | 0x13 => 2
    | 0x20 => 1 | 0x21 => 1 | 0x22 => 1 | 0x23 => 1 | 0x24 => 1 | 0x25 => 1 | 0x26 => 1 | 0x27 => 1 | 0x28 => 8
    | 0x30 => 1 | 0x31 => 1 | 0x32 => 1 | 0x33 => 1 | 0x34 => 1 | 0x35 => 1 | 0x36 => 1 | 0x38 => 7
    | 0x39 => 12 | 0x3A => 11
    | 0x4C => 1 | 0x4D => 1 | 0x4E => 1 | 0x4F => 1 | 0x50 => 1 | 0x51 => 1 | 0x52 => 1
    | 0x53 => 7 | 0x54 => 4 | 0x55 => 3
    | _ => 0

/-- The request whose bytes are the low `nbits` bits of w, first byte least significant: a byte of R91 opens a wire
command, any other byte is an OPC, and every operand is the next byte. -/
def tableRequest (nbits w : Nat) : Request :=
  let v := w % 2 ^ nbits
  let c := v % 256
  let fmt : Format := if (decodeCmd (BitVec.ofNat 8 c)).isSome then .wireCmd else .blockOp
  ⟨fmt, c :: (List.range (operandCount fmt c)).map (fun k => v / 256 ^ (k + 1) % 256)⟩

/-- The instruction the decoder reads from bits numbered as the opcode table numbers them. -/
def decodeTableWord (nbits w : Nat) : Option Instr :=
  match decode (tableRequest nbits w) with
  | .instr i => some i
  | .badOpc | .badCommand | .badOperands => none

end Sys2Proof
end

