-- ==== Sys2Proof/Machine/Operands.lean ====
section
/-! DEFINITION. Operand forms: bytes of a block and of the register file by index (10_state R27, R34),
and the BCD digit forms every codec operation is built from (42_bcd R140-R147). -/

namespace Sys2Proof

/-- Byte k of a block in burst order (R27). Only k = 0..7 exists; beyond it the value is never used. -/
def Block.get (b : Block) : Nat → Byte
  | 0 => b.seconds | 1 => b.minutes | 2 => b.hours | 3 => b.date
  | 4 => b.month | 5 => b.dow | 6 => b.year | 7 => b.control
  | _ => 0

/-- `b[k] <- v` in burst order (R27). Nothing is written beyond k = 7. -/
def Block.set (b : Block) (k : Nat) (v : Byte) : Block :=
  match k with
  | 0 => { b with seconds := v } | 1 => { b with minutes := v } | 2 => { b with hours := v } | 3 => { b with date := v }
  | 4 => { b with month := v } | 5 => { b with dow := v } | 6 => { b with year := v } | 7 => { b with control := v }
  | _ => b

end Sys2Proof

namespace Sys2Proof.Machine

/-- Register n of R34: 0..7 are the burst block, 8 is TRICKLE. -/
def Regs.get (r : Regs) (n : Nat) : Byte := if n = 8 then r.trickle else r.clock.get n

/-- `REG[n] <- v`. -/
def Regs.set (r : Regs) (n : Nat) (v : Byte) : Regs :=
  if n = 8 then { r with trickle := v } else { r with clock := r.clock.set n v }

/-- `decode(high_digit, low_digit)` of R140, on naturals: exact. -/
def bcdDecode (h l : Nat) : Nat := h * 10 + l

/-- `encode_high` of R141. -/
def bcdHigh (v : Nat) : Nat := v / 10

/-- `encode_low` of R142. -/
def bcdLow (v : Nat) : Nat := v % 10

/-- `pack(v, w)` of R143: the tens digit truncated to w bits at bit 4, the units digit at bit 0. -/
def pack (v : Byte) (w : Nat) : Byte :=
  BitVec.ofNat 8 (bcdHigh v.toNat % 2 ^ w * 16 + bcdLow v.toNat)

/-- `unpack(b, w)` of R146, as a natural number. -/
def unpack (b : Byte) (w : Nat) : Nat := bcdDecode (field b 4 w) (field b 0 4)

/-- `unpack(b, w)` as the `u8` the decoders return; it fits, since it is at most 165 (R147). -/
def unpackByte (b : Byte) (w : Nat) : Byte := BitVec.ofNat 8 (unpack b w)

end Sys2Proof.Machine
end

