-- ==== Sys2Proof/Machine/Flags.lean ====
section
/-! DEFINITION. The flags of 10_state R31: the block's status flags, and the register-map flags inside the chip's bytes. -/

namespace Sys2Proof.Machine

/-- CH, bit 7 of SECONDS (R40). -/
def chFlag (seconds : Byte) : Bool := bitAt seconds 7

/-- MODE12, bit 7 of HOURS (R42). -/
def mode12Flag (hours : Byte) : Bool := bitAt hours 7

/-- PM, bit 5 of HOURS, which exists in the 12-hour layout only (R42, R163). -/
def pmFlag (hours : Byte) : Bool := mode12Flag hours && bitAt hours 5

/-- WP, bit 7 of CONTROL (R47). -/
def wpFlag (control : Byte) : Bool := bitAt control 7

/-- The read bit of a command byte (R25). -/
def readFlag (cmd : Byte) : Bool := bitAt cmd 0

/-- The index field of a command byte (R90). -/
def cmdIdx (cmd : Byte) : Nat := field cmd 1 5

/-- The burst flag of a command byte (R25). -/
def burstFlag (cmd : Byte) : Bool := cmdIdx cmd == 31

/-- A fault is recorded (R31). -/
def State.faulted (s : State) : Bool := s.fault.isSome

end Sys2Proof.Machine
end

