-- ==== Sys2Proof/Machine/Peer.lean ====
section
/-! DEFINITION. The reference DS1302 peer of 20_memory section 4, as functions of its own state (R70-R75). -/

namespace Sys2Proof.Machine

/-- A peer is attached (R77 is the other case). -/
def Peer.attached (p : Peer) : Bool := p.kind != .disconnected

/-- The peer drives the data line (R75). -/
def Peer.driving (p : Peer) : Bool := p.attached && p.pdrive

/-- n applications of PEER_TICK, each only while CH = 0 (R74). -/
def Regs.ticks : Nat → Regs → Regs
  | 0, r => r
  | n + 1, r => if chFlag r.clock.seconds then r else Regs.ticks n (Config.peerTick r)

/-- Chip-select assertion (R71). -/
def Peer.select (p : Peer) : Peer :=
  if p.pstate = .off then
    { p with pstate := .cmd, pbit := 0, pk := 0, pcmd := 0, pdrive := false, snap := p.regs }
  else p

/-- `wbuf[pk][pbit] <- io`, only while pk < 8 (R72). -/
def Peer.storeBit (p : Peer) (io : Level) : Block :=
  if p.pk < 8 then p.wbuf.set p.pk (setBit (p.wbuf.get p.pk) p.pbit io) else p.wbuf

/-- A rising edge of SCLK with the line at `io` (R72). -/
def Peer.rising (p : Peer) (io : Level) : Peer :=
  match p.pstate with
  | .cmd =>
    let c := setBit p.pcmd p.pbit io
    if p.pbit + 1 = 8 then
      { p with pcmd := c, pbit := 0, pk := 0, pstate := if readFlag c then .rdata else .wdata }
    else { p with pcmd := c, pbit := p.pbit + 1 }
  | .wdata =>
    if p.pbit + 1 = 8 then { p with wbuf := p.storeBit io, pbit := 0, pk := p.pk + 1 }
    else { p with wbuf := p.storeBit io, pbit := p.pbit + 1 }
  | .rdata | .off => p

/-- `rdsrc(pk)` of R72, `none` where it is a draw. -/
def Peer.rdsrc (p : Peer) : Option Byte :=
  if cmdIdx p.pcmd = 31 ∧ p.pk < 8 then some (p.snap.get p.pk)
  else if cmdIdx p.pcmd ≤ 8 ∧ p.pk = 0 then some (p.snap.get (cmdIdx p.pcmd))
  else none

/-- A falling edge of SCLK in RDATA that drives the level l (R72). -/
def Peer.driveBit (p : Peer) (l : Level) : Peer :=
  if p.pbit + 1 = 8 then { p with pdrive := true, plevel := l, pbit := 0, pk := p.pk + 1 }
  else { p with pdrive := true, plevel := l, pbit := p.pbit + 1 }

/-- What `REG` becomes at chip-select deassertion (R73), with WP read before the commit. -/
def Peer.commit (p : Peer) : Regs :=
  let wp := wpFlag p.regs.clock.control
  if p.pstate = .wdata then
    if cmdIdx p.pcmd = 31 ∧ 8 ≤ p.pk ∧ wp = false then { p.regs with clock := p.wbuf }
    else if cmdIdx p.pcmd ≤ 8 ∧ 1 ≤ p.pk ∧ (cmdIdx p.pcmd = 7 ∨ wp = false) then
      p.regs.set (cmdIdx p.pcmd) (p.wbuf.get 0)
    else p.regs
  else p.regs

/-- Chip-select deassertion (R73). -/
def Peer.deselect (p : Peer) : Peer :=
  if p.pstate = .off then p else { p with regs := p.commit, pstate := .off, pdrive := false }

end Sys2Proof.Machine
end

