-- ==== Sys2Proof/Machine/Ops.lean ====
section
/-! DEFINITION. The named operations over the state: raising a fault (60_exceptions R241-R246), the pin primitives of
00_scope R13 with the peer's reaction to each event, completing an operation, fetching a request, and block reset. -/

namespace Sys2Proof.Machine

/-! ## Faults and the guard every operation has -/

/-- What a faulted block does is nothing; otherwise `f` (R28, R100 item 1). -/
def State.live (f : State → State) (s : State) : State := if s.faulted then s else f s

/-- `raise Fault(reason)` (R15): the reason is recorded, once (R28), and every later primitive of the operation does
nothing. This is the one shared entry of a fault: it saves nothing, switches nothing and transfers nowhere (R245). -/
def State.raise (r : FaultReason) (s : State) : State := s.live fun s => { s with fault := some r }

/-! ## Pin primitives (R13) -/

/-- The trace `S.trace` of R29: the pin events so far, oldest first. -/
def State.trace (s : State) : List Event := s.revTrace.reverse

/-- One event appended to the trace (R29). -/
def State.emit (e : Event) (s : State) : State := { s with revTrace := e :: s.revTrace }

/-- The level on the data line (R72, R76): the block's while the pin is an output, the peer's while the peer drives,
and a fresh draw while nobody drives. -/
def State.line (s : State) : Level × State :=
  match s.iodir with
  | .out => (s.ioOut, s)
  | .inp =>
    if s.peer.driving then (s.peer.plevel, s)
    else (Config.undriven s.draws, { s with draws := s.draws + 1 })

/-- Both sides drive the data line: F_CONTENTION (R75, R241). -/
def State.contention (s : State) : State :=
  if s.peer.driving ∧ s.iodir = .out then s.raise .contention else s

/-- The ticks of the gap that ends here (R74): a draw only where the peer ticks and its clock runs. -/
def State.elapse (s : State) : State :=
  if s.peer.kind = .ticking ∧ s.peer.pstate = .off ∧ chFlag s.peer.regs.clock.seconds = false then
    { s with peer := { s.peer with regs := s.peer.regs.ticks (Config.tickCount s.draws) }, draws := s.draws + 1 }
  else s

/-- The peer's reaction to a CE event (R71, R73). -/
def State.peerCE (l : Level) (s : State) : State :=
  if s.peer.attached then
    if l = Config.ceActive then
      let s := s.elapse
      { s with peer := s.peer.select }
    else { s with peer := s.peer.deselect }
  else s

/-- The peer's reaction to a rising edge (R72): it samples the line in CMD and WDATA only. -/
def State.peerRising (s : State) : State :=
  if s.peer.attached ∧ (s.peer.pstate = .cmd ∨ s.peer.pstate = .wdata) then
    let (io, s) := s.line
    { s with peer := s.peer.rising io }
  else s

/-- The peer's reaction to a falling edge (R72): in RDATA it drives the next bit, a draw where it has no byte. -/
def State.peerFalling (s : State) : State :=
  if s.peer.attached ∧ s.peer.pstate = .rdata then
    match s.peer.rdsrc with
    | some v => { s with peer := s.peer.driveBit (bitAt v s.peer.pbit) }
    | none => { s with peer := s.peer.driveBit (Config.peerBit s.draws), draws := s.draws + 1 }
  else s

/-- `SetCE(l)` and the latch it writes. -/
def State.setCE (l : Level) (s : State) : State :=
  s.live fun s => ({ s.emit (.ce l) with ce := l }).peerCE l

/-- `SetCLK(l)` and the latch it writes. A CLK event is an edge only if it changes the level (R33 item 4). -/
def State.setCLK (l : Level) (s : State) : State :=
  s.live fun s =>
    let s' := { s.emit (.clk l) with clk := l }
    if s.clk = low ∧ l = high then s'.peerRising
    else if s.clk = high ∧ l = low then s'.peerFalling.contention
    else s'

/-- `SetDir(d)` and the latch it writes. -/
def State.setDir (d : Dir) (s : State) : State :=
  s.live fun s => ({ s.emit (.dir d) with iodir := d }).contention

/-- `Drive(l)` and the latch it writes. -/
def State.drive (l : Level) (s : State) : State :=
  s.live fun s => { s.emit (.drv l) with ioOut := l }

/-- `S.sr[i] <- Sample()`. -/
def State.sampleTo (i : Nat) (s : State) : State :=
  s.live fun s =>
    let (b, s) := s.line
    { s.emit (.smp b) with sr := setBit s.sr i b }

/-- `Delay(p)`. -/
def State.delay (p : DelayParam) (s : State) : State := s.live (State.emit (.dly p))

/-! ## Operations of the host interface -/

/-- An operation has completed (R30): its result is given to the host and hpc advances. A faulted one does neither. -/
def State.complete (r : Result) (s : State) : State :=
  s.live fun s => { s with hpc := s.hpc + 1, results := s.results ++ [r] }

/-- An operation that drives the pins (R100): nothing if faulted, the first failing admission check's fault, or the
pseudocode to its end, which hangs where a pin primitive never returns (R253, ID5). `result` reads what the operation
returns from the state it ends in. -/
def runTransport (check : State → Option FaultReason) (body : State → State) (result : State → Result) (s : State) :
    Host.Outcome State Fault Refusal :=
  if s.faulted then .next s
  else match check s with
    | some r => .next (s.raise r)
    | none =>
      if s.platform.pinsReturn then .next ((body s).complete (result (body s)))
      else .fault .pinsHang

/-- A codec operation (42_bcd, 43_register_map): a pure function of its operands, nothing if faulted (R28). -/
def runCodec (result : Result) (s : State) : Host.Outcome State Fault Refusal := .next (s.complete result)

/-- The next draw of ENC_YEAR (R187). -/
def State.drawYear (s : State) : Byte × State := (Config.yearByte s.draws, { s with draws := s.draws + 1 })

/-! ## Fetching a request (R30, R95) -/

/-- Two pin triples share a pin (R63). -/
def Pins.shares (a b : Pins) : Bool :=
  [a.ce, a.io, a.clk].any fun p => p == b.ce || p == b.io || p == b.clk

/-- The three pins of one instance are distinct (R249). -/
def Pins.distinct (a : Pins) : Bool := a.ce != a.io && a.ce != a.clk && a.io != a.clk

/-- Two of these instances are bound to a shared pin (R63, R241 row 14). -/
def anyShared : List Pins → Bool
  | [] => false
  | p :: ps => ps.any p.shares || anyShared ps

/-- Two of the platform's instances, this one or another, are bound to a shared pin (R63). -/
def Platform.shared (p : Platform) : Bool := anyShared (p.pins :: p.others)

/-- What the step finds at hpc. -/
inductive Fetched where
  | idle                   -- a faulted block, or the end of the host program (R30, log 4)
  | raises (r : FaultReason)
  | refuses (r : Refusal)
  | runs (i : Instr)
deriving DecidableEq, Repr

/-- The request the host issues next, checked and decoded (R63, R95, R249; the order of the checks is log 5's). DESIGN CHOICE
(log 25): a wire command outside R91 raises F_BAD_COMMAND here, ahead of SESSION_START's check and with no event. -/
def State.fetch (s : State) : Fetched :=
  if s.faulted then .idle
  else match s.program[s.hpc]? with
    | none => .idle
    | some req =>
      if s.platform.shared then .raises .pinShared
      else if s.platform.pins.distinct = false then .refuses .pinsNotDistinct
      else match decode req with
        | .instr i => .runs i
        | .badOpc => .raises .badOpc
        | .badCommand => .raises .badCommand
        | .badOperands => .refuses .operandOutsideType

/-- A list with its entry n set, made longer with the same entry where it is too short. -/
def setEntry (r : Request) : Nat → List Request → List Request
  | 0, [] => [r]
  | 0, _ :: xs => r :: xs
  | n + 1, [] => r :: setEntry r n []
  | n + 1, x :: xs => x :: setEntry r n xs

/-! ## Block reset (R260, R262) -/

/-- Block reset from any state: the block's state takes the values of R260 and the host program starts again; the chip's
registers are battery-backed and stay (R49, R262), and the platform is as it was. Log 20. -/
def State.blockReset (s : State) : State :=
  { State.reset with
    program := s.program, platform := s.platform, draws := s.draws,
    peer := { s.peer with pstate := .off, pdrive := false } }

end Sys2Proof.Machine
end

