-- ==== Sys2Proof/Machine/Bcd.lean ====
section
/-! DEFINITION. The BCD codec operations of 42_bcd: pure functions of their operands. -/

namespace Sys2Proof.Machine

/-- BCD_DECODE h, l (R140). -/
def execBcdDecode (h l : Nibble) (s : State) : Host.Outcome State Fault Refusal :=
  runCodec (.byte (BitVec.ofNat 8 (bcdDecode h.toNat l.toNat))) s

/-- BCD_ENC_HIGH v (R141). -/
def execBcdEncHigh (v : Byte) (s : State) : Host.Outcome State Fault Refusal :=
  runCodec (.byte (BitVec.ofNat 8 (bcdHigh v.toNat))) s

/-- BCD_ENC_LOW v (R142). -/
def execBcdEncLow (v : Byte) (s : State) : Host.Outcome State Fault Refusal :=
  runCodec (.digit (BitVec.ofNat 4 (bcdLow v.toNat))) s

/-- BCD_PACK v, w (R143). A width outside 1..4 is outside the operand's type and is refused (R95); a faulted block
does nothing whatever the operand (R28). -/
def execBcdPack (v : Byte) (w : Nat) (s : State) : Host.Outcome State Fault Refusal :=
  if s.faulted then .next s
  else if 1 ≤ w ∧ w ≤ 4 then runCodec (.byte (pack v w)) s
  else .refused .operandOutsideType

end Sys2Proof.Machine
end

