-- ==== Sys2Proof/Machine/RegisterMap.lean ====
section
/-! DEFINITION. The register-map codec of 43_register_map: decoders, encoders and merges. -/

namespace Sys2Proof.Machine

/-! ## Decoders (R160-R171) -/

/-- DEC_SECONDS's value (R161). -/
def decSeconds (b : Byte) : Byte := unpackByte b 3

/-- DEC_MINUTES (R162). -/
def decMinutes (b : Byte) : Byte := unpackByte b 3

/-- DEC_HOURS's mode-selected hour (R163). -/
def decHour (b : Byte) : Byte := if mode12Flag b then unpackByte b 1 else unpackByte b 2

/-- DEC_HOURS's 24-hour reading, whatever the mode says (R163, R170). -/
def hour24view (b : Byte) : Byte := unpackByte b 2

/-- DEC_DATE (R164). -/
def decDate (b : Byte) : Byte := unpackByte b 2

/-- DEC_MONTH (R165). -/
def decMonth (b : Byte) : Byte := unpackByte b 1

/-- DEC_DOW (R166). -/
def decDow (b : Byte) : Byte := BitVec.ofNat 8 (field b 0 3)

/-- DEC_YEAR (R167). -/
def decYear (b : Byte) : Nat := 2000 + unpack b 4

/-- The Timestamp of DEC_BLOCK (R169); its hour is the 24-hour reading (R170). -/
def decTimestamp (blk : Block) : Timestamp :=
  { hour := hour24view blk.hours, minute := decMinutes blk.minutes, second := decSeconds blk.seconds,
    year := decYear blk.year, month := decMonth blk.month, day := decDate blk.date, dow := decDow blk.dow }

/-! ## Encoders (R180-R189) -/

/-- ENC_SECONDS (R181). -/
def encSeconds (second : Byte) : Byte := pack second 3

/-- ENC_MINUTES (R182). -/
def encMinutes (minute : Byte) : Byte := pack minute 3

/-- ENC_HOURS24 (R183). -/
def encHours24 (hour : Byte) : Byte := pack hour 2

/-- ENC_DATE (R184). -/
def encDate (day : Byte) : Byte := pack day 2

/-- ENC_MONTH (R185). -/
def encMonth (month : Byte) : Byte := pack month 1

/-- ENC_DOW (R186). -/
def encDow (dow : Byte) : Byte := BitVec.ofNat 8 (dow.toNat % 2 ^ 3)

/-- ENC_YEAR of a year in 2000..2099 (R187). -/
def encYearIn (year : Nat) : Byte := pack (BitVec.ofNat 8 (year - 2000)) 4

/-- ENC_YEAR (R187): the byte, and the state after its draw if it takes one. -/
def encYear (year : Nat) (s : State) : Byte × State :=
  if 2000 ≤ year ∧ year ≤ 2099 then (encYearIn year, s) else s.drawYear

/-- ENC_CONTROL (R188). -/
def encControl : Byte := 0x00#8

/-- ENC_BLOCK (R189), given the year's byte. -/
def encBlock (ts : Timestamp) (yearByte : Byte) : Block :=
  { seconds := encSeconds ts.second, minutes := encMinutes ts.minute, hours := encHours24 ts.hour,
    date := encDate ts.day, month := encMonth ts.month, dow := encDow ts.dow, year := yearByte, control := encControl }

/-- MERGE_DATE (R190), given the year's byte. -/
def mergeDate (blk : Block) (yearByte month day dow : Byte) : Block :=
  { seconds := blk.seconds &&& 0x7F#8, minutes := blk.minutes, hours := blk.hours &&& 0x7F#8,
    date := encDate day, month := encMonth month, dow := encDow dow, year := yearByte, control := encControl }

/-- MERGE_TIME (R191). -/
def mergeTime (blk : Block) (hour minute second : Byte) : Block :=
  { blk with seconds := encSeconds second, minutes := encMinutes minute, hours := encHours24 hour, control := encControl }

/-! ## The meanings -/

/-- DEC_SECONDS b (R161). -/
def execDecSeconds (b : Byte) (s : State) : Host.Outcome State Fault Refusal :=
  runCodec (.seconds (decSeconds b) (chFlag b)) s

/-- DEC_MINUTES b (R162). -/
def execDecMinutes (b : Byte) (s : State) : Host.Outcome State Fault Refusal := runCodec (.byte (decMinutes b)) s

/-- DEC_HOURS b (R163). -/
def execDecHours (b : Byte) (s : State) : Host.Outcome State Fault Refusal :=
  runCodec (.hours (mode12Flag b) (pmFlag b) (decHour b) (hour24view b)) s

/-- DEC_DATE b (R164). -/
def execDecDate (b : Byte) (s : State) : Host.Outcome State Fault Refusal := runCodec (.byte (decDate b)) s

/-- DEC_MONTH b (R165). -/
def execDecMonth (b : Byte) (s : State) : Host.Outcome State Fault Refusal := runCodec (.byte (decMonth b)) s

/-- DEC_DOW b (R166). -/
def execDecDow (b : Byte) (s : State) : Host.Outcome State Fault Refusal := runCodec (.byte (decDow b)) s

/-- DEC_YEAR b (R167). -/
def execDecYear (b : Byte) (s : State) : Host.Outcome State Fault Refusal := runCodec (.year (decYear b)) s

/-- DEC_CONTROL b (R168). -/
def execDecControl (b : Byte) (s : State) : Host.Outcome State Fault Refusal := runCodec (.flag (wpFlag b)) s

/-- DEC_BLOCK blk (R169). -/
def execDecBlock (blk : Block) (s : State) : Host.Outcome State Fault Refusal :=
  runCodec (.decoded (decTimestamp blk) (chFlag blk.seconds) (mode12Flag blk.hours) (pmFlag blk.hours)
    (decHour blk.hours) (wpFlag blk.control)) s

/-- ENC_SECONDS second (R181). -/
def execEncSeconds (second : Byte) (s : State) : Host.Outcome State Fault Refusal := runCodec (.byte (encSeconds second)) s

/-- ENC_MINUTES minute (R182). -/
def execEncMinutes (minute : Byte) (s : State) : Host.Outcome State Fault Refusal := runCodec (.byte (encMinutes minute)) s

/-- ENC_HOURS24 hour (R183). -/
def execEncHours24 (hour : Byte) (s : State) : Host.Outcome State Fault Refusal := runCodec (.byte (encHours24 hour)) s

/-- ENC_DATE day (R184). -/
def execEncDate (day : Byte) (s : State) : Host.Outcome State Fault Refusal := runCodec (.byte (encDate day)) s

/-- ENC_MONTH month (R185). -/
def execEncMonth (month : Byte) (s : State) : Host.Outcome State Fault Refusal := runCodec (.byte (encMonth month)) s

/-- ENC_DOW dow (R186). -/
def execEncDow (dow : Byte) (s : State) : Host.Outcome State Fault Refusal := runCodec (.byte (encDow dow)) s

/-- A codec operation whose result takes the year's byte, which may be a draw (R187); nothing if faulted. -/
def runYearCodec (year : Nat) (result : Byte → Result) (s : State) : Host.Outcome State Fault Refusal :=
  if s.faulted then .next s else runCodec (result (encYear year s).1) (encYear year s).2

/-- ENC_YEAR year (R187). -/
def execEncYear (year : Nat) (s : State) : Host.Outcome State Fault Refusal := runYearCodec year .byte s

/-- ENC_CONTROL (R188). -/
def execEncControl (s : State) : Host.Outcome State Fault Refusal := runCodec (.byte encControl) s

/-- ENC_BLOCK ts (R189). -/
def execEncBlock (ts : Timestamp) (s : State) : Host.Outcome State Fault Refusal :=
  runYearCodec ts.year (fun y => .block (encBlock ts y)) s

/-- MERGE_DATE blk, year, month, day, dow (R190). -/
def execMergeDate (blk : Block) (year : Nat) (month day dow : Byte) (s : State) : Host.Outcome State Fault Refusal :=
  runYearCodec year (fun y => .block (mergeDate blk y month day dow)) s

/-- MERGE_TIME blk, hour, minute, second (R191). -/
def execMergeTime (blk : Block) (hour minute second : Byte) (s : State) : Host.Outcome State Fault Refusal :=
  runCodec (.block (mergeTime blk hour minute second)) s

end Sys2Proof.Machine
end

