-- ==== Sys2Proof/Machine/Transport.lean ====
section
/-! DEFINITION. The bit-bang transport of 41_transport: the four framing operations, and the four transfers made of them. -/

namespace Sys2Proof.Machine

/-- The bit indices of one shift and the byte indices of one burst (R17). -/
def zeroToSeven : List Nat := [0, 1, 2, 3, 4, 5, 6, 7]

/-! ## Session framing -/

/-- Admission of R101. -/
def admitStart (s : State) : Option FaultReason := if s.seq = .idle then none else some .sessionOpen

/-- Admission of R102, in its order. -/
def admitEnd (s : State) : Option FaultReason :=
  if s.seq ≠ .active then some .noSession
  else if s.rel then some .releasePending
  else if s.cmdValid = true ∧ s.nbytes = need s.cmd then none
  else some .underrun

/-- Pseudocode of R101. -/
def startBody (s : State) : State :=
  (((s.setCE Config.ceActive).setCLK low).delay .ceSetup).live fun s =>
    { s with seq := .active, rel := false, cmdValid := false, nbytes := 0 }

/-- Pseudocode of R102. -/
def endBody (s : State) : State :=
  ((s.setCE (!Config.ceActive)).delay .ceRecovery).live fun s => { s with seq := .idle }

/-! ## The shift registers -/

/-- Admission of R103, in its order. -/
def admitShiftOut (b : Byte) (rel : Bool) (s : State) : Option FaultReason :=
  if s.seq ≠ .active then some .noSession
  else if s.rel then some .releasePending
  else if s.cmdValid = false then
    if decodeCmd b = none then some .badCommand
    else if readFlag b = true ∧ rel = false then some .noRelease
    else if readFlag b = false ∧ rel = true then some .badRelease
    else none
  else if readFlag s.cmd then some .notWrite
  else if rel then some .badRelease
  else if s.nbytes = need s.cmd then some .overrun
  else none

/-- Admission of R105, in its order. -/
def admitShiftIn (s : State) : Option FaultReason :=
  if s.seq ≠ .active then some .noSession
  else if s.cmdValid = false ∨ readFlag s.cmd = false then some .notRead
  else if s.nbytes = need s.cmd then some .overrun
  else none

/-- One bit of R104. -/
def shiftOutBit (rel : Bool) (s : State) (i : Nat) : State :=
  let s := s.live fun s => { s with bit := BitVec.ofNat 4 i }
  let s := (s.drive (bitAt s.sr i)).delay .dataSetup
  let s := (s.setCLK high).delay .clkHigh
  if rel = true ∧ i = 7 then (s.setDir .inp).live fun s => { s with rel := true }
  else (s.setCLK low).delay .clkLow

/-- The end of R104: the byte was the command byte, or it is one more data byte. -/
def shiftOutEnd (b : Byte) (s : State) : State :=
  if s.cmdValid = false then { s with bit := 8, cmd := b, cmdValid := true }
  else { s with bit := 8, nbytes := s.nbytes + 1 }

/-- Pseudocode of R104. -/
def shiftOutBody (b : Byte) (rel : Bool) (s : State) : State :=
  let s := (s.setDir .out).live fun s => { s with sr := b }
  (zeroToSeven.foldl (shiftOutBit rel) s).live (shiftOutEnd b)

/-- One bit of R106. -/
def shiftInBit (s : State) (i : Nat) : State :=
  let s := s.live fun s => { s with bit := BitVec.ofNat 4 i }
  let s := (s.setCLK high).delay .rdHigh
  let s := (s.setCLK low).delay .rdAccess
  s.sampleTo i

/-- Pseudocode of R106; the byte it returns is left in `sr`. -/
def shiftInBody (s : State) : State :=
  let s := s.live fun s => { s with rel := false }
  let s := (s.setDir .inp).live fun s => { s with sr := 0 }
  (zeroToSeven.foldl shiftInBit s).live fun s => { s with bit := 8, nbytes := s.nbytes + 1 }

/-! ## The framing operations as steps of a transfer (R98, R100) -/

/-- A framing operation inside a transfer: nothing if faulted, its admission, then its pseudocode (R100). -/
def subOp (check : State → Option FaultReason) (body : State → State) (s : State) : State :=
  s.live fun s => match check s with
    | some r => s.raise r
    | none => body s

/-- SESSION_START as a step. -/
def sessionStart : State → State := subOp admitStart startBody

/-- SESSION_END as a step. -/
def sessionEnd : State → State := subOp admitEnd endBody

/-- SHIFT_OUT as a step. -/
def shiftOut (b : Byte) (rel : Bool) : State → State := subOp (admitShiftOut b rel) (shiftOutBody b rel)

/-- SHIFT_IN as a step. -/
def shiftIn : State → State := subOp admitShiftIn shiftInBody

/-! ## Transfers -/

/-- `(a & 0xFE)` is one of the nine register write addresses (R54). -/
def addressOk (a : Byte) : Bool :=
  [0x80#8, 0x82#8, 0x84#8, 0x86#8, 0x88#8, 0x8A#8, 0x8C#8, 0x8E#8, 0x90#8].contains (a &&& 0xFE#8)

/-- Admission of R110 and R113: the address, then SESSION_START's check. -/
def admitReg (a : Byte) (s : State) : Option FaultReason :=
  if addressOk a = false then some .badAddress else admitStart s

/-- The session of R110; the byte read is left in `sr`. -/
def readReg (a : Byte) (s : State) : State :=
  sessionEnd (shiftIn (shiftOut (a ||| 0x01#8) true (sessionStart s)))

/-- The session of R113. -/
def writeReg (a d : Byte) (s : State) : State :=
  sessionEnd (shiftOut d false (shiftOut (a &&& 0xFE#8) false (sessionStart s)))

/-- One byte of R116: `S.buf[k] <- SHIFT_IN`. -/
def burstReadByte (s : State) (k : Nat) : State :=
  (shiftIn s).live fun s => { s with buf := s.buf.set k s.sr }

/-- The session of R116; the block read is left in `buf`. -/
def burstRead (s : State) : State :=
  sessionEnd (zeroToSeven.foldl burstReadByte (shiftOut 0xBF#8 true (sessionStart s)))

/-- One byte of R119. -/
def burstWriteByte (blk : Block) (s : State) (k : Nat) : State :=
  let s := s.live fun s => { s with buf := s.buf.set k (blk.get k) }
  shiftOut (s.buf.get k) false s

/-- The session of R119. -/
def burstWrite (blk : Block) (s : State) : State :=
  sessionEnd (zeroToSeven.foldl (burstWriteByte blk) (shiftOut 0xBE#8 false (sessionStart s)))

/-! ## The meanings -/

/-- An operation that returns nothing. -/
def noResult (_ : State) : Result := .none

/-- The byte in the shift register. -/
def srResult (s : State) : Result := .byte s.sr

/-- The block in the burst buffer. -/
def bufResult (s : State) : Result := .block s.buf

/-- SESSION_START (R101). -/
def execSessionStart (s : State) : Host.Outcome State Fault Refusal := runTransport admitStart startBody noResult s

/-- SESSION_END (R102). -/
def execSessionEnd (s : State) : Host.Outcome State Fault Refusal := runTransport admitEnd endBody noResult s

/-- SHIFT_OUT b, rel (R103, R104). -/
def execShiftOut (b : Byte) (rel : Bool) (s : State) : Host.Outcome State Fault Refusal :=
  runTransport (admitShiftOut b rel) (shiftOutBody b rel) noResult s

/-- SHIFT_IN (R105, R106). -/
def execShiftIn (s : State) : Host.Outcome State Fault Refusal := runTransport admitShiftIn shiftInBody srResult s

/-- READ_REG a (R110). -/
def execReadReg (a : Byte) (s : State) : Host.Outcome State Fault Refusal := runTransport (admitReg a) (readReg a) srResult s

/-- WRITE_REG a, d (R113). -/
def execWriteReg (a d : Byte) (s : State) : Host.Outcome State Fault Refusal :=
  runTransport (admitReg a) (writeReg a d) noResult s

/-- BURST_READ (R116). -/
def execBurstRead (s : State) : Host.Outcome State Fault Refusal := runTransport admitStart burstRead bufResult s

/-- BURST_WRITE blk (R119). -/
def execBurstWrite (blk : Block) (s : State) : Host.Outcome State Fault Refusal :=
  runTransport admitStart (burstWrite blk) noResult s

end Sys2Proof.Machine
end

