-- ==== Sys2Proof/Machine/Sequences.lean ====
section
/-! DEFINITION. The composite sequences of 44_sequences: INITIALIZE, write-protect, getters and setters. -/

namespace Sys2Proof.Machine

/-! ## The shared expansions -/

/-- CLEAR_WP (R201): `WRITE_REG 0x8E, ENC_CONTROL()`. -/
def clearWp (s : State) : State := writeReg 0x8E#8 encControl s

/-- INITIALIZE (R202): CLEAR_WP, then zero to the trickle register. -/
def initializeBody (s : State) : State := writeReg 0x90#8 0x00#8 (clearWp s)

/-- A single-field getter (R203): one READ_REG, its byte decoded. -/
def getField (a : Byte) (result : Byte → Result) (s : State) : Host.Outcome State Fault Refusal :=
  runTransport admitStart (readReg a) (fun s => result s.sr) s

/-- A block getter (R211): one BURST_READ, its block decoded. -/
def getBlock (result : Timestamp → Result) (s : State) : Host.Outcome State Fault Refusal :=
  runTransport admitStart burstRead (fun s => result (decTimestamp s.buf)) s

/-- A single-field setter's pseudocode (R215): CLEAR_WP, then one WRITE_REG of the encoded field. -/
def setFieldBody (a b : Byte) (s : State) : State := writeReg a b (clearWp s)

/-- A single-field setter (R215). -/
def setField (a b : Byte) (s : State) : Host.Outcome State Fault Refusal :=
  runTransport admitStart (setFieldBody a b) noResult s

/-- `f` with the year's byte, which ENC_YEAR may draw (R187). -/
def withYear (year : Nat) (f : Byte → State → State) (s : State) : State := f (encYear year s).1 (encYear year s).2

/-- SET_YEAR's pseudocode (R222). -/
def setYearBody (year : Nat) (s : State) : State := withYear year (writeReg 0x8C#8) (clearWp s)

/-- SET_FULL's pseudocode (R224). -/
def setFullBody (ts : Timestamp) (s : State) : State :=
  withYear ts.year (fun y => burstWrite (encBlock ts y)) (clearWp s)

/-- SET_DATE_ONLY's pseudocode (R225): clear, read, merge, write. -/
def setDateBody (year : Nat) (month day dow : Byte) (s : State) : State :=
  withYear year (fun y s => burstWrite (mergeDate s.buf y month day dow) s) (burstRead (clearWp s))

/-- The last step of SET_TIME_ONLY. -/
def writeMergedTime (hour minute second : Byte) (s : State) : State := burstWrite (mergeTime s.buf hour minute second) s

/-- SET_TIME_ONLY's pseudocode (R226): clear, read, merge, write. -/
def setTimeBody (hour minute second : Byte) (s : State) : State :=
  writeMergedTime hour minute second (burstRead (clearWp s))

/-! ## The meanings -/

/-- CLEAR_WP (R201). -/
def execClearWp (s : State) : Host.Outcome State Fault Refusal := runTransport admitStart clearWp noResult s

/-- INITIALIZE (R202); its result is always true. -/
def execInitialize (s : State) : Host.Outcome State Fault Refusal :=
  runTransport admitStart initializeBody (fun _ => .flag true) s

/-- GET_SECOND (R204). -/
def execGetSecond (s : State) : Host.Outcome State Fault Refusal := getField 0x80#8 (fun d => .byte (decSeconds d)) s

/-- GET_MINUTE (R205). -/
def execGetMinute (s : State) : Host.Outcome State Fault Refusal := getField 0x82#8 (fun d => .byte (decMinutes d)) s

/-- GET_HOUR (R206). -/
def execGetHour (s : State) : Host.Outcome State Fault Refusal := getField 0x84#8 (fun d => .byte (hour24view d)) s

/-- GET_DAY (R207). -/
def execGetDay (s : State) : Host.Outcome State Fault Refusal := getField 0x86#8 (fun d => .byte (decDate d)) s

/-- GET_MONTH (R208). -/
def execGetMonth (s : State) : Host.Outcome State Fault Refusal := getField 0x88#8 (fun d => .byte (decMonth d)) s

/-- GET_DOW (R209). -/
def execGetDow (s : State) : Host.Outcome State Fault Refusal := getField 0x8A#8 (fun d => .byte (decDow d)) s

/-- GET_YEAR (R210). -/
def execGetYear (s : State) : Host.Outcome State Fault Refusal := getField 0x8C#8 (fun d => .year (decYear d)) s

/-- GET_FULL (R212). -/
def execGetFull (s : State) : Host.Outcome State Fault Refusal := getBlock .timestamp s

/-- GET_DATE_ONLY (R213). -/
def execGetDateOnly (s : State) : Host.Outcome State Fault Refusal :=
  getBlock (fun t => .date t.year t.month t.day t.dow) s

/-- GET_TIME_ONLY (R214). -/
def execGetTimeOnly (s : State) : Host.Outcome State Fault Refusal :=
  getBlock (fun t => .time t.hour t.minute t.second) s

/-- SET_SECOND second (R216). -/
def execSetSecond (second : Byte) (s : State) : Host.Outcome State Fault Refusal := setField 0x80#8 (encSeconds second) s

/-- SET_MINUTE minute (R217). -/
def execSetMinute (minute : Byte) (s : State) : Host.Outcome State Fault Refusal := setField 0x82#8 (encMinutes minute) s

/-- SET_HOUR hour (R218). -/
def execSetHour (hour : Byte) (s : State) : Host.Outcome State Fault Refusal := setField 0x84#8 (encHours24 hour) s

/-- SET_DAY day (R219). -/
def execSetDay (day : Byte) (s : State) : Host.Outcome State Fault Refusal := setField 0x86#8 (encDate day) s

/-- SET_MONTH month (R220). -/
def execSetMonth (month : Byte) (s : State) : Host.Outcome State Fault Refusal := setField 0x88#8 (encMonth month) s

/-- SET_DOW dow (R221). -/
def execSetDow (dow : Byte) (s : State) : Host.Outcome State Fault Refusal := setField 0x8A#8 (encDow dow) s

/-- SET_YEAR year (R222). -/
def execSetYear (year : Nat) (s : State) : Host.Outcome State Fault Refusal :=
  runTransport admitStart (setYearBody year) noResult s

/-- SET_FULL ts (R224). -/
def execSetFull (ts : Timestamp) (s : State) : Host.Outcome State Fault Refusal :=
  runTransport admitStart (setFullBody ts) noResult s

/-- SET_DATE_ONLY year, month, day, dow (R225). -/
def execSetDateOnly (year : Nat) (month day dow : Byte) (s : State) : Host.Outcome State Fault Refusal :=
  runTransport admitStart (setDateBody year month day dow) noResult s

/-- SET_TIME_ONLY hour, minute, second (R226). -/
def execSetTimeOnly (hour minute second : Byte) (s : State) : Host.Outcome State Fault Refusal :=
  runTransport admitStart (setTimeBody hour minute second) noResult s

end Sys2Proof.Machine
end

