-- ==== Sys2Proof/Machine/Wire.lean ====
section
/-! DEFINITION. The 20 wire commands of 30_encoding R91 as instructions: each is the one session its command byte opens,
the transfer that its opcode-table row names (R110, R113, R116 or R119; log 3). -/

namespace Sys2Proof.Machine

/-- The session of a register's write command (R113). -/
def wireWriteOp (r : RegName) (d : Byte) (s : State) : Host.Outcome State Fault Refusal :=
  runTransport admitStart (writeReg r.writeAddr d) noResult s

/-- The session of a register's read command (R110). -/
def wireReadOp (r : RegName) (s : State) : Host.Outcome State Fault Refusal :=
  runTransport admitStart (readReg r.readAddr) srResult s

/-- WR_SECONDS (0x80): the session of R113 that writes SECONDS. -/
def execWrSeconds (d : Byte) (s : State) : Host.Outcome State Fault Refusal := wireWriteOp .seconds d s

/-- RD_SECONDS (0x81): the session of R110 that reads SECONDS. -/
def execRdSeconds (s : State) : Host.Outcome State Fault Refusal := wireReadOp .seconds s

/-- WR_MINUTES (0x82): the session of R113 that writes MINUTES. -/
def execWrMinutes (d : Byte) (s : State) : Host.Outcome State Fault Refusal := wireWriteOp .minutes d s

/-- RD_MINUTES (0x83): the session of R110 that reads MINUTES. -/
def execRdMinutes (s : State) : Host.Outcome State Fault Refusal := wireReadOp .minutes s

/-- WR_HOURS (0x84): the session of R113 that writes HOURS. -/
def execWrHours (d : Byte) (s : State) : Host.Outcome State Fault Refusal := wireWriteOp .hours d s

/-- RD_HOURS (0x85): the session of R110 that reads HOURS. -/
def execRdHours (s : State) : Host.Outcome State Fault Refusal := wireReadOp .hours s

/-- WR_DATE (0x86): the session of R113 that writes DATE. -/
def execWrDate (d : Byte) (s : State) : Host.Outcome State Fault Refusal := wireWriteOp .date d s

/-- RD_DATE (0x87): the session of R110 that reads DATE. -/
def execRdDate (s : State) : Host.Outcome State Fault Refusal := wireReadOp .date s

/-- WR_MONTH (0x88): the session of R113 that writes MONTH. -/
def execWrMonth (d : Byte) (s : State) : Host.Outcome State Fault Refusal := wireWriteOp .month d s

/-- RD_MONTH (0x89): the session of R110 that reads MONTH. -/
def execRdMonth (s : State) : Host.Outcome State Fault Refusal := wireReadOp .month s

/-- WR_DOW (0x8A): the session of R113 that writes DOW. -/
def execWrDow (d : Byte) (s : State) : Host.Outcome State Fault Refusal := wireWriteOp .dow d s

/-- RD_DOW (0x8B): the session of R110 that reads DOW. -/
def execRdDow (s : State) : Host.Outcome State Fault Refusal := wireReadOp .dow s

/-- WR_YEAR (0x8C): the session of R113 that writes YEAR. -/
def execWrYear (d : Byte) (s : State) : Host.Outcome State Fault Refusal := wireWriteOp .year d s

/-- RD_YEAR (0x8D): the session of R110 that reads YEAR. -/
def execRdYear (s : State) : Host.Outcome State Fault Refusal := wireReadOp .year s

/-- WR_CONTROL (0x8E): the session of R113 that writes CONTROL. -/
def execWrControl (d : Byte) (s : State) : Host.Outcome State Fault Refusal := wireWriteOp .control d s

/-- RD_CONTROL (0x8F): the session of R110 that reads CONTROL. -/
def execRdControl (s : State) : Host.Outcome State Fault Refusal := wireReadOp .control s

/-- WR_TRICKLE (0x90): the session of R113 that writes TRICKLE. -/
def execWrTrickle (d : Byte) (s : State) : Host.Outcome State Fault Refusal := wireWriteOp .trickle d s

/-- RD_TRICKLE (0x91): the session of R110 that reads TRICKLE. -/
def execRdTrickle (s : State) : Host.Outcome State Fault Refusal := wireReadOp .trickle s

/-- BURST_WR (0xBE): the session of R119. -/
def execBurstWr (blk : Block) (s : State) : Host.Outcome State Fault Refusal :=
  runTransport admitStart (burstWrite blk) noResult s

/-- BURST_RD (0xBF): the session of R116. -/
def execBurstRd (s : State) : Host.Outcome State Fault Refusal := runTransport admitStart burstRead bufResult s

end Sys2Proof.Machine
end

