-- ==== Sys2Proof/Machine/Dispatch.lean ====
section
/-! DEFINITION. One arm per constructor of Instr: a direct call of the instruction's meaning. -/

namespace Sys2Proof.Machine

/-- What one instruction does (R2, R95). -/
def exec (i : Instr) (s : State) : Host.Outcome State Fault Refusal :=
  match i with
  | .wrSeconds d => Sys2Proof.Machine.execWrSeconds d s
  | .rdSeconds => Sys2Proof.Machine.execRdSeconds s
  | .wrMinutes d => Sys2Proof.Machine.execWrMinutes d s
  | .rdMinutes => Sys2Proof.Machine.execRdMinutes s
  | .wrHours d => Sys2Proof.Machine.execWrHours d s
  | .rdHours => Sys2Proof.Machine.execRdHours s
  | .wrDate d => Sys2Proof.Machine.execWrDate d s
  | .rdDate => Sys2Proof.Machine.execRdDate s
  | .wrMonth d => Sys2Proof.Machine.execWrMonth d s
  | .rdMonth => Sys2Proof.Machine.execRdMonth s
  | .wrDow d => Sys2Proof.Machine.execWrDow d s
  | .rdDow => Sys2Proof.Machine.execRdDow s
  | .wrYear d => Sys2Proof.Machine.execWrYear d s
  | .rdYear => Sys2Proof.Machine.execRdYear s
  | .wrControl d => Sys2Proof.Machine.execWrControl d s
  | .rdControl => Sys2Proof.Machine.execRdControl s
  | .wrTrickle d => Sys2Proof.Machine.execWrTrickle d s
  | .rdTrickle => Sys2Proof.Machine.execRdTrickle s
  | .burstWr blk => Sys2Proof.Machine.execBurstWr blk s
  | .burstRd => Sys2Proof.Machine.execBurstRd s
  | .sessionStart => Sys2Proof.Machine.execSessionStart s
  | .sessionEnd => Sys2Proof.Machine.execSessionEnd s
  | .shiftOut b rel => Sys2Proof.Machine.execShiftOut b rel s
  | .shiftIn => Sys2Proof.Machine.execShiftIn s
  | .readReg a => Sys2Proof.Machine.execReadReg a s
  | .writeReg a d => Sys2Proof.Machine.execWriteReg a d s
  | .burstRead => Sys2Proof.Machine.execBurstRead s
  | .burstWrite blk => Sys2Proof.Machine.execBurstWrite blk s
  | .bcdDecode h l => Sys2Proof.Machine.execBcdDecode h l s
  | .bcdEncHigh v => Sys2Proof.Machine.execBcdEncHigh v s
  | .bcdEncLow v => Sys2Proof.Machine.execBcdEncLow v s
  | .bcdPack v w => Sys2Proof.Machine.execBcdPack v w s
  | .decSeconds b => Sys2Proof.Machine.execDecSeconds b s
  | .decMinutes b => Sys2Proof.Machine.execDecMinutes b s
  | .decHours b => Sys2Proof.Machine.execDecHours b s
  | .decDate b => Sys2Proof.Machine.execDecDate b s
  | .decMonth b => Sys2Proof.Machine.execDecMonth b s
  | .decDow b => Sys2Proof.Machine.execDecDow b s
  | .decYear b => Sys2Proof.Machine.execDecYear b s
  | .decControl b => Sys2Proof.Machine.execDecControl b s
  | .decBlock blk => Sys2Proof.Machine.execDecBlock blk s
  | .encSeconds second => Sys2Proof.Machine.execEncSeconds second s
  | .encMinutes minute => Sys2Proof.Machine.execEncMinutes minute s
  | .encHours24 hour => Sys2Proof.Machine.execEncHours24 hour s
  | .encDate day => Sys2Proof.Machine.execEncDate day s
  | .encMonth month => Sys2Proof.Machine.execEncMonth month s
  | .encDow dow => Sys2Proof.Machine.execEncDow dow s
  | .encYear year => Sys2Proof.Machine.execEncYear year s
  | .encControl => Sys2Proof.Machine.execEncControl s
  | .encBlock ts => Sys2Proof.Machine.execEncBlock ts s
  | .mergeDate blk year month day dow => Sys2Proof.Machine.execMergeDate blk year month day dow s
  | .mergeTime blk hour minute second => Sys2Proof.Machine.execMergeTime blk hour minute second s
  | .clearWp => Sys2Proof.Machine.execClearWp s
  | .initChip => Sys2Proof.Machine.execInitialize s
  | .getSecond => Sys2Proof.Machine.execGetSecond s
  | .getMinute => Sys2Proof.Machine.execGetMinute s
  | .getHour => Sys2Proof.Machine.execGetHour s
  | .getDay => Sys2Proof.Machine.execGetDay s
  | .getMonth => Sys2Proof.Machine.execGetMonth s
  | .getDow => Sys2Proof.Machine.execGetDow s
  | .getYear => Sys2Proof.Machine.execGetYear s
  | .getFull => Sys2Proof.Machine.execGetFull s
  | .getDateOnly => Sys2Proof.Machine.execGetDateOnly s
  | .getTimeOnly => Sys2Proof.Machine.execGetTimeOnly s
  | .setSecond second => Sys2Proof.Machine.execSetSecond second s
  | .setMinute minute => Sys2Proof.Machine.execSetMinute minute s
  | .setHour hour => Sys2Proof.Machine.execSetHour hour s
  | .setDay day => Sys2Proof.Machine.execSetDay day s
  | .setMonth month => Sys2Proof.Machine.execSetMonth month s
  | .setDow dow => Sys2Proof.Machine.execSetDow dow s
  | .setYear year => Sys2Proof.Machine.execSetYear year s
  | .setFull ts => Sys2Proof.Machine.execSetFull ts s
  | .setDateOnly year month day dow => Sys2Proof.Machine.execSetDateOnly year month day dow s
  | .setTimeOnly hour minute second => Sys2Proof.Machine.execSetTimeOnly hour minute second s

end Sys2Proof.Machine
end

