-- ==== Sys2Proof/Machine/Step.lean ====
section
/-! DEFINITION. One step: the host's next request, carried out to its end (R17, R30). -/

namespace Sys2Proof.Machine

/-- One step. A faulted block and a host program at its end stay as they are (R28, R30, log 4); a request that is no
operation raises its fault; any other request runs. `exec` advances hpc when the operation completes. -/
def step (s : State) : Host.Outcome State Fault Refusal :=
  match s.fetch with
  | .idle => .next s
  | .raises r => .next (s.raise r)
  | .refuses r => .refused r
  | .runs i => exec i s

/-- The state with the instruction of these table bits as the host's next request. -/
def State.withFetchWord (s : State) (nbits w : Nat) : State :=
  { s with program := setEntry (tableRequest nbits w) s.hpc s.program }

end Sys2Proof.Machine
end

