-- ==== Sys2Proof/Safety.lean ====
section
/-! DEFINITION. The terms claims use: the events each operation emits (41_transport), the invariant of 10_state R33 with
the peer's side of it, the wire discipline of 70 R270-R274, and the sums of minimum delays of R281. -/

namespace Sys2Proof.Machine

/-! ## The events of the operations, oldest first -/

/-- SESSION_START (R101). -/
def startEvents : List Event := [.ce Config.ceActive, .clk low, .dly .ceSetup]

/-- SESSION_END (R102). -/
def endEvents : List Event := [.ce (!Config.ceActive), .dly .ceRecovery]

/-- One bit of SHIFT_OUT that is not the released last one (R104). -/
def outBitEvents (l : Level) : List Event :=
  [.drv l, .dly .dataSetup, .clk high, .dly .clkHigh, .clk low, .dly .clkLow]

/-- The released last bit of SHIFT_OUT (R104). -/
def outReleaseEvents (l : Level) : List Event := [.drv l, .dly .dataSetup, .clk high, .dly .clkHigh, .dir .inp]

/-- SHIFT_OUT b, rel (R104): 49 events without release, 48 with it. -/
def shiftOutEvents (b : Byte) (rel : Bool) : List Event :=
  .dir .out :: ((List.range 7).flatMap (fun i => outBitEvents (bitAt b i)) ++
    (if rel then outReleaseEvents (bitAt b 7) else outBitEvents (bitAt b 7)))

/-- One bit of SHIFT_IN (R106). -/
def inBitEvents (l : Level) : List Event := [.clk high, .dly .rdHigh, .clk low, .dly .rdAccess, .smp l]

/-- SHIFT_IN that samples the byte b (R106): 41 events. -/
def shiftInEvents (b : Byte) : List Event :=
  .dir .inp :: (List.range 8).flatMap (fun i => inBitEvents (bitAt b i))

/-- The session `{c <-b}` of READ_REG (R110): 94 events. -/
def readEvents (c b : Byte) : List Event :=
  startEvents ++ shiftOutEvents c true ++ shiftInEvents b ++ endEvents

/-- The session `{c d}` of WRITE_REG (R113): 103 events. -/
def writeEvents (c d : Byte) : List Event :=
  startEvents ++ shiftOutEvents c false ++ shiftOutEvents d false ++ endEvents

/-- The session of BURST_READ that samples the block (R116): 381 events. -/
def burstReadEvents (blk : Block) : List Event :=
  startEvents ++ shiftOutEvents 0xBF#8 true ++ (List.range 8).flatMap (fun k => shiftInEvents (blk.get k)) ++ endEvents

/-- The session of BURST_WRITE (R119): 446 events. -/
def burstWriteEvents (blk : Block) : List Event :=
  startEvents ++ shiftOutEvents 0xBE#8 false ++ (List.range 8).flatMap (fun k => shiftOutEvents (blk.get k) false) ++ endEvents

/-! ## The invariant -/

/-- The block's latches agree with each other: R33 items 1 to 3, and what R25 and R26 say of the command and the count. -/
structure BlockInv (s : State) : Prop where
  ce_active  : s.ce = Config.ceActive ↔ s.seq = .active
  idle       : s.seq = .idle → s.clk = low ∧ s.rel = false
  released   : s.rel = true → s.clk = high ∧ s.iodir = .inp ∧ s.cmdValid = true ∧ readFlag s.cmd = true
  unreleased : s.rel = false → s.clk = low
  fresh      : s.seq = .active → s.cmdValid = false → s.nbytes = 0
  commanded  : s.seq = .active → s.cmdValid = true → decodeCmd s.cmd ≠ none ∧ s.nbytes ≤ need s.cmd
  reading    : s.seq = .active → s.cmdValid = true → readFlag s.cmd = true →
                 s.iodir = .inp ∧ (s.rel = true ↔ s.nbytes = 0)

/-- An attached peer is where the block's latches say the session is (R71-R75). -/
structure PeerInv (s : State) : Prop where
  off   : s.seq = .idle → s.peer.pstate = .off ∧ s.peer.pdrive = false
  cmd   : s.seq = .active → s.cmdValid = false →
            s.peer.pstate = .cmd ∧ s.peer.pbit = 0 ∧ s.peer.pdrive = false
  wdata : s.seq = .active → s.cmdValid = true → readFlag s.cmd = false →
            s.peer.pstate = .wdata ∧ s.peer.pbit = 0 ∧ s.peer.pk = s.nbytes ∧ s.peer.pcmd = s.cmd ∧ s.peer.pdrive = false
  rdata : s.seq = .active → s.cmdValid = true → readFlag s.cmd = true →
            s.peer.pstate = .rdata ∧ s.peer.pbit = 0 ∧ s.peer.pk = s.nbytes ∧ s.peer.pcmd = s.cmd ∧
            (s.peer.pdrive = true ↔ 0 < s.nbytes)

/-- The invariant every operation keeps (R33). -/
structure Inv (s : State) : Prop where
  block : BlockInv s
  peer  : s.peer.attached = true → PeerInv s

/-- The block is ready for an operation that opens a session: no fault, no open session, pins that return
(PINS_RETURN, R253), and the invariant. -/
structure Ready (s : State) : Prop where
  inv   : Inv s
  ok    : s.fault = none
  idle  : s.seq = .idle
  pins  : s.platform.pinsReturn = true

/-- An attached peer whose registers pass no tick: it does not tick, or its clock is halted (R74). The zero-tick peer is
the source's backing store. -/
structure Quiet (s : State) : Prop where
  attached : s.peer.attached = true
  halted   : s.peer.kind = .ticking → chFlag s.peer.regs.clock.seconds = true

/-! ## What a session leaves -/

/-- The low n bits drawn from the undriven line over v, the first being the d-th draw (R76). -/
def undrivenBits (v : Byte) (d : Nat) : Nat → Byte
  | 0 => v
  | n + 1 => setBit (undrivenBits v d n) n (Config.undriven (d + n))

/-- The byte of eight draws of the undriven line, the first being the d-th (R76). -/
def undrivenByte (d : Nat) : Byte := undrivenBits 0 d 8

/-- Eight bytes of eight draws each, the first being the d-th (R77, R117). -/
def undrivenBlock (d : Nat) : Block :=
  ⟨undrivenByte d, undrivenByte (d + 8), undrivenByte (d + 16), undrivenByte (d + 24), undrivenByte (d + 32),
    undrivenByte (d + 40), undrivenByte (d + 48), undrivenByte (d + 56)⟩

/-- What a single write leaves of the registers it finds (R73). -/
def Regs.written (r : Regs) (n : Nat) (d : Byte) : Regs :=
  if n = 7 ∨ wpFlag r.clock.control = false then r.set n d else r

/-- What a burst write leaves of the registers it finds (R73, R120). -/
def Regs.burstWritten (r : Regs) (blk : Block) : Regs :=
  if wpFlag r.clock.control = false then { r with clock := blk } else r

/-- The block's latches after a whole session with the command byte c that moved n data bytes, the last of them d,
and emitted ev (R101-R106). -/
def State.ended (s : State) (c : Byte) (n : Nat) (d : Byte) (ev : List Event) : State :=
  { s with seq := .idle, ce := !Config.ceActive, clk := low, rel := false, cmdValid := true, cmd := c, nbytes := n,
           sr := d, bit := 8, iodir := if readFlag c then .inp else .out,
           ioOut := if readFlag c then bitAt c 7 else bitAt d 7, revTrace := ev.reverse ++ s.revTrace }

/-- An attached peer after a whole session with the command byte c and n data bytes, which found the registers `found` and
left `regs` (R71-R73). -/
def Peer.ended (p : Peer) (c : Byte) (n : Nat) (found regs : Regs) : Peer :=
  { p with regs := regs, snap := found, pstate := .off, pbit := 0, pk := n, pcmd := c, pdrive := false }

/-- The state once the operation's result is given to the host (R30). -/
def State.completed (s : State) (r : Result) : State := { s with hpc := s.hpc + 1, results := s.results ++ [r] }

/-! ## Classes of instructions and operands -/

/-- The operations that begin with SESSION_START's check (R241 row 2), a register transfer once its address is admitted (R110). -/
def opensSession : Instr → Bool
  | .wrSeconds _ | .wrMinutes _ | .wrHours _ | .wrDate _ | .wrMonth _ | .wrDow _ | .wrYear _ | .wrControl _ | .wrTrickle _ => true
  | .rdSeconds | .rdMinutes | .rdHours | .rdDate | .rdMonth | .rdDow | .rdYear | .rdControl | .rdTrickle => true
  | .burstWr _ | .burstRd | .sessionStart | .burstRead | .burstWrite _ => true
  | .readReg a => addressOk a
  | .writeReg a _ => addressOk a
  | .clearWp | .initChip => true
  | .getSecond | .getMinute | .getHour | .getDay | .getMonth | .getDow | .getYear => true
  | .getFull | .getDateOnly | .getTimeOnly => true
  | .setSecond _ | .setMinute _ | .setHour _ | .setDay _ | .setMonth _ | .setDow _ | .setYear _ => true
  | .setFull _ | .setDateOnly _ _ _ _ | .setTimeOnly _ _ _ => true
  | .sessionEnd | .shiftOut _ _ | .shiftIn => false
  | .bcdDecode _ _ | .bcdEncHigh _ | .bcdEncLow _ | .bcdPack _ _ => false
  | .decSeconds _ | .decMinutes _ | .decHours _ | .decDate _ | .decMonth _ | .decDow _ | .decYear _ | .decControl _ | .decBlock _ => false
  | .encSeconds _ | .encMinutes _ | .encHours24 _ | .encDate _ | .encMonth _ | .encDow _ | .encYear _ | .encControl | .encBlock _ => false
  | .mergeDate _ _ _ _ _ | .mergeTime _ _ _ _ => false

/-- The codec operations of 42_bcd and 43_register_map. -/
def isCodec : Instr → Bool
  | .bcdDecode _ _ | .bcdEncHigh _ | .bcdEncLow _ | .bcdPack _ _ => true
  | .decSeconds _ | .decMinutes _ | .decHours _ | .decDate _ | .decMonth _ | .decDow _ | .decYear _ | .decControl _ | .decBlock _ => true
  | .encSeconds _ | .encMinutes _ | .encHours24 _ | .encDate _ | .encMonth _ | .encDow _ | .encYear _ | .encControl | .encBlock _ => true
  | .mergeDate _ _ _ _ _ | .mergeTime _ _ _ _ => true
  | .wrSeconds _ | .wrMinutes _ | .wrHours _ | .wrDate _ | .wrMonth _ | .wrDow _ | .wrYear _ | .wrControl _ | .wrTrickle _ => false
  | .rdSeconds | .rdMinutes | .rdHours | .rdDate | .rdMonth | .rdDow | .rdYear | .rdControl | .rdTrickle => false
  | .burstWr _ | .burstRd | .sessionStart | .sessionEnd | .shiftOut _ _ | .shiftIn => false
  | .readReg _ | .writeReg _ _ | .burstRead | .burstWrite _ | .clearWp | .initChip => false
  | .getSecond | .getMinute | .getHour | .getDay | .getMonth | .getDow | .getYear => false
  | .getFull | .getDateOnly | .getTimeOnly => false
  | .setSecond _ | .setMinute _ | .setHour _ | .setDay _ | .setMonth _ | .setDow _ | .setYear _ => false
  | .setFull _ | .setDateOnly _ _ _ _ | .setTimeOnly _ _ _ => false

/-- An OPC of R95's table. -/
def opcListed (opc : Nat) : Prop :=
  (0x01 ≤ opc ∧ opc ≤ 0x08) ∨ (0x10 ≤ opc ∧ opc ≤ 0x13) ∨ (0x20 ≤ opc ∧ opc ≤ 0x28) ∨ (0x30 ≤ opc ∧ opc ≤ 0x3A) ∨
    (0x40 ≤ opc ∧ opc ≤ 0x55)

/-- The ranges of R38. -/
structure InRange (ts : Timestamp) : Prop where
  hour   : ts.hour.toNat ≤ 23
  minute : ts.minute.toNat ≤ 59
  second : ts.second.toNat ≤ 59
  year   : 2000 ≤ ts.year ∧ ts.year ≤ 2099
  month  : 1 ≤ ts.month.toNat ∧ ts.month.toNat ≤ 12
  day    : 1 ≤ ts.day.toNat ∧ ts.day.toNat ≤ 31
  dow    : 1 ≤ ts.dow.toNat ∧ ts.dow.toNat ≤ 7

/-- The number that the units digit and the w-bit tens digit of a register byte spell (R39, R146). -/
def digits (b : Byte) (w : Nat) : Nat := 10 * (b.extractLsb' 4 w).toNat + (b.extractLsb' 0 4).toNat

/-- The register byte of a value whose tens digit has w bits, an over-wide tens digit cut (R143). -/
def packed (v : Byte) (w : Nat) : Byte := BitVec.ofNat 8 (16 * (v.toNat / 10 % 2 ^ w) + v.toNat % 10)

/-- The byte ENC_YEAR answers (R187): the packed offset of a year in 2000..2099, and for any other year a draw that the
counter of draws passed between m and n (log 10). -/
def YearByte (year m n : Nat) (b : Byte) : Prop :=
  (2000 ≤ year ∧ year ≤ 2099 → b.toNat = (year - 2000) / 10 * 16 + (year - 2000) % 10) ∧
  (¬(2000 ≤ year ∧ year ≤ 2099) → ∃ k, m ≤ k ∧ k < n ∧ b = Config.yearByte k)

/-! ## The wire discipline -/

/-- Where a watcher of the three wires stands (the test double of R29): what the last event was, and so what is owed next. -/
inductive Phase where
  | idle       -- no session, and the recovery after the last one is over (R273)
  | selected   -- chip-select went active: the clock is set Low next (R270)
  | clocked    -- T_CE_SETUP is next (R270)
  | ready      -- between two bits of a session, every delay paid
  | driven     -- SHIFT_OUT put the bit on the line: T_DATA_SETUP is next (R271)
  | settled    -- the rising edge is next (R271)
  | outHigh    -- T_CLK_HIGH is next (R271)
  | outHeld    -- the falling edge is next, or the hand-off of a read command's eighth bit (R271, R274)
  | outLow     -- T_CLK_LOW is next (R271)
  | inHigh     -- SHIFT_IN set the clock High: T_RD_HIGH is next (R272)
  | inHeld     -- the falling edge is next (R272)
  | inLow      -- T_RD_ACCESS is next (R272)
  | inValid    -- the sample is next (R272)
  | closing    -- chip-select went inactive: T_CE_RECOVERY is next (R273)
deriving DecidableEq, Repr

/-- What a watcher of the three wires knows: their levels, where it stands, how many bits the session has moved, and the
command byte they spell. -/
structure Wire where
  ce    : Level
  clk   : Level
  dir   : Dir
  phase : Phase
  bits  : Nat
  cmd   : Byte
deriving DecidableEq, Repr

/-- The wires at block reset (R260). -/
def Wire.reset : Wire := ⟨!Config.ceActive, low, .inp, .idle, 0, 0⟩

/-- The command byte is whole and asks for a read, so the peer may drive the data line (R72, R92). -/
def Wire.reading (w : Wire) : Bool := decide (8 ≤ w.bits) && readFlag w.cmd

/-- The session has moved its command byte and every data byte the command asks for (R92, R277). -/
def Wire.whole (w : Wire) : Bool := w.bits == 8 + 8 * need w.cmd

/-- The watcher's next state where the condition holds, `none` where the event breaks the discipline. -/
def Wire.when (ok : Prop) [Decidable ok] (w : Wire) : Option Wire := if ok then some w else none

/-- The watcher's next state, `none` where the event breaks the discipline.
A CLK event comes inside a session only, an edge or not (R33 item 2, R107 item 1).
Setup and recovery frame the session (R270, R273), which ends when it is whole (R107 item 2, R277).
A rising edge of SHIFT_OUT follows the DRV of its bit and T_DATA_SETUP, and nothing is driven while the clock is high (R271,
R107 item 3); the eighth bit of a read command, and no other, ends in the hand-off, with no falling edge before it (R274).
A SMP follows a falling edge and T_RD_ACCESS (R272, R107 item 4); in a read session the data pin is never an output again
(R107 item 5). A byte starts with the direction of its shift (R104, R106), and a command byte is one of R91 (R93). -/
def Wire.next (w : Wire) (e : Event) : Option Wire :=
  match w.phase, e with
  | .idle, .ce l => Wire.when (l = Config.ceActive ∧ w.clk = low) { w with ce := l, phase := .selected, bits := 0 }
  | .selected, .clk l => Wire.when (l = low ∧ w.clk = low) { w with phase := .clocked }
  | .clocked, .dly p => Wire.when (p = .ceSetup) { w with phase := .ready }
  | .ready, .dir d =>
    Wire.when (w.bits % 8 = 0 ∧ w.whole = false ∧ d = (if w.reading then .inp else .out)) { w with dir := d }
  | .ready, .drv l =>
    Wire.when (w.dir = .out ∧ w.clk = low ∧ w.reading = false ∧ w.whole = false)
      { w with phase := .driven, cmd := if w.bits < 8 then setBit w.cmd w.bits l else w.cmd }
  | .driven, .dly p => Wire.when (p = .dataSetup) { w with phase := .settled }
  | .settled, .clk l =>
    Wire.when (l = high ∧ w.clk = low ∧ (w.bits = 7 → decodeCmd w.cmd ≠ none))
      { w with clk := l, phase := .outHigh, bits := w.bits + 1 }
  | .outHigh, .dly p => Wire.when (p = .clkHigh) { w with phase := .outHeld }
  | .outHeld, .clk l =>
    Wire.when (l = low ∧ w.clk = high ∧ ¬(w.bits = 8 ∧ readFlag w.cmd = true)) { w with clk := l, phase := .outLow }
  | .outHeld, .dir d => Wire.when (d = .inp ∧ w.bits = 8 ∧ readFlag w.cmd = true) { w with dir := d, phase := .ready }
  | .outLow, .dly p => Wire.when (p = .clkLow) { w with phase := .ready }
  | .ready, .clk l =>
    Wire.when (l = high ∧ w.dir = .inp ∧ w.reading = true ∧ w.whole = false) { w with clk := l, phase := .inHigh }
  | .inHigh, .dly p => Wire.when (p = .rdHigh) { w with phase := .inHeld }
  | .inHeld, .clk l => Wire.when (l = low ∧ w.clk = high) { w with clk := l, phase := .inLow }
  | .inLow, .dly p => Wire.when (p = .rdAccess) { w with phase := .inValid }
  | .inValid, .smp _ => Wire.when (w.dir = .inp ∧ w.clk = low) { w with phase := .ready, bits := w.bits + 1 }
  | .ready, .ce l => Wire.when (l = !Config.ceActive ∧ w.clk = low ∧ w.whole = true) { w with ce := l, phase := .closing }
  | .closing, .dly p => Wire.when (p = .ceRecovery) { w with phase := .idle }
  | _, _ => none

/-- The watcher over a list of events, oldest first. -/
def Wire.run (w : Wire) : List Event → Option Wire
  | [] => some w
  | e :: es => match w.next e with
    | some w' => w'.run es
    | none => none

/-- The watcher has seen what the block's latches say: the levels, no session or one that owes nothing, its command and how
many bytes it has moved. -/
structure Watching (w : Wire) (s : State) : Prop where
  ce     : w.ce = s.ce
  clk    : w.clk = s.clk
  dir    : w.dir = s.iodir
  idle   : s.seq = .idle → w.phase = .idle
  active : s.seq = .active → w.phase = .ready
  fresh  : s.seq = .active → s.cmdValid = false → w.bits = 0
  moved  : s.seq = .active → s.cmdValid = true → w.cmd = s.cmd ∧ w.bits = 8 + 8 * s.nbytes

/-- The trace keeps the discipline from reset on, and the watcher has seen what the latches say. -/
def Disciplined (s : State) : Prop := ∃ w, Wire.reset.run s.trace = some w ∧ Watching w s

/-! ## Minimum durations -/

/-- The sum of the minimum delays of a list of events, in microseconds (R281). -/
def minDuration : List Event → Nat
  | [] => 0
  | .dly p :: es => Config.minMicros p + minDuration es
  | _ :: es => minDuration es

/-- The number of rising edges in a list of events, from a clock level (R33 item 4). -/
def risingEdges (clk : Level) : List Event → Nat
  | [] => 0
  | .clk l :: es => (if l && !clk then 1 else 0) + risingEdges l es
  | _ :: es => risingEdges clk es

/-- The number of falling edges in a list of events, from a clock level (R33 item 4). -/
def fallingEdges (clk : Level) : List Event → Nat
  | [] => 0
  | .clk l :: es => (if !l && clk then 1 else 0) + fallingEdges l es
  | _ :: es => fallingEdges clk es

end Sys2Proof.Machine
end

