-- ==== Sys2Proof/Certificates/Slice0/Obligations.lean ====
section
/-! DEFINITION. The statements for the provers, from the numbered rules of spec/, file by file. Where a clause rests on the
model's own representation (the results list of log 23, the place of the ticks of log 8, the codes of log 2), the docstring
says so. -/

section

open Sys2Proof Sys2Proof.Machine

/-! ## Encoding (30_encoding) -/

/-- R95, R97, R99: decoding the encoded request of a well-formed instruction gives it back, every operand at every value.
The request's words are log 2's. -/
def Obligations.DecodeEncodeAgree : Prop := ∀ i : Instr, i.wellFormed = true → decode (encode i) = .instr i

/-- R91, R95, R97: requests written out by hand from the tables decode to the instruction they stand for. -/
def Obligations.DecodesSpecWords : Prop :=
  decode ⟨.wireCmd, [0x80, 0x59]⟩ = .instr (.wrSeconds 0x59#8) ∧
  decode ⟨.wireCmd, [0x85]⟩ = .instr .rdHours ∧
  decode ⟨.wireCmd, [0xBE, 0x00, 0x30, 0x14, 0x15, 0x03, 0x05, 0x24, 0x00]⟩ =
    .instr (.burstWr ⟨0x00#8, 0x30#8, 0x14#8, 0x15#8, 0x03#8, 0x05#8, 0x24#8, 0x00#8⟩) ∧
  decode ⟨.wireCmd, [0xBF]⟩ = .instr .burstRd ∧
  decode ⟨.blockOp, [0x03, 0x81, 1]⟩ = .instr (.shiftOut 0x81#8 true) ∧
  decode ⟨.blockOp, [0x05, 0x84]⟩ = .instr (.readReg 0x84#8) ∧
  decode ⟨.blockOp, [0x06, 0x8E, 0x00]⟩ = .instr (.writeReg 0x8E#8 0x00#8) ∧
  decode ⟨.blockOp, [0x10, 5, 9]⟩ = .instr (.bcdDecode 5#4 9#4) ∧
  decode ⟨.blockOp, [0x22, 0xB1]⟩ = .instr (.decHours 0xB1#8) ∧
  decode ⟨.blockOp, [0x36, 2024]⟩ = .instr (.encYear 2024) ∧
  decode ⟨.blockOp, [0x44]⟩ = .instr .getHour ∧
  decode ⟨.blockOp, [0x53, 14, 30, 0, 2024, 3, 15, 5]⟩ = .instr (.setFull ⟨14#8, 30#8, 0#8, 2024, 3#8, 15#8, 5#8⟩) ∧
  decode ⟨.blockOp, [0x54, 2025, 1, 2, 3]⟩ = .instr (.setDateOnly 2025 1#8 2#8 3#8) ∧
  decode ⟨.blockOp, [0x55, 9, 5, 7]⟩ = .instr (.setTimeOnly 9#8 5#8 7#8)

/-- R91, R99: the command decoder is total on bytes, maps each row's byte to its row and no byte to another row, and refuses
exactly the bytes of R99's two INVALID cases. -/
def Obligations.CommandDecoderExact : Prop :=
  (∀ (c : Byte) (w : WireCmd), decodeCmd c = some w ↔ w.byte = c) ∧
  (∀ c : Byte, decodeCmd c = none ↔ c.getLsbD 7 = false ∨ c.getLsbD 6 = true ∨
    (9 ≤ (c.extractLsb' 1 5).toNat ∧ (c.extractLsb' 1 5).toNat ≤ 30))

/-- R92: how many data bytes follow a command byte is told from the byte alone, and its direction is bit 0. -/
def Obligations.SessionLengthFromCommand : Prop :=
  ∀ c : Byte, need c = (if c.extractLsb' 1 5 = 31#5 then 8 else 1) ∧ readFlag c = c.getLsbD 0 ∧
    ∀ w, decodeCmd c = some w → match w with
      | .wr _ => need c = 1 ∧ c.getLsbD 0 = false
      | .rd _ => need c = 1 ∧ c.getLsbD 0 = true
      | .burstWr => need c = 8 ∧ c.getLsbD 0 = false
      | .burstRd => need c = 8 ∧ c.getLsbD 0 = true

/-- R95, R99, R241 row 1: exactly the OPCs outside R95's table are no operation, and issuing one raises F_BAD_OPC and does
nothing else. -/
def Obligations.UnknownOpcFaults : Prop :=
  (∀ (opc : Nat) (ws : List Nat), decode ⟨.blockOp, opc :: ws⟩ = .badOpc ↔ ¬opcListed opc) ∧
  ∀ (s : State) (opc : Nat) (ws : List Nat), s.fault = none → s.program[s.hpc]? = some ⟨.blockOp, opc :: ws⟩ →
    s.platform.shared = false → s.platform.pins.distinct = true → ¬opcListed opc →
    step s = .next { s with fault := some .badOpc }

/-! ## The step (10_state R30, 20_memory R63, 60_exceptions R249) -/

/-- R30, R95: a step carries out the instruction the request at hpc decodes to; it adds nothing of its own. -/
def Obligations.StepRunsDecoded : Prop :=
  ∀ (s : State) (req : Request) (i : Instr), s.fault = none → s.program[s.hpc]? = some req → s.platform.shared = false →
    s.platform.pins.distinct = true → decode req = .instr i → step s = exec i s

/-- R28, R30, R100 item 1: a faulted block does nothing, whatever is asked of it, and a step at the end of the host program
leaves the state as it is. R30 says where the program ends; that a step there changes nothing is log 4's deduction. -/
def Obligations.FaultedBlockDoesNothing : Prop :=
  (∀ s : State, s.fault ≠ none → step s = .next s ∧ ∀ i : Instr, exec i s = .next s) ∧
  ∀ s : State, s.program[s.hpc]? = none → step s = .next s

/-- R63, R241 rows 1 and 14, R249, R95: what a step does with a request it cannot run. Any two of the platform's instances
that share a pin raise F_PIN_SHARED, this one or not. The order of these checks is log 5's, the empty request and a word that
is no byte log 2's, and a wire command outside R91, refused before SESSION_START's check, log 25's. -/
def Obligations.UnrunnableRequests : Prop :=
  (decode ⟨.wireCmd, []⟩ = .badCommand ∧ decode ⟨.blockOp, []⟩ = .badOpc ∧
    ∀ (c : Nat) (ws : List Nat), 256 ≤ c ∨ decodeCmd (BitVec.ofNat 8 c) = none → decode ⟨.wireCmd, c :: ws⟩ = .badCommand) ∧
  ∀ (s : State) (req : Request), s.fault = none → s.program[s.hpc]? = some req →
    (∀ a b : Pins, [a, b].Sublist (s.platform.pins :: s.platform.others) →
      ∀ p ∈ [a.ce, a.io, a.clk], p ∈ [b.ce, b.io, b.clk] → step s = .next { s with fault := some .pinShared }) ∧
    (s.platform.shared = false → s.platform.pins.distinct = false → step s = .refused .pinsNotDistinct) ∧
    (s.platform.shared = false → s.platform.pins.distinct = true →
      (decode req = .badCommand → step s = .next { s with fault := some .badCommand }) ∧
      (decode req = .badOpc → step s = .next { s with fault := some .badOpc }) ∧
      (decode req = .badOperands → step s = .refused .operandOutsideType))

/-- R29, R30, R32, R58: one step either changes nothing, or raises a fault and leaves hpc and the results, or completes one
operation: hpc goes up by one and one result is given. The trace only grows; the host program, the platform and the kind of
peer stay. The results list is log 23's. -/
def Obligations.StepAdvances : Prop :=
  ∀ s t : State, step s = .next t → t.program = s.program ∧ t.platform = s.platform ∧ t.peer.kind = s.peer.kind ∧
    (∃ es, t.trace = s.trace ++ es) ∧
    (t = s ∨ (s.fault = none ∧ t.fault ≠ none ∧ t.hpc = s.hpc ∧ t.results = s.results) ∨
      (s.fault = none ∧ t.fault = none ∧ t.hpc = s.hpc + 1 ∧ ∃ r, t.results = s.results ++ [r]))

/-! ## Faults (60_exceptions R241-R244, 41_transport R100-R105) -/

/-- R101, R241 row 2: every operation that begins with a session start is refused while a session is open. -/
def Obligations.SessionOpenFaults : Prop :=
  ∀ (i : Instr) (s : State), opensSession i = true → s.fault = none → s.seq = .active →
    exec i s = .next { s with fault := some .sessionOpen }

/-- R54, R110, R113, R241 row 12: a register transfer of any address outside the nine, bursts included, is refused before
anything else is checked. -/
def Obligations.BadAddressFaults : Prop :=
  ∀ (a d : Byte) (s : State), s.fault = none →
    a &&& 0xFE#8 ∉ [0x80#8, 0x82#8, 0x84#8, 0x86#8, 0x88#8, 0x8A#8, 0x8C#8, 0x8E#8, 0x90#8] →
    exec (.readReg a) s = .next { s with fault := some .badAddress } ∧
    exec (.writeReg a d) s = .next { s with fault := some .badAddress }

/-- R102, R105, R241 rows 3, 4, 9, 10 and 11: SESSION_END's and SHIFT_IN's checks, in their order; a failing one raises its
fault and does nothing else. -/
def Obligations.SessionEndAndShiftInChecks : Prop :=
  ∀ s : State, s.fault = none →
    (s.seq = .idle → exec .sessionEnd s = .next { s with fault := some .noSession }) ∧
    (s.seq = .active → s.rel = true → exec .sessionEnd s = .next { s with fault := some .releasePending }) ∧
    (s.seq = .active → s.rel = false → (s.cmdValid = false ∨ s.nbytes ≠ need s.cmd) →
      exec .sessionEnd s = .next { s with fault := some .underrun }) ∧
    (s.seq = .idle → exec .shiftIn s = .next { s with fault := some .noSession }) ∧
    (s.seq = .active → (s.cmdValid = false ∨ s.cmd.getLsbD 0 = false) →
      exec .shiftIn s = .next { s with fault := some .notRead }) ∧
    (s.seq = .active → s.cmdValid = true → s.cmd.getLsbD 0 = true → s.nbytes = need s.cmd →
      exec .shiftIn s = .next { s with fault := some .overrun })

/-- R103, R241 rows 3 to 8 and 10: SHIFT_OUT's checks, in their order. -/
def Obligations.ShiftOutChecks : Prop :=
  ∀ (s : State) (b : Byte) (rel : Bool), s.fault = none →
    (s.seq = .idle → exec (.shiftOut b rel) s = .next { s with fault := some .noSession }) ∧
    (s.seq = .active → s.rel = true → exec (.shiftOut b rel) s = .next { s with fault := some .releasePending }) ∧
    (s.seq = .active → s.rel = false → s.cmdValid = false →
      (decodeCmd b = none → exec (.shiftOut b rel) s = .next { s with fault := some .badCommand }) ∧
      (decodeCmd b ≠ none → b.getLsbD 0 = true → rel = false →
        exec (.shiftOut b rel) s = .next { s with fault := some .noRelease }) ∧
      (decodeCmd b ≠ none → b.getLsbD 0 = false → rel = true →
        exec (.shiftOut b rel) s = .next { s with fault := some .badRelease })) ∧
    (s.seq = .active → s.rel = false → s.cmdValid = true →
      (s.cmd.getLsbD 0 = true → exec (.shiftOut b rel) s = .next { s with fault := some .notWrite }) ∧
      (s.cmd.getLsbD 0 = false → rel = true → exec (.shiftOut b rel) s = .next { s with fault := some .badRelease }) ∧
      (s.cmd.getLsbD 0 = false → rel = false → s.nbytes = need s.cmd →
        exec (.shiftOut b rel) s = .next { s with fault := some .overrun }))

/-- R253, 93 ID5: with pin primitives that do not all return, no pin operation whose checks pass completes, SESSION_START,
SESSION_END, SHIFT_OUT and SHIFT_IN among them, and the codec still does. That the platform may be so is log 6's field. -/
def Obligations.PinsThatHang : Prop :=
  ∀ (i : Instr) (s : State), s.fault = none → s.platform.pinsReturn = false →
    (opensSession i = true → s.seq = .idle → exec i s = .fault .pinsHang) ∧
    (s.seq = .active → s.rel = false → s.cmdValid = true → s.nbytes = need s.cmd → exec .sessionEnd s = .fault .pinsHang) ∧
    (s.seq = .active → s.rel = false → s.cmdValid = false → ∀ c : Byte, decodeCmd c ≠ none →
      exec (.shiftOut c (c.getLsbD 0)) s = .fault .pinsHang) ∧
    (s.seq = .active → s.rel = false → s.cmdValid = true → s.cmd.getLsbD 0 = false → s.nbytes ≠ need s.cmd → ∀ d : Byte,
      exec (.shiftOut d false) s = .fault .pinsHang) ∧
    (s.seq = .active → s.cmdValid = true → s.cmd.getLsbD 0 = true → s.nbytes ≠ need s.cmd →
      exec .shiftIn s = .fault .pinsHang) ∧
    (isCodec i = true → i.wellFormed = true → ∃ t, exec i s = .next t ∧ t.fault = none)

/-! ## Session framing and the shift registers (41_transport R101-R106) -/

/-- R101, whole: SESSION_START's OPC, its check, its three events, and every latch it writes; no other field of the block
changes. What the peer does with the events is PeerSelected's. -/
def Obligations.SessionStartOpens : Prop :=
  decode ⟨.blockOp, [0x01]⟩ = .instr .sessionStart ∧
  ∀ s : State, s.fault = none →
    (s.seq ≠ .idle → exec .sessionStart s = .next { s with fault := some .sessionOpen }) ∧
    (Ready s → s.clk = low ∧ ∃ (p : Peer) (n : Nat), exec .sessionStart s = .next
      ({ s with seq := .active, ce := high, clk := low, rel := false, cmdValid := false, nbytes := 0, peer := p, draws := n,
                revTrace := .dly .ceSetup :: .clk low :: .ce high :: s.revTrace }.completed .none))

/-- R71, R74, R77: what SESSION_START does to the peer: it snapshots the registers it has after the ticks of the gap, and
awaits a command; with no peer nothing changes. The ticks fall at the chip-select event by log 8. -/
def Obligations.PeerSelected : Prop :=
  ∀ s : State, Ready s → ∃ t, exec .sessionStart s = .next t ∧
    (s.peer.attached = true → t.draws = s.elapse.draws ∧
      t.peer = { s.peer with regs := s.elapse.peer.regs, snap := s.elapse.peer.regs, pstate := .cmd, pbit := 0, pk := 0,
                             pcmd := 0, pdrive := false }) ∧
    (s.peer.attached = false → t.peer = s.peer ∧ t.draws = s.draws) ∧
    (Quiet s → t.peer.regs = s.peer.regs ∧ t.draws = s.draws)

/-- R102, R73: SESSION_END deasserts chip-select, waits the recovery, and the peer commits what it received. -/
def Obligations.SessionEndCloses : Prop :=
  ∀ s : State, Inv s → s.fault = none → s.platform.pinsReturn = true → s.seq = .active → s.rel = false →
    s.cmdValid = true → s.nbytes = need s.cmd →
    exec .sessionEnd s = .next ({ s with
      seq := .idle, ce := low, revTrace := .dly .ceRecovery :: .ce low :: s.revTrace
      peer := if s.peer.attached = true then { s.peer with
          pstate := .off, pdrive := false
          regs := if readFlag s.cmd = true then s.peer.regs
            else if cmdIdx s.cmd = 31 then s.peer.regs.burstWritten s.peer.wbuf
            else s.peer.regs.written (cmdIdx s.cmd) (s.peer.wbuf.get 0) }
        else s.peer }.completed .none)

/-- R104, R25, R26, R72: SHIFT_OUT sends eight bits, least significant first. The session's first byte is latched as its
command, and a read command is released: the clock stays high and the data pin becomes an input. A later byte is counted. -/
def Obligations.ShiftOutSends : Prop :=
  ∀ s : State, Inv s → s.fault = none → s.platform.pinsReturn = true → s.seq = .active → s.rel = false →
    (s.cmdValid = false → ∀ c : Byte, decodeCmd c ≠ none →
      exec (.shiftOut c (c.getLsbD 0)) s = .next ({ s with
        cmd := c, cmdValid := true, sr := c, bit := 8, ioOut := c.getLsbD 7
        iodir := if c.getLsbD 0 then .inp else .out
        clk := c.getLsbD 0, rel := c.getLsbD 0
        revTrace := (shiftOutEvents c (c.getLsbD 0)).reverse ++ s.revTrace
        peer := if s.peer.attached = true then
            { s.peer with pcmd := c, pk := 0, pstate := if c.getLsbD 0 then .rdata else .wdata }
          else s.peer }.completed .none)) ∧
    (s.cmdValid = true → s.cmd.getLsbD 0 = false → s.nbytes ≠ need s.cmd → ∀ d : Byte,
      exec (.shiftOut d false) s = .next ({ s with
        nbytes := s.nbytes + 1, sr := d, bit := 8, ioOut := d.getLsbD 7, iodir := .out
        revTrace := (shiftOutEvents d false).reverse ++ s.revTrace
        peer := if s.peer.attached = true then
            { s.peer with wbuf := s.peer.wbuf.set s.nbytes d, pk := s.nbytes + 1 }
          else s.peer }.completed .none))

/-- R106, R72, R76, R77: SHIFT_IN clocks eight bits in, least significant first, and returns them: the addressed byte of an
attached peer's snapshot, or eight fresh draws of the undriven line. -/
def Obligations.ShiftInReceives : Prop :=
  ∀ s : State, Inv s → s.fault = none → s.platform.pinsReturn = true → s.seq = .active → s.cmdValid = true →
    s.cmd.getLsbD 0 = true → s.nbytes ≠ need s.cmd →
    (s.peer.attached = true → ∀ v, v = s.peer.snap.get (if cmdIdx s.cmd = 31 then s.nbytes else cmdIdx s.cmd) →
      exec .shiftIn s = .next ({ s with
        rel := false, iodir := .inp, clk := low, sr := v, bit := 8, nbytes := s.nbytes + 1
        revTrace := (shiftInEvents v).reverse ++ s.revTrace
        peer := { s.peer with pdrive := true, plevel := v.getLsbD 7, pk := s.nbytes + 1 } }.completed (.byte v))) ∧
    (s.peer.attached = false → ∀ v, v = undrivenByte s.draws →
      exec .shiftIn s = .next ({ s with
        rel := false, iodir := .inp, clk := low, sr := v, bit := 8, nbytes := s.nbytes + 1, draws := s.draws + 8
        revTrace := (shiftInEvents v).reverse ++ s.revTrace }.completed (.byte v)))

/-- R271, whole: the events of one bit of a SHIFT_OUT, in order, from a low clock; no DRV event lies between a rising edge
and the next falling edge, since each bit has one DRV, before its rising edge, and lowers the clock unless it is released. -/
def Obligations.ShiftOutBitTiming : Prop :=
  ∀ (s : State) (b : Byte) (rel : Bool), Inv s → s.fault = none → s.platform.pinsReturn = true →
    admitShiftOut b rel s = none → ∃ t, exec (.shiftOut b rel) s = .next t ∧ t.fault = none ∧ s.clk = low ∧
      t.trace = s.trace ++ .dir .out :: (List.range 8).flatMap fun i =>
        [.drv (b.getLsbD i), .dly .dataSetup, .clk high, .dly .clkHigh] ++
          (if rel = true ∧ i = 7 then [.dir .inp] else [.clk low, .dly .clkLow])

/-- R272, whole: the events of one bit of a SHIFT_IN, in order; the clock is high before each falling edge. -/
def Obligations.ShiftInBitTiming : Prop :=
  ∀ s : State, Inv s → s.fault = none → s.platform.pinsReturn = true → admitShiftIn s = none →
    ∃ (t : State) (v : Byte), exec .shiftIn s = .next t ∧ t.fault = none ∧ t.results = s.results ++ [.byte v] ∧
      t.trace = s.trace ++ .dir .inp :: (List.range 8).flatMap fun i =>
        [.clk high, .dly .rdHigh, .clk low, .dly .rdAccess, .smp (v.getLsbD i)]

/-- R21, whole: a completed operation moves the sequencer from IDLE to ACTIVE if it is SESSION_START, from ACTIVE to IDLE if it
is SESSION_END, keeps it ACTIVE if it shifts, and otherwise leaves it as it was; under the invariant an operation that ends
with a fault recorded leaves it as it was too, so no other transition exists. -/
def Obligations.SequencerTransitions : Prop :=
  ∀ (i : Instr) (s t : State), exec i s = .next t →
    (s.fault = none → t.fault = none →
      (i = .sessionStart → s.seq = .idle ∧ t.seq = .active) ∧
      (i = .sessionEnd → s.seq = .active ∧ t.seq = .idle) ∧
      ((∃ b rel, i = .shiftOut b rel) ∨ i = .shiftIn → s.seq = .active ∧ t.seq = .active) ∧
      (i ≠ .sessionStart → i ≠ .sessionEnd → t.seq = s.seq)) ∧
    (Inv s → t.fault ≠ none → t.seq = s.seq)

/-! ## Transfers (41_transport R110-R120, 20_memory R71-R77) -/

/-- R110, R111, R54, R72: READ_REG of either address of a register sends its read command and returns the register as it
stood at the session's start. The ticks before it are log 8's. -/
def Obligations.ReadRegReads : Prop :=
  ∀ (r : RegName) (a : Byte) (s : State), a = r.writeAddr ∨ a = r.readAddr → Ready s → s.peer.attached = true →
    ∀ v, v = s.elapse.peer.regs.get r.idx →
    exec (.readReg a) s = .next ({ s.ended r.readAddr 1 v (readEvents r.readAddr v) with
      draws := s.elapse.draws
      peer := { s.peer.ended r.readAddr 1 s.elapse.peer.regs s.elapse.peer.regs with
                plevel := v.getLsbD 7 } }.completed (.byte v))

/-- R113, R114, R54, R73: WRITE_REG to either address of a register sends its write command and the byte, and the peer
takes it unless it is write-protected and the register is not CONTROL. -/
def Obligations.WriteRegWrites : Prop :=
  ∀ (r : RegName) (a d : Byte) (s : State), a = r.writeAddr ∨ a = r.readAddr → Ready s → s.peer.attached = true →
    exec (.writeReg a d) s = .next ({ s.ended r.writeAddr 1 d (writeEvents r.writeAddr d) with
      draws := s.elapse.draws
      peer := { s.peer.ended r.writeAddr 1 s.elapse.peer.regs (s.elapse.peer.regs.written r.idx d) with
                wbuf := s.peer.wbuf.set 0 d } }.completed .none)

/-- R91, R110, R113: each single-register command of the wire is READ_REG's or WRITE_REG's session of its register (log 3). The
ticks before it are log 8's. -/
def Obligations.WireCommands : Prop :=
  ∀ (s : State) (d : Byte), Ready s → s.peer.attached = true →
    (∀ p ∈ [(Instr.rdSeconds, RegName.seconds), (.rdMinutes, .minutes), (.rdHours, .hours), (.rdDate, .date),
        (.rdMonth, .month), (.rdDow, .dow), (.rdYear, .year), (.rdControl, .control), (.rdTrickle, .trickle)],
      ∀ v, v = s.elapse.peer.regs.get p.2.idx →
      exec p.1 s = .next ({ s.ended p.2.readAddr 1 v (readEvents p.2.readAddr v) with
        draws := s.elapse.draws
        peer := { s.peer.ended p.2.readAddr 1 s.elapse.peer.regs s.elapse.peer.regs with
                  plevel := v.getLsbD 7 } }.completed (.byte v))) ∧
    (∀ p ∈ [(Instr.wrSeconds d, RegName.seconds), (.wrMinutes d, .minutes), (.wrHours d, .hours), (.wrDate d, .date),
        (.wrMonth d, .month), (.wrDow d, .dow), (.wrYear d, .year), (.wrControl d, .control), (.wrTrickle d, .trickle)],
      exec p.1 s = .next ({ s.ended p.2.writeAddr 1 d (writeEvents p.2.writeAddr d) with
        draws := s.elapse.draws
        peer := { s.peer.ended p.2.writeAddr 1 s.elapse.peer.regs (s.elapse.peer.regs.written p.2.idx d) with
                  wbuf := s.peer.wbuf.set 0 d } }.completed .none))

/-- R116, R117, R119, R120, R71-R73, R91: BURST_READ, and BURST_RD on the wire, return the eight burst registers of one
snapshot; BURST_WRITE, and BURST_WR on the wire, write the eight burst registers at once, CONTROL included, unless the peer
is write-protected. The ticks before the session are log 8's. -/
def Obligations.BurstTransfers : Prop :=
  ∀ (s : State) (blk : Block), Ready s → s.peer.attached = true →
    (∀ i ∈ [Instr.burstRead, .burstRd], ∀ v, v = s.elapse.peer.regs.clock →
      exec i s = .next ({ s.ended 0xBF#8 8 v.control (burstReadEvents v) with
        buf := v
        draws := s.elapse.draws
        peer := { s.peer.ended 0xBF#8 8 s.elapse.peer.regs s.elapse.peer.regs with
                  plevel := v.control.getLsbD 7 } }.completed (.block v))) ∧
    (∀ i ∈ [Instr.burstWrite blk, .burstWr blk],
      exec i s = .next ({ s.ended 0xBE#8 8 blk.control (burstWriteEvents blk) with
        buf := blk
        draws := s.elapse.draws
        peer := { s.peer.ended 0xBE#8 8 s.elapse.peer.regs (s.elapse.peer.regs.burstWritten blk) with
                  wbuf := blk } }.completed .none))

/-- R116, whole: BURST_READ with any peer or none: its OPC, its check, its session of 381 events and 71 rising edges, and the
block it samples, which is left in buf and returned; a peer that passes no tick sends its registers 0..7. -/
def Obligations.BurstReadSession : Prop :=
  decode ⟨.blockOp, [0x07]⟩ = .instr .burstRead ∧
  (∀ s : State, s.fault = none → s.seq ≠ .idle → exec .burstRead s = .next { s with fault := some .sessionOpen }) ∧
  ∀ s : State, Ready s → ∃ (t : State) (blk : Block), exec .burstRead s = .next t ∧ t.fault = none ∧ t.seq = .idle ∧
    t.buf = blk ∧ t.results = s.results ++ [.block blk] ∧
    t.trace = s.trace ++ (startEvents ++ shiftOutEvents 0xBF#8 true ++
      (List.range 8).flatMap (fun k => shiftInEvents (blk.get k)) ++ endEvents) ∧
    t.trace.length = s.trace.length + 381 ∧ risingEdges s.clk (t.trace.drop s.trace.length) = 71 ∧
    (Quiet s → blk = s.peer.regs.clock)

/-- R119, whole: BURST_WRITE with any peer or none: its OPC, its check, its session of 446 events and 72 rising edges, and the
buffer; a peer that passes no tick and is not write-protected then holds the block. -/
def Obligations.BurstWriteSession : Prop :=
  ∀ blk : Block, decode ⟨.blockOp, 0x08 :: blk.words⟩ = .instr (.burstWrite blk) ∧
  (∀ s : State, s.fault = none → s.seq ≠ .idle → exec (.burstWrite blk) s = .next { s with fault := some .sessionOpen }) ∧
  ∀ s : State, Ready s → ∃ t : State, exec (.burstWrite blk) s = .next t ∧ t.fault = none ∧ t.seq = .idle ∧
    t.buf = blk ∧ t.results = s.results ++ [.none] ∧
    t.trace = s.trace ++ (startEvents ++ shiftOutEvents 0xBE#8 false ++
      (List.range 8).flatMap (fun k => shiftOutEvents (blk.get k) false) ++ endEvents) ∧
    t.trace.length = s.trace.length + 446 ∧ risingEdges s.clk (t.trace.drop s.trace.length) = 72 ∧
    (Quiet s → wpFlag s.peer.regs.clock.control = false → t.peer.regs.clock = blk)

/-- R77: with no peer every sampled bit is a fresh draw, writes have no effect on anything but the block's latches, and no
fault is raised; the wire commands' sessions are the transfers' own (log 3). -/
def Obligations.DisconnectedTransfers : Prop :=
  ∀ (s : State) (d : Byte) (blk : Block), Ready s → s.peer.attached = false →
    (∀ p ∈ [(Instr.rdSeconds, RegName.seconds), (.rdMinutes, .minutes), (.rdHours, .hours), (.rdDate, .date),
        (.rdMonth, .month), (.rdDow, .dow), (.rdYear, .year), (.rdControl, .control), (.rdTrickle, .trickle)],
      ∀ i ∈ [p.1, .readReg p.2.writeAddr, .readReg p.2.readAddr], ∀ v, v = undrivenByte s.draws →
      exec i s = .next ({ s.ended p.2.readAddr 1 v (readEvents p.2.readAddr v) with
        draws := s.draws + 8 }.completed (.byte v))) ∧
    (∀ p ∈ [(Instr.wrSeconds d, RegName.seconds), (.wrMinutes d, .minutes), (.wrHours d, .hours), (.wrDate d, .date),
        (.wrMonth d, .month), (.wrDow d, .dow), (.wrYear d, .year), (.wrControl d, .control), (.wrTrickle d, .trickle)],
      ∀ i ∈ [p.1, .writeReg p.2.writeAddr d, .writeReg p.2.readAddr d],
      exec i s = .next ((s.ended p.2.writeAddr 1 d (writeEvents p.2.writeAddr d)).completed .none)) ∧
    (∀ i ∈ [Instr.burstRead, .burstRd], ∀ v, v = undrivenBlock s.draws →
      exec i s = .next ({ s.ended 0xBF#8 8 v.control (burstReadEvents v) with
        buf := v, draws := s.draws + 64 }.completed (.block v))) ∧
    (∀ i ∈ [Instr.burstWrite blk, .burstWr blk],
      exec i s = .next ({ s.ended 0xBE#8 8 blk.control (burstWriteEvents blk) with buf := blk }.completed .none))

/-- R276, R114, R120, R73: while WP = 1 a raw write of any register but CONTROL, and a whole burst, change no register and
give no sign of it: the trace and the result are those of a write that is taken. -/
def Obligations.WriteProtectRefuses : Prop :=
  ∀ (s : State) (r : RegName) (d : Byte) (blk : Block), Ready s → Quiet s → s.peer.regs.clock.control.getLsbD 7 = true →
    (r ≠ .control → ∃ t, exec (.writeReg r.writeAddr d) s = .next t ∧ t.fault = none ∧ t.peer.regs = s.peer.regs ∧
      t.trace = s.trace ++ writeEvents r.writeAddr d ∧ t.results = s.results ++ [.none]) ∧
    (∃ t, exec (.burstWrite blk) s = .next t ∧ t.fault = none ∧ t.peer.regs = s.peer.regs ∧
      t.trace = s.trace ++ burstWriteEvents blk ∧ t.results = s.results ++ [.none]) ∧
    ∃ t, exec (.writeReg 0x8E#8 d) s = .next t ∧ t.fault = none ∧ t.peer.regs.clock = { s.peer.regs.clock with control := d } ∧
      t.peer.regs.trickle = s.peer.regs.trickle

/-- R100-R119, R281: the event counts, edges and sums of minimum delays of the sessions. -/
def Obligations.EventCountsAndDurations : Prop :=
  ∀ (b c d : Byte) (blk : Block),
    (startEvents.length = 3 ∧ endEvents.length = 2 ∧ (shiftOutEvents b false).length = 49 ∧
      (shiftOutEvents b true).length = 48 ∧ (shiftInEvents b).length = 41 ∧ (readEvents c d).length = 94 ∧
      (writeEvents c d).length = 103 ∧ (burstReadEvents blk).length = 381 ∧ (burstWriteEvents blk).length = 446) ∧
    (risingEdges low (shiftOutEvents b false) = 8 ∧ fallingEdges low (shiftOutEvents b false) = 8 ∧
      risingEdges low (shiftOutEvents b true) = 8 ∧ fallingEdges low (shiftOutEvents b true) = 7 ∧
      risingEdges high (shiftInEvents b) = 7 ∧ fallingEdges high (shiftInEvents b) = 8 ∧
      risingEdges low (shiftInEvents b) = 8 ∧ fallingEdges low (shiftInEvents b) = 8) ∧
    (minDuration startEvents = 4 ∧ minDuration endEvents = 4 ∧ minDuration (shiftOutEvents b false) = 24 ∧
      minDuration (shiftOutEvents b true) = 23 ∧ minDuration (shiftInEvents b) = 16 ∧ minDuration (readEvents c d) = 47 ∧
      minDuration (writeEvents c d) = 56 ∧ minDuration (burstReadEvents blk) = 159 ∧
      minDuration (burstWriteEvents blk) = 224)

/-! ## BCD codec (42_bcd) -/

/-- R140, whole: BCD_DECODE's OPC and operands, and its exact result, never above 165; nothing but hpc and the results changes. -/
def Obligations.BcdDecodeExact : Prop :=
  ∀ (h l : Nibble) (s : State), s.fault = none →
    decode ⟨.blockOp, [0x10, h.toNat, l.toNat]⟩ = .instr (.bcdDecode h l) ∧
    ∃ v : Byte, v.toNat = h.toNat * 10 + l.toNat ∧ v.toNat ≤ 165 ∧
      exec (.bcdDecode h l) s = .next (s.completed (.byte v))

/-- R141-R143, R144 item 3, R146, R95: the two digits of a byte; BCD_PACK places the units digit in bits 3..0 and the low w
bits of the tens digit from bit 4, and no other bit, so that a value whose tens digit fits comes back from its byte; a width
outside 1..4 is refused (log 22). -/
def Obligations.BcdEncoders : Prop :=
  ∀ (v : Byte) (w : Nat) (s : State), s.fault = none →
    (∃ h : Byte, h.toNat = v.toNat / 10 ∧ exec (.bcdEncHigh v) s = .next (s.completed (.byte h))) ∧
    (∃ l : Nibble, l.toNat = v.toNat % 10 ∧ exec (.bcdEncLow v) s = .next (s.completed (.digit l))) ∧
    (1 ≤ w → w ≤ 4 → ∃ b : Byte, b.toNat = v.toNat / 10 % 2 ^ w * 16 + v.toNat % 10 ∧
      exec (.bcdPack v w) s = .next (s.completed (.byte b)) ∧
      (v.toNat / 10 < 2 ^ w → unpack b w = v.toNat ∧ digits b w = v.toNat)) ∧
    (¬(1 ≤ w ∧ w ≤ 4) → exec (.bcdPack v w) s = .refused .operandOutsideType)

/-! ## Register-map codec (43_register_map) -/

/-- R161, R162, R164-R168, R160: the single-field decoders read the bits of their fields and nothing else. -/
def Obligations.FieldDecoders : Prop :=
  ∀ (b : Byte) (s : State), s.fault = none →
    (∃ v : Byte, v.toNat = digits b 3 ∧ exec (.decSeconds b) s = .next (s.completed (.seconds v (b.getLsbD 7)))) ∧
    (∃ v : Byte, v.toNat = digits b 3 ∧ exec (.decMinutes b) s = .next (s.completed (.byte v))) ∧
    (∃ v : Byte, v.toNat = digits b 2 ∧ exec (.decDate b) s = .next (s.completed (.byte v))) ∧
    (∃ v : Byte, v.toNat = digits b 1 ∧ exec (.decMonth b) s = .next (s.completed (.byte v))) ∧
    (∃ v : Byte, v.toNat = b.toNat % 8 ∧ exec (.decDow b) s = .next (s.completed (.byte v))) ∧
    exec (.decYear b) s = .next (s.completed (.year (2000 + digits b 4))) ∧
    exec (.decControl b) s = .next (s.completed (.flag (b.getLsbD 7)))

/-- R163, R170, R171: DEC_HOURS gives the mode, PM in the 12-hour layout only, the mode-selected hour, and the 24-hour reading
whatever the mode. -/
def Obligations.HoursDecoder : Prop :=
  ∀ (b : Byte) (s : State), s.fault = none → ∃ hour view : Byte, view.toNat = digits b 2 ∧
    (b.getLsbD 7 = true → hour.toNat = digits b 1 ∧
      exec (.decHours b) s = .next (s.completed (.hours true (b.getLsbD 5) hour view))) ∧
    (b.getLsbD 7 = false → hour = view ∧ exec (.decHours b) s = .next (s.completed (.hours false false hour view)))

/-- R169, whole: DEC_BLOCK's OPC and operand, and its results, each field from its byte; the hour is the 24-hour reading. -/
def Obligations.BlockDecoder : Prop :=
  ∀ (blk : Block) (s : State), s.fault = none →
    decode ⟨.blockOp, 0x28 :: blk.words⟩ = .instr (.decBlock blk) ∧
    ∃ (ts : Timestamp) (hour12 : Byte), ts.second.toNat = digits blk.seconds 3 ∧ ts.minute.toNat = digits blk.minutes 3 ∧
      ts.hour.toNat = digits blk.hours 2 ∧ ts.day.toNat = digits blk.date 2 ∧ ts.month.toNat = digits blk.month 1 ∧
      ts.dow.toNat = blk.dow.toNat % 8 ∧ ts.year = 2000 + digits blk.year 4 ∧
      hour12.toNat = (if blk.hours.getLsbD 7 then digits blk.hours 1 else digits blk.hours 2) ∧
      exec (.decBlock blk) s = .next (s.completed (.decoded ts (blk.seconds.getLsbD 7) (blk.hours.getLsbD 7)
        (blk.hours.getLsbD 7 && blk.hours.getLsbD 5) hour12 (blk.control.getLsbD 7)))

/-- R180-R186, R188: the single-field encoders: the digits in their fields, every other bit 0. -/
def Obligations.FieldEncoders : Prop :=
  ∀ (v : Byte) (s : State), s.fault = none →
    exec (.encSeconds v) s = .next (s.completed (.byte (packed v 3))) ∧
    exec (.encMinutes v) s = .next (s.completed (.byte (packed v 3))) ∧
    exec (.encHours24 v) s = .next (s.completed (.byte (packed v 2))) ∧
    exec (.encDate v) s = .next (s.completed (.byte (packed v 2))) ∧
    exec (.encMonth v) s = .next (s.completed (.byte (packed v 1))) ∧
    exec (.encDow v) s = .next (s.completed (.byte (v &&& 0x07#8))) ∧
    exec .encControl s = .next (s.completed (.byte 0x00#8)) ∧
    (packed v 3).getLsbD 7 = false ∧ (packed v 2).getLsbD 7 = false ∧ (packed v 2).getLsbD 6 = false ∧
    (packed v 1).toNat < 32

/-- R187: ENC_YEAR packs the offset of a year in 2000..2099 whole; for any other year it returns the next draw, a byte under
no law, and the draw is used up (log 10). -/
def Obligations.YearEncoder : Prop :=
  ∀ (year : Nat) (s : State), s.fault = none →
    (2000 ≤ year → year ≤ 2099 → ∃ b : Byte, b.toNat = (year - 2000) / 10 * 16 + (year - 2000) % 10 ∧
      exec (.encYear year) s = .next (s.completed (.byte b))) ∧
    (year < 2000 ∨ 2099 < year →
      exec (.encYear year) s = .next ({ s with draws := s.draws + 1 }.completed (.byte (Config.yearByte s.draws))))

/-- R189, whole: ENC_BLOCK builds the block field by field, CONTROL as 0x00; ENC_YEAR's byte may be a draw. -/
def Obligations.BlockEncoder : Prop :=
  ∀ (ts : Timestamp) (s : State), s.fault = none →
    decode ⟨.blockOp, 0x38 :: ts.words⟩ = .instr (.encBlock ts) ∧
    ∃ (y : Byte) (n : Nat), exec (.encYear ts.year) s = .next ({ s with draws := n }.completed (.byte y)) ∧
      exec (.encBlock ts) s = .next ({ s with draws := n }.completed (.block
        ⟨packed ts.second 3, packed ts.minute 3, packed ts.hour 2, packed ts.day 2, packed ts.month 1, ts.dow &&& 0x07#8, y,
          0x00#8⟩))

/-- R190, R191: the merges keep the fields the setter does not touch, clear CH and MODE12 in the bytes a date merge keeps, and
set CONTROL to 0x00; a date merge keeps the 24-hour reading of the hours byte. -/
def Obligations.MergesKeepTheRest : Prop :=
  ∀ (blk : Block) (year : Nat) (month day dow hour minute second : Byte) (s : State), s.fault = none →
    (∃ (y : Byte) (n : Nat), exec (.encYear year) s = .next ({ s with draws := n }.completed (.byte y)) ∧
      exec (.mergeDate blk year month day dow) s = .next ({ s with draws := n }.completed (.block
        ⟨blk.seconds &&& 0x7F#8, blk.minutes, blk.hours &&& 0x7F#8, packed day 2, packed month 1, dow &&& 0x07#8, y, 0x00#8⟩))) ∧
    exec (.mergeTime blk hour minute second) s = .next (s.completed (.block
      ⟨packed second 3, packed minute 3, packed hour 2, blk.date, blk.month, blk.dow, blk.year, 0x00#8⟩)) ∧
    digits (blk.hours &&& 0x7F#8) 2 = digits blk.hours 2 ∧ digits (blk.seconds &&& 0x7F#8) 3 = digits blk.seconds 3

/-- R192: every timestamp in R38's ranges comes back from the block it is encoded in, with every flag clear. -/
def Obligations.BlockRoundTrip : Prop :=
  ∀ (ts : Timestamp) (s : State), InRange ts → s.fault = none → ∃ blk : Block,
    exec (.encBlock ts) s = .next (s.completed (.block blk)) ∧
    ∀ u : State, u.fault = none → exec (.decBlock blk) u = .next (u.completed (.decoded ts false false false ts.hour false))

/-! ## Sequences (44_sequences) -/

/-- R201, R202: CLEAR_WP writes 0x00 to CONTROL whatever WP is, and INITIALIZE then writes 0x00 to TRICKLE and returns true. -/
def Obligations.ClearWpAndInitialize : Prop :=
  ∀ s : State, Ready s → Quiet s →
    exec .clearWp s = .next ({ s.ended 0x8E#8 1 0#8 (writeEvents 0x8E#8 0#8) with
      peer := { s.peer.ended 0x8E#8 1 s.peer.regs ⟨{ s.peer.regs.clock with control := 0#8 }, s.peer.regs.trickle⟩ with
                wbuf := s.peer.wbuf.set 0 0#8 } }.completed .none) ∧
    exec .initChip s = .next ({ s.ended 0x90#8 1 0#8 (writeEvents 0x8E#8 0#8 ++ writeEvents 0x90#8 0#8) with
      peer := { s.peer.ended 0x90#8 1 ⟨{ s.peer.regs.clock with control := 0#8 }, s.peer.regs.trickle⟩
                  ⟨{ s.peer.regs.clock with control := 0#8 }, 0#8⟩ with
                wbuf := s.peer.wbuf.set 0 0#8 } }.completed (.flag true))

/-- R203-R210, R170: each single-field getter is one read session of its register, and returns its field; with an attached
peer the byte is the register's, with the ticks before it log 8's. -/
def Obligations.FieldGetters : Prop :=
  ∀ s : State, Ready s → s.peer.attached = true →
    ∀ p ∈ [(Instr.getSecond, RegName.seconds, fun b => Result.byte (BitVec.ofNat 8 (digits b 3))),
      (.getMinute, .minutes, fun b => .byte (BitVec.ofNat 8 (digits b 3))),
      (.getHour, .hours, fun b => .byte (BitVec.ofNat 8 (digits b 2))),
      (.getDay, .date, fun b => .byte (BitVec.ofNat 8 (digits b 2))),
      (.getMonth, .month, fun b => .byte (BitVec.ofNat 8 (digits b 1))),
      (.getDow, .dow, fun b => .byte (b &&& 0x07#8)),
      (.getYear, .year, fun b => .year (2000 + digits b 4))],
    ∀ v, v = s.elapse.peer.regs.get p.2.1.idx →
    exec p.1 s = .next ({ s.ended p.2.1.readAddr 1 v (readEvents p.2.1.readAddr v) with
      draws := s.elapse.draws
      peer := { s.peer.ended p.2.1.readAddr 1 s.elapse.peer.regs s.elapse.peer.regs with
                plevel := v.getLsbD 7 } }.completed (p.2.2 v))

/-- R205, R208, R209 and R210, whole: these getters' OPCs, expansions and results with any peer or none: one session of the
read command, and the decoded byte. A peer that passes no tick sends its register. -/
def Obligations.GettersReadOneRegister : Prop :=
  ∀ p ∈ [(0x43, Instr.getMinute, 0x83#8, 1, fun b => Result.byte (BitVec.ofNat 8 (digits b 3))),
      (0x46, .getMonth, 0x89#8, 4, fun b => .byte (BitVec.ofNat 8 (digits b 1))),
      (0x47, .getDow, 0x8B#8, 5, fun b => .byte (b &&& 0x07#8)),
      (0x48, .getYear, 0x8D#8, 6, fun b => .year (2000 + digits b 4))],
    decode ⟨.blockOp, [p.1]⟩ = .instr p.2.1 ∧
    ∀ s : State, Ready s → ∃ (t : State) (d : Byte), exec p.2.1 s = .next t ∧ t.fault = none ∧
      t.trace = s.trace ++ readEvents p.2.2.1 d ∧ t.results = s.results ++ [p.2.2.2.2 d] ∧ t.buf = s.buf ∧
      (Quiet s → d = s.peer.regs.get p.2.2.2.1 ∧ t.peer.regs = s.peer.regs)

/-- R211-R214, R170: each block getter is one burst read, and returns its fields of the snapshot; the hour is the 24-hour
reading. -/
def Obligations.BlockGetters : Prop :=
  ∀ s : State, Ready s → s.peer.attached = true → ∃ ts : Timestamp,
    ts.second.toNat = digits s.elapse.peer.regs.clock.seconds 3 ∧ ts.minute.toNat = digits s.elapse.peer.regs.clock.minutes 3 ∧
    ts.hour.toNat = digits s.elapse.peer.regs.clock.hours 2 ∧ ts.day.toNat = digits s.elapse.peer.regs.clock.date 2 ∧
    ts.month.toNat = digits s.elapse.peer.regs.clock.month 1 ∧ ts.dow.toNat = s.elapse.peer.regs.clock.dow.toNat % 8 ∧
    ts.year = 2000 + digits s.elapse.peer.regs.clock.year 4 ∧
    ∀ p ∈ [(Instr.getFull, Result.timestamp ts), (.getDateOnly, .date ts.year ts.month ts.day ts.dow),
      (.getTimeOnly, .time ts.hour ts.minute ts.second)],
    exec p.1 s = .next ({ s.ended 0xBF#8 8 s.elapse.peer.regs.clock.control (burstReadEvents s.elapse.peer.regs.clock) with
      buf := s.elapse.peer.regs.clock
      draws := s.elapse.draws
      peer := { s.peer.ended 0xBF#8 8 s.elapse.peer.regs s.elapse.peer.regs with
                plevel := s.elapse.peer.regs.clock.control.getLsbD 7 } }.completed p.2)

/-- R203, R204, R206, R207, R211-R214, R77, R170: with any peer or none a getter sends its one session and returns the
decoded fields of the bytes it sampled, unchecked; a block getter leaves them in buf. -/
def Obligations.GettersWithAnyPeer : Prop :=
  ∀ s : State, Ready s →
    (∀ p ∈ [(Instr.getSecond, 0x81#8, 3), (.getHour, 0x85#8, 2), (.getDay, 0x87#8, 2)],
      ∃ (t : State) (d v : Byte), exec p.1 s = .next t ∧ Ready t ∧ t.trace = s.trace ++ readEvents p.2.1 d ∧
        v.toNat = digits d p.2.2 ∧ t.results = s.results ++ [.byte v] ∧ t.buf = s.buf) ∧
    ∃ (blk : Block) (ts : Timestamp),
      ts.second.toNat = digits blk.seconds 3 ∧ ts.minute.toNat = digits blk.minutes 3 ∧ ts.hour.toNat = digits blk.hours 2 ∧
      ts.day.toNat = digits blk.date 2 ∧ ts.month.toNat = digits blk.month 1 ∧ ts.dow.toNat = blk.dow.toNat % 8 ∧
      ts.year = 2000 + digits blk.year 4 ∧
      ∀ p ∈ [(Instr.getFull, Result.timestamp ts), (.getDateOnly, .date ts.year ts.month ts.day ts.dow),
        (.getTimeOnly, .time ts.hour ts.minute ts.second)],
      ∃ t : State, exec p.1 s = .next t ∧ Ready t ∧ t.trace = s.trace ++ burstReadEvents blk ∧ t.buf = blk ∧
        t.results = s.results ++ [p.2]

/-- R215-R221, R223: each single-field setter with a u8 operand is CLEAR_WP and one write of its register; on a peer that
passes no tick it writes that register and CONTROL, whatever WP was, and no other. -/
def Obligations.FieldSetters : Prop :=
  ∀ (s : State) (v : Byte), Ready s → Quiet s →
    ∀ p ∈ [(Instr.setSecond v, RegName.seconds, packed v 3), (.setMinute v, .minutes, packed v 3),
      (.setHour v, .hours, packed v 2), (.setDay v, .date, packed v 2), (.setMonth v, .month, packed v 1),
      (.setDow v, .dow, v &&& 0x07#8)],
    exec p.1 s = .next ({ s.ended p.2.1.writeAddr 1 p.2.2 (writeEvents 0x8E#8 0#8 ++ writeEvents p.2.1.writeAddr p.2.2) with
      peer := { s.peer.ended p.2.1.writeAddr 1 (s.peer.regs.set 7 0#8) ((s.peer.regs.set 7 0#8).set p.2.1.idx p.2.2) with
                wbuf := s.peer.wbuf.set 0 p.2.2 } }.completed .none)

/-- R222, R187: SET_YEAR writes the packed offset of a year in 2000..2099, and a drawn byte for any other year (log 10). -/
def Obligations.YearSetter : Prop :=
  ∀ (s : State) (year : Nat), Ready s → Quiet s → ∃ (b : Byte) (n : Nat),
    (2000 ≤ year ∧ year ≤ 2099 → b.toNat = (year - 2000) / 10 * 16 + (year - 2000) % 10 ∧ n = s.draws) ∧
    (¬(2000 ≤ year ∧ year ≤ 2099) → b = Config.yearByte s.draws ∧ n = s.draws + 1) ∧
    exec (.setYear year) s = .next ({ s.ended 0x8C#8 1 b (writeEvents 0x8E#8 0#8 ++ writeEvents 0x8C#8 b) with
      draws := n
      peer := { s.peer.ended 0x8C#8 1 (s.peer.regs.set 7 0#8) ((s.peer.regs.set 7 0#8).set 6 b) with
                wbuf := s.peer.wbuf.set 0 b } }.completed .none)

/-- R224, R189, R187: SET_FULL clears WP and burst-writes the encoded block; CH, MODE12 and CONTROL are always cleared. -/
def Obligations.FullSetter : Prop :=
  ∀ (s : State) (ts : Timestamp), Ready s → Quiet s → ∃ (b : Byte) (n : Nat),
    (2000 ≤ ts.year ∧ ts.year ≤ 2099 → b.toNat = (ts.year - 2000) / 10 * 16 + (ts.year - 2000) % 10 ∧ n = s.draws) ∧
    (¬(2000 ≤ ts.year ∧ ts.year ≤ 2099) → b = Config.yearByte s.draws ∧ n = s.draws + 1) ∧
    ∀ blk : Block, blk = ⟨packed ts.second 3, packed ts.minute 3, packed ts.hour 2, packed ts.day 2, packed ts.month 1,
      ts.dow &&& 0x07#8, b, 0#8⟩ →
    exec (.setFull ts) s = .next ({ s.ended 0xBE#8 8 0#8 (writeEvents 0x8E#8 0#8 ++ burstWriteEvents blk) with
      buf := blk
      draws := n
      peer := { s.peer.ended 0xBE#8 8 (s.peer.regs.set 7 0#8) ⟨blk, s.peer.regs.trickle⟩ with
                wbuf := blk } }.completed .none)

/-- R225, R226, R190, R191, R187: the block setters that merge clear WP, read the block and write it back. SET_DATE_ONLY keeps
the time bytes but for CH and MODE12, which it clears; SET_TIME_ONLY keeps the date bytes whole. -/
def Obligations.MergeSetters : Prop :=
  ∀ (s : State) (year : Nat) (month day dow hour minute second : Byte), Ready s → Quiet s →
    (∃ (b : Byte) (n : Nat),
      (2000 ≤ year ∧ year ≤ 2099 → b.toNat = (year - 2000) / 10 * 16 + (year - 2000) % 10 ∧ n = s.draws) ∧
      (¬(2000 ≤ year ∧ year ≤ 2099) → b = Config.yearByte s.draws ∧ n = s.draws + 1) ∧
      ∀ blk : Block, blk = ⟨s.peer.regs.clock.seconds &&& 0x7F#8, s.peer.regs.clock.minutes,
        s.peer.regs.clock.hours &&& 0x7F#8, packed day 2, packed month 1, dow &&& 0x07#8, b, 0#8⟩ →
      exec (.setDateOnly year month day dow) s = .next ({ s.ended 0xBE#8 8 0#8 (writeEvents 0x8E#8 0#8 ++
          burstReadEvents { s.peer.regs.clock with control := 0#8 } ++ burstWriteEvents blk) with
        buf := blk
        draws := n
        peer := { s.peer.ended 0xBE#8 8 (s.peer.regs.set 7 0#8) ⟨blk, s.peer.regs.trickle⟩ with
                  wbuf := blk, plevel := low } }.completed .none)) ∧
    ∀ blk : Block, blk = ⟨packed second 3, packed minute 3, packed hour 2, s.peer.regs.clock.date, s.peer.regs.clock.month,
      s.peer.regs.clock.dow, s.peer.regs.clock.year, 0#8⟩ →
    exec (.setTimeOnly hour minute second) s = .next ({ s.ended 0xBE#8 8 0#8 (writeEvents 0x8E#8 0#8 ++
        burstReadEvents { s.peer.regs.clock with control := 0#8 } ++ burstWriteEvents blk) with
      buf := blk
      peer := { s.peer.ended 0xBE#8 8 (s.peer.regs.set 7 0#8) ⟨blk, s.peer.regs.trickle⟩ with
                wbuf := blk, plevel := low } }.completed .none)

/-- R200, R202, R215-R226, R190, R191, R227 items 1 and 2, R108, R275: every setter completes with any peer or none. Its first
session sends 0x8E and 0x00; a single-field setter then sends its register's command and the encoded field, SET_FULL the
encoded block, and SET_DATE_ONLY and SET_TIME_ONLY the merge of the block they have just sampled. INITIALIZE returns true.
An attached peer is left with what its last session wrote over the registers it found then, whatever ticked between the
sessions. A year outside 2000..2099 sends a drawn byte (log 10); the registers found are those after log 8's ticks. -/
def Obligations.SettersClearWriteProtectFirst : Prop :=
  ∀ (s : State) (v : Byte) (year : Nat) (month day dow hour minute : Byte) (ts : Timestamp), Ready s →
    (∀ p ∈ [(Instr.setSecond v, RegName.seconds, packed v 3), (.setMinute v, .minutes, packed v 3),
        (.setHour v, .hours, packed v 2), (.setDay v, .date, packed v 2), (.setMonth v, .month, packed v 1),
        (.setDow v, .dow, v &&& 0x07#8)],
      ∃ t : State, exec p.1 s = .next t ∧ Ready t ∧ t.results = s.results ++ [.none] ∧ t.buf = s.buf ∧
        t.trace = s.trace ++ (writeEvents 0x8E#8 0#8 ++ writeEvents p.2.1.writeAddr p.2.2) ∧
        (s.peer.attached = true → t.peer.regs = t.peer.snap.written p.2.1.idx p.2.2)) ∧
    (∃ (t : State) (b : Byte), exec (.setYear year) s = .next t ∧ Ready t ∧ t.results = s.results ++ [.none] ∧ t.buf = s.buf ∧
      YearByte year s.draws t.draws b ∧ t.trace = s.trace ++ (writeEvents 0x8E#8 0#8 ++ writeEvents 0x8C#8 b) ∧
      (s.peer.attached = true → t.peer.regs = t.peer.snap.written 6 b)) ∧
    (∃ t : State, exec .initChip s = .next t ∧ Ready t ∧ t.results = s.results ++ [.flag true] ∧
      t.trace = s.trace ++ (writeEvents 0x8E#8 0#8 ++ writeEvents 0x90#8 0#8) ∧
      (s.peer.attached = true → t.peer.regs = t.peer.snap.written 8 0#8)) ∧
    (∃ (t : State) (b : Byte) (blk : Block), exec (.setFull ts) s = .next t ∧ Ready t ∧ t.results = s.results ++ [.none] ∧
      YearByte ts.year s.draws t.draws b ∧
      blk = ⟨packed ts.second 3, packed ts.minute 3, packed ts.hour 2, packed ts.day 2, packed ts.month 1, ts.dow &&& 0x07#8, b,
        0#8⟩ ∧
      t.trace = s.trace ++ (writeEvents 0x8E#8 0#8 ++ burstWriteEvents blk) ∧ t.buf = blk ∧
      (s.peer.attached = true → t.peer.regs = t.peer.snap.burstWritten blk)) ∧
    (∃ (t : State) (b : Byte) (read blk : Block), exec (.setDateOnly year month day dow) s = .next t ∧ Ready t ∧
      t.results = s.results ++ [.none] ∧ YearByte year s.draws t.draws b ∧
      blk = ⟨read.seconds &&& 0x7F#8, read.minutes, read.hours &&& 0x7F#8, packed day 2, packed month 1, dow &&& 0x07#8, b,
        0#8⟩ ∧
      t.trace = s.trace ++ (writeEvents 0x8E#8 0#8 ++ burstReadEvents read ++ burstWriteEvents blk) ∧ t.buf = blk ∧
      (s.peer.attached = true → t.peer.regs = t.peer.snap.burstWritten blk)) ∧
    ∃ (t : State) (read blk : Block), exec (.setTimeOnly hour minute v) s = .next t ∧ Ready t ∧
      t.results = s.results ++ [.none] ∧
      blk = ⟨packed v 3, packed minute 3, packed hour 2, read.date, read.month, read.dow, read.year, 0#8⟩ ∧
      t.trace = s.trace ++ (writeEvents 0x8E#8 0#8 ++ burstReadEvents read ++ burstWriteEvents blk) ∧ t.buf = blk ∧
      (s.peer.attached = true → t.peer.regs = t.peer.snap.burstWritten blk)

/-- R100, R108, R253: on a ready block every operation that opens and closes its own session completes with any peer or none
and leaves the block ready. -/
def Obligations.OperationsComplete : Prop :=
  ∀ (i : Instr) (s : State), opensSession i = true → i ≠ .sessionStart → Ready s →
    ∃ (t : State) (r : Result), exec i s = .next t ∧ Ready t ∧ t.hpc = s.hpc + 1 ∧ t.results = s.results ++ [r]

/-- R227 item 4, R192: on the zero-tick peer, SET_FULL of a timestamp in R38's ranges and then GET_FULL return it. -/
def Obligations.SetFullThenGetFull : Prop :=
  ∀ (s : State) (ts : Timestamp), Ready s → s.peer.kind = .still → InRange ts →
    ∃ t u : State, exec (.setFull ts) s = .next t ∧ exec .getFull t = .next u ∧ u.results = t.results ++ [.timestamp ts]

/-- R225, R190: on the zero-tick peer, SET_DATE_ONLY changes the date that GET_DATE_ONLY returns and leaves what
GET_TIME_ONLY returns as it was, whatever bytes the chip held. -/
def Obligations.DateSetterKeepsTime : Prop :=
  ∀ (s : State) (year : Nat) (month day dow : Byte), Ready s → s.peer.kind = .still → 2000 ≤ year → year ≤ 2099 →
    1 ≤ month.toNat → month.toNat ≤ 12 → 1 ≤ day.toNat → day.toNat ≤ 31 → 1 ≤ dow.toNat → dow.toNat ≤ 7 →
    ∃ (t u v w : State) (r : Result), exec .getTimeOnly s = .next t ∧ t.results = s.results ++ [r] ∧
      exec (.setDateOnly year month day dow) s = .next u ∧
      exec .getTimeOnly u = .next v ∧ v.results = u.results ++ [r] ∧
      exec .getDateOnly v = .next w ∧ w.results = v.results ++ [.date year month day dow]

/-- R264, R202, R224: on the zero-tick peer, INITIALIZE and SET_FULL leave a chip whose registers do not depend on what it
held: the encoded block, and TRICKLE zero. -/
def Obligations.KnownChipState : Prop :=
  ∀ (s : State) (ts : Timestamp), Ready s → s.peer.kind = .still → InRange ts →
    ∃ t u : State, exec .initChip s = .next t ∧ exec (.setFull ts) t = .next u ∧
      u.peer.regs = ⟨⟨packed ts.second 3, packed ts.minute 3, packed ts.hour 2, packed ts.day 2, packed ts.month 1, ts.dow,
        packed (BitVec.ofNat 8 (ts.year - 2000)) 4, 0#8⟩, 0#8⟩

/-! ## Invariants (10_state R33, 70 R270-R274) and reset (70 R260-R263) -/

/-- R33 items 1 to 3, R25, R26, R71-R75: every step keeps the invariant of the session's latches and the attached peer. -/
def Obligations.StepKeepsInv : Prop := ∀ s t : State, Inv s → step s = .next t → Inv t

/-- R107, R270-R274, R277, R33 item 2, R93: every step keeps the wire discipline of Wire.next: no CLK event outside a session,
every bit's events in their order with the delays the rules name, the hand-off of every read command and of nothing else, a
session ended only once it is whole, and no command byte outside R91. The invariant is O56's. -/
def Obligations.StepKeepsDiscipline : Prop :=
  ∀ s t : State, Inv s → Disciplined s → step s = .next t → Disciplined t

/-- R241 row 13, R107 item 5, R75: with the reference peer and admitted operations, F_CONTENTION is never raised, and the
block and the peer never drive the line together. -/
def Obligations.NoContention : Prop :=
  ∀ s t : State, Inv s → step s = .next t → (t.fault = some .contention → s.fault = some .contention) ∧
    ¬(t.iodir = .out ∧ t.peer.driving = true)

/-- R260, R261, R262, R33, R263: reset leaves the fields the spec gives a value for at that value, the invariant and the wire
discipline hold there, and the block is ready. -/
def Obligations.ResetState : Prop :=
  (State.reset.seq = .idle ∧ State.reset.ce = low ∧ State.reset.clk = low ∧ State.reset.iodir = .inp ∧
    State.reset.rel = false ∧ State.reset.cmdValid = false ∧ State.reset.nbytes = 0 ∧ State.reset.fault = none ∧
    State.reset.trace = [] ∧ State.reset.hpc = 0 ∧ State.reset.peer.pstate = .off ∧ State.reset.peer.pdrive = false) ∧
  Inv State.reset ∧ Disciplined State.reset ∧ Ready State.reset

/-- R260, R262, R246, R49: block reset from any state clears the fault and the latches, empties the trace, and keeps the
chip's battery-backed registers; the block is then ready wherever its pins return. That the program starts again with no
results, and what the unspecified latches hold, is log 20's and log 12's. -/
def Obligations.BlockReset : Prop :=
  ∀ s : State, s.blockReset.seq = .idle ∧ s.blockReset.ce = low ∧ s.blockReset.clk = low ∧ s.blockReset.iodir = .inp ∧
    s.blockReset.rel = false ∧ s.blockReset.cmdValid = false ∧ s.blockReset.nbytes = 0 ∧ s.blockReset.fault = none ∧
    s.blockReset.trace = [] ∧ s.blockReset.hpc = 0 ∧ s.blockReset.program = s.program ∧ s.blockReset.platform = s.platform ∧
    s.blockReset.peer.regs = s.peer.regs ∧ s.blockReset.peer.pstate = .off ∧ s.blockReset.peer.pdrive = false ∧
    (s.platform.pinsReturn = true → Ready s.blockReset)

end
end

