-- ==== Sys2Proof/Laws/Peer.lean ====
section
/-! SUPPORT. Bits of a byte, bytes of a block, and what eight clock pulses do to the peer (20_memory R70-R73). -/

namespace Sys2Proof

theorem getLsbD_setBit (v : Byte) (i j : Nat) (l : Bool) (hi : i < 8) :
    (setBit v i l).getLsbD j = if j = i then l else v.getLsbD j := by
  unfold setBit
  by_cases hj : j < 8
  · cases l <;> by_cases h : j = i <;> simp [h, hi, hj] <;> omega
  · have : j ≠ i := by omega
    simp [this, BitVec.getLsbD_of_ge _ _ (Nat.le_of_not_lt hj)]

/-- Writing all eight bits of a byte gives the byte, whatever was there (R53). -/
theorem setBit_all (v b : Byte) :
    setBit (setBit (setBit (setBit (setBit (setBit (setBit (setBit v 0 (bitAt b 0)) 1 (bitAt b 1)) 2 (bitAt b 2)) 3 (bitAt b 3))
      4 (bitAt b 4)) 5 (bitAt b 5)) 6 (bitAt b 6)) 7 (bitAt b 7) = b := by
  apply BitVec.eq_of_getLsbD_eq
  intro j hj
  have : j = 0 ∨ j = 1 ∨ j = 2 ∨ j = 3 ∨ j = 4 ∨ j = 5 ∨ j = 6 ∨ j = 7 := by omega
  rcases this with h | h | h | h | h | h | h | h <;> subst h <;>
    simp only [getLsbD_setBit _ _ _ _ (by decide : (0 : Nat) < 8), getLsbD_setBit _ _ _ _ (by decide : (1 : Nat) < 8),
      getLsbD_setBit _ _ _ _ (by decide : (2 : Nat) < 8), getLsbD_setBit _ _ _ _ (by decide : (3 : Nat) < 8),
      getLsbD_setBit _ _ _ _ (by decide : (4 : Nat) < 8), getLsbD_setBit _ _ _ _ (by decide : (5 : Nat) < 8),
      getLsbD_setBit _ _ _ _ (by decide : (6 : Nat) < 8), getLsbD_setBit _ _ _ _ (by decide : (7 : Nat) < 8), bitAt] <;> simp

/-- The first n bits of `b` written over `v`, least significant first. -/
def setBits (v b : Byte) : Nat → Byte
  | 0 => v
  | n + 1 => setBit (setBits v b n) n (bitAt b n)

theorem setBits_all (v b : Byte) : setBits v b 8 = b := by
  simp only [setBits]
  exact setBit_all v b

theorem Block.get_set (b : Block) (j k : Nat) (v : Byte) (hk : k < 8) :
    (b.set k v).get j = if j = k then v else b.get j := by
  have : k = 0 ∨ k = 1 ∨ k = 2 ∨ k = 3 ∨ k = 4 ∨ k = 5 ∨ k = 6 ∨ k = 7 := by omega
  rcases this with h | h | h | h | h | h | h | h <;> subst h <;>
    (unfold Block.get Block.set; split <;> simp_all)

theorem Block.ext_get {a b : Block} (h : ∀ k < 8, a.get k = b.get k) : a = b := by
  cases a; cases b
  have h0 := h 0 (by decide); have h1 := h 1 (by decide); have h2 := h 2 (by decide); have h3 := h 3 (by decide)
  have h4 := h 4 (by decide); have h5 := h 5 (by decide); have h6 := h 6 (by decide); have h7 := h 7 (by decide)
  simp only [Block.get] at *
  simp [*]

@[simp] theorem Block.get_set_self (b : Block) (k : Nat) (v : Byte) (hk : k < 8) : (b.set k v).get k = v := by
  simp [Block.get_set, hk]

@[simp] theorem Block.set_set (b : Block) (k : Nat) (v w : Byte) : (b.set k v).set k w = b.set k w := by
  unfold Block.set; split <;> simp_all

/-- Writing all eight bytes of a block gives the block, whatever was there (R27). -/
theorem Block.set_all (a b : Block) :
    (((((((a.set 0 (b.get 0)).set 1 (b.get 1)).set 2 (b.get 2)).set 3 (b.get 3)).set 4 (b.get 4)).set 5 (b.get 5)).set 6
      (b.get 6)).set 7 (b.get 7) = b := by
  simp only [Block.set, Block.get]

end Sys2Proof

namespace Sys2Proof.Machine

/-- A rising edge as an attached peer feels it; a disconnected one feels nothing (R77). -/
def Peer.feel (p : Peer) (l : Level) : Peer := if p.attached then p.rising l else p

/-- The first n rising edges of a byte sent least significant bit first. -/
def Peer.feelBits (p : Peer) (b : Byte) : Nat → Peer
  | 0 => p
  | n + 1 => (p.feelBits b n).feel (bitAt b n)

/-- The eight rising edges of a byte. -/
def Peer.feelByte (p : Peer) (b : Byte) : Peer := p.feelBits b 8

theorem Peer.feelByte_last (p : Peer) (b : Byte) : p.feelByte b = (p.feelBits b 7).feel (bitAt b 7) := rfl

@[simp] theorem Peer.rising_kind (p : Peer) (l : Level) : (p.rising l).kind = p.kind := by
  unfold Peer.rising; split <;> (try split) <;> rfl

@[simp] theorem Peer.rising_pdrive (p : Peer) (l : Level) : (p.rising l).pdrive = p.pdrive := by
  unfold Peer.rising; split <;> (try split) <;> rfl

@[simp] theorem Peer.feel_kind (p : Peer) (l : Level) : (p.feel l).kind = p.kind := by unfold Peer.feel; split <;> simp

@[simp] theorem Peer.feel_attached (p : Peer) (l : Level) : (p.feel l).attached = p.attached := by simp [Peer.attached]

@[simp] theorem Peer.feel_driving (p : Peer) (l : Level) : (p.feel l).driving = p.driving := by
  unfold Peer.driving; rw [Peer.feel_attached]; unfold Peer.feel; split <;> simp

theorem Peer.feel_disconnected {p : Peer} (h : p.attached = false) (l : Level) : p.feel l = p := by simp [Peer.feel, h]

@[simp] theorem Peer.feelBits_attached (p : Peer) (b : Byte) (n : Nat) : (p.feelBits b n).attached = p.attached := by
  induction n with
  | zero => rfl
  | succ n ih => simp [Peer.feelBits, ih]

@[simp] theorem Peer.feelBits_driving (p : Peer) (b : Byte) (n : Nat) : (p.feelBits b n).driving = p.driving := by
  induction n with
  | zero => rfl
  | succ n ih => simp [Peer.feelBits, ih]

theorem Peer.feelByte_disconnected {p : Peer} (h : p.attached = false) (b : Byte) : p.feelByte b = p := by
  simp [Peer.feelByte, Peer.feelBits, Peer.feel_disconnected, h]

/-- Inside a byte the peer keeps its phase and counts the bits. -/
theorem Peer.feelBits_phase {p : Peer} (ha : p.attached = true) (h : p.pstate = .cmd ∨ p.pstate = .wdata) (hb : p.pbit = 0)
    (b : Byte) {n : Nat} (hn : n ≤ 7) : (p.feelBits b n).pstate = p.pstate ∧ (p.feelBits b n).pbit = n := by
  induction n with
  | zero => exact ⟨rfl, hb⟩
  | succ n ih =>
    obtain ⟨h1, h2⟩ := ih (by omega)
    have h3 : n ≠ 7 := by omega
    have h4 : (p.feelBits b n).attached = true := by simp [ha]
    rcases h with h | h <;> simp [Peer.feelBits, Peer.feel, h4, Peer.rising, h1, h2, h, h3]

/-- The peer receives a command byte (R72). -/
theorem Peer.feelByte_cmd {p : Peer} (ha : p.attached = true) (h : p.pstate = .cmd) (hb : p.pbit = 0) (b : Byte) :
    p.feelByte b = { p with pcmd := b, pbit := 0, pk := 0, pstate := if readFlag b then .rdata else .wdata } := by
  obtain ⟨kind, regs, pstate, pbit, pk, pcmd, wbuf, snap, pdrive, plevel⟩ := p
  subst h hb
  cases kind with
  | disconnected => simp [Peer.attached] at ha
  | still => simp [Peer.feelByte, Peer.feelBits, Peer.feel, Peer.rising, Peer.attached, setBit_all]
  | ticking => simp [Peer.feelByte, Peer.feelBits, Peer.feel, Peer.rising, Peer.attached, setBit_all]

/-- The peer receives a data byte (R72). -/
theorem Peer.feelByte_wdata {p : Peer} (ha : p.attached = true) (h : p.pstate = .wdata) (hb : p.pbit = 0) (hk : p.pk < 8)
    (b : Byte) : p.feelByte b = { p with wbuf := p.wbuf.set p.pk b, pbit := 0, pk := p.pk + 1 } := by
  obtain ⟨kind, regs, pstate, pbit, pk, pcmd, wbuf, snap, pdrive, plevel⟩ := p
  subst h hb
  replace hk : pk < 8 := hk
  cases kind with
  | disconnected => simp [Peer.attached] at ha
  | still => simp [Peer.feelByte, Peer.feelBits, Peer.feel, Peer.rising, Peer.attached, Peer.storeBit, hk, setBit_all]
  | ticking => simp [Peer.feelByte, Peer.feelBits, Peer.feel, Peer.rising, Peer.attached, Peer.storeBit, hk, setBit_all]

end Sys2Proof.Machine
end

