-- ==== Sys2Proof/Laws/State.lean ====
section
/-! SUPPORT. What each update of the state leaves in each field, and the guard every operation has. -/

namespace Sys2Proof.Machine

variable (s : State) (e : Event) (r : FaultReason) (res : Result) (f : State → State)

/-! ## Appending an event -/

@[simp] theorem State.emit_seq : (s.emit e).seq = s.seq := rfl
@[simp] theorem State.emit_ce : (s.emit e).ce = s.ce := rfl
@[simp] theorem State.emit_clk : (s.emit e).clk = s.clk := rfl
@[simp] theorem State.emit_iodir : (s.emit e).iodir = s.iodir := rfl
@[simp] theorem State.emit_ioOut : (s.emit e).ioOut = s.ioOut := rfl
@[simp] theorem State.emit_sr : (s.emit e).sr = s.sr := rfl
@[simp] theorem State.emit_bit : (s.emit e).bit = s.bit := rfl
@[simp] theorem State.emit_rel : (s.emit e).rel = s.rel := rfl
@[simp] theorem State.emit_cmdValid : (s.emit e).cmdValid = s.cmdValid := rfl
@[simp] theorem State.emit_cmd : (s.emit e).cmd = s.cmd := rfl
@[simp] theorem State.emit_nbytes : (s.emit e).nbytes = s.nbytes := rfl
@[simp] theorem State.emit_buf : (s.emit e).buf = s.buf := rfl
@[simp] theorem State.emit_fault : (s.emit e).fault = s.fault := rfl
@[simp] theorem State.emit_program : (s.emit e).program = s.program := rfl
@[simp] theorem State.emit_hpc : (s.emit e).hpc = s.hpc := rfl
@[simp] theorem State.emit_results : (s.emit e).results = s.results := rfl
@[simp] theorem State.emit_platform : (s.emit e).platform = s.platform := rfl
@[simp] theorem State.emit_peer : (s.emit e).peer = s.peer := rfl
@[simp] theorem State.emit_draws : (s.emit e).draws = s.draws := rfl
@[simp] theorem State.emit_revTrace : (s.emit e).revTrace = e :: s.revTrace := rfl
@[simp] theorem State.emit_trace : (s.emit e).trace = s.trace ++ [e] := by simp [State.trace]

/-! ## The guard (R28, R100 item 1) -/

@[simp] theorem State.faulted_iff : s.faulted = true ↔ s.fault ≠ none := by
  cases h : s.fault <;> simp [State.faulted, h]

theorem State.live_of_ok {s : State} (h : s.fault = none) : s.live f = f s := by simp [State.live, State.faulted, h]

theorem State.live_of_faulted {s : State} (h : s.fault ≠ none) : s.live f = s := by simp [State.live, h]

/-! ## Raising a fault (R15, R242) -/

theorem State.raise_of_ok {s : State} (h : s.fault = none) : s.raise r = { s with fault := some r } := State.live_of_ok _ h

theorem State.raise_of_faulted {s : State} (h : s.fault ≠ none) : s.raise r = s := State.live_of_faulted _ h

@[simp] theorem State.raise_seq : (s.raise r).seq = s.seq := by unfold State.raise State.live; split <;> rfl
@[simp] theorem State.raise_ce : (s.raise r).ce = s.ce := by unfold State.raise State.live; split <;> rfl
@[simp] theorem State.raise_clk : (s.raise r).clk = s.clk := by unfold State.raise State.live; split <;> rfl
@[simp] theorem State.raise_iodir : (s.raise r).iodir = s.iodir := by unfold State.raise State.live; split <;> rfl
@[simp] theorem State.raise_ioOut : (s.raise r).ioOut = s.ioOut := by unfold State.raise State.live; split <;> rfl
@[simp] theorem State.raise_sr : (s.raise r).sr = s.sr := by unfold State.raise State.live; split <;> rfl
@[simp] theorem State.raise_bit : (s.raise r).bit = s.bit := by unfold State.raise State.live; split <;> rfl
@[simp] theorem State.raise_rel : (s.raise r).rel = s.rel := by unfold State.raise State.live; split <;> rfl
@[simp] theorem State.raise_cmdValid : (s.raise r).cmdValid = s.cmdValid := by unfold State.raise State.live; split <;> rfl
@[simp] theorem State.raise_cmd : (s.raise r).cmd = s.cmd := by unfold State.raise State.live; split <;> rfl
@[simp] theorem State.raise_nbytes : (s.raise r).nbytes = s.nbytes := by unfold State.raise State.live; split <;> rfl
@[simp] theorem State.raise_buf : (s.raise r).buf = s.buf := by unfold State.raise State.live; split <;> rfl
@[simp] theorem State.raise_program : (s.raise r).program = s.program := by unfold State.raise State.live; split <;> rfl
@[simp] theorem State.raise_hpc : (s.raise r).hpc = s.hpc := by unfold State.raise State.live; split <;> rfl
@[simp] theorem State.raise_results : (s.raise r).results = s.results := by unfold State.raise State.live; split <;> rfl
@[simp] theorem State.raise_platform : (s.raise r).platform = s.platform := by unfold State.raise State.live; split <;> rfl
@[simp] theorem State.raise_peer : (s.raise r).peer = s.peer := by unfold State.raise State.live; split <;> rfl
@[simp] theorem State.raise_draws : (s.raise r).draws = s.draws := by unfold State.raise State.live; split <;> rfl
@[simp] theorem State.raise_revTrace : (s.raise r).revTrace = s.revTrace := by unfold State.raise State.live; split <;> rfl
@[simp] theorem State.raise_trace : (s.raise r).trace = s.trace := by simp [State.trace]

/-- After a raise some fault is recorded, whichever was first. -/
theorem State.raise_faulted : (s.raise r).fault ≠ none := by
  by_cases h : s.fault = none
  · simp [State.raise_of_ok _ h]
  · rwa [State.raise_of_faulted _ h]

/-! ## Completing an operation (R30) -/

theorem State.complete_of_ok {s : State} (h : s.fault = none) :
    s.complete res = { s with hpc := s.hpc + 1, results := s.results ++ [res] } := State.live_of_ok _ h

theorem State.complete_of_faulted {s : State} (h : s.fault ≠ none) : s.complete res = s := State.live_of_faulted _ h

@[simp] theorem State.complete_seq : (s.complete res).seq = s.seq := by unfold State.complete State.live; split <;> rfl
@[simp] theorem State.complete_ce : (s.complete res).ce = s.ce := by unfold State.complete State.live; split <;> rfl
@[simp] theorem State.complete_clk : (s.complete res).clk = s.clk := by unfold State.complete State.live; split <;> rfl
@[simp] theorem State.complete_iodir : (s.complete res).iodir = s.iodir := by unfold State.complete State.live; split <;> rfl
@[simp] theorem State.complete_ioOut : (s.complete res).ioOut = s.ioOut := by unfold State.complete State.live; split <;> rfl
@[simp] theorem State.complete_sr : (s.complete res).sr = s.sr := by unfold State.complete State.live; split <;> rfl
@[simp] theorem State.complete_bit : (s.complete res).bit = s.bit := by unfold State.complete State.live; split <;> rfl
@[simp] theorem State.complete_rel : (s.complete res).rel = s.rel := by unfold State.complete State.live; split <;> rfl
@[simp] theorem State.complete_cmdValid : (s.complete res).cmdValid = s.cmdValid := by unfold State.complete State.live; split <;> rfl
@[simp] theorem State.complete_cmd : (s.complete res).cmd = s.cmd := by unfold State.complete State.live; split <;> rfl
@[simp] theorem State.complete_nbytes : (s.complete res).nbytes = s.nbytes := by unfold State.complete State.live; split <;> rfl
@[simp] theorem State.complete_buf : (s.complete res).buf = s.buf := by unfold State.complete State.live; split <;> rfl
@[simp] theorem State.complete_fault : (s.complete res).fault = s.fault := by unfold State.complete State.live; split <;> rfl
@[simp] theorem State.complete_program : (s.complete res).program = s.program := by unfold State.complete State.live; split <;> rfl
@[simp] theorem State.complete_platform : (s.complete res).platform = s.platform := by unfold State.complete State.live; split <;> rfl
@[simp] theorem State.complete_peer : (s.complete res).peer = s.peer := by unfold State.complete State.live; split <;> rfl
@[simp] theorem State.complete_draws : (s.complete res).draws = s.draws := by unfold State.complete State.live; split <;> rfl
@[simp] theorem State.complete_revTrace : (s.complete res).revTrace = s.revTrace := by unfold State.complete State.live; split <;> rfl
@[simp] theorem State.complete_trace : (s.complete res).trace = s.trace := by simp [State.trace]

end Sys2Proof.Machine
end

