-- ==== Sys2Proof/Laws/Pins.lean ====
section
/-! SUPPORT. What the pin primitives and the bits of a shift do to a state that is not faulted (00_scope R13, 41_transport R104, R106). -/

namespace Sys2Proof.Machine

/-! ## The peer's reactions -/

theorem State.line_out {s : State} (h : s.iodir = .out) : s.line = (s.ioOut, s) := by simp [State.line, h]

/-- A rising edge while the block drives the line (R72). -/
theorem State.peerRising_out {s : State} (h : s.iodir = .out) :
    s.peerRising = { s with peer := s.peer.feel s.ioOut } := by
  unfold State.peerRising Peer.feel
  rw [State.line_out h]
  by_cases ha : s.peer.attached = true
  · by_cases hp : s.peer.pstate = .cmd ∨ s.peer.pstate = .wdata
    · rw [if_pos ⟨ha, hp⟩, if_pos ha]
    · rw [if_neg (fun c => hp c.2), if_pos ha]
      have : s.peer.rising s.ioOut = s.peer := by
        unfold Peer.rising
        split <;> simp_all
      rw [this]
  · rw [if_neg (fun c => ha c.1), if_neg ha]

/-- A rising edge while a peer sends data has no effect (R72). -/
theorem State.peerRising_rdata {s : State} (h : s.peer.attached = true → s.peer.pstate = .rdata) : s.peerRising = s := by
  unfold State.peerRising
  cases ha : s.peer.attached <;> simp [ha] at h ⊢
  simp [h]

/-- A falling edge outside RDATA has no effect (R72). -/
theorem State.peerFalling_idle {s : State} (h : s.peer.attached = true → s.peer.pstate ≠ .rdata) : s.peerFalling = s := by
  unfold State.peerFalling
  cases ha : s.peer.attached <;> simp [ha] at h ⊢
  simp [h]

/-- Nobody fights for the line while the peer does not drive (R75). -/
theorem State.contention_none {s : State} (h : s.peer.driving = false) : s.contention = s := by
  simp [State.contention, h]

/-- Nobody fights for the line while the pin is an input (R75). -/
theorem State.contention_inp {s : State} (h : s.iodir = .inp) : s.contention = s := by
  simp [State.contention, h]

/-! ## One bit out (R104) -/

theorem shiftOutBit_kept {s : State} {rel : Bool} {i : Nat} (hf : s.fault = none) (hc : s.clk = low) (hd : s.iodir = .out)
    (hr : ¬(rel = true ∧ i = 7)) (hp : s.peer.driving = false)
    (hq : s.peer.attached = true → (s.peer.feel (bitAt s.sr i)).pstate ≠ .rdata) :
    shiftOutBit rel s i =
      { s with bit := BitVec.ofNat 4 i, ioOut := bitAt s.sr i, peer := s.peer.feel (bitAt s.sr i),
               revTrace := (outBitEvents (bitAt s.sr i)).reverse ++ s.revTrace } := by
  unfold shiftOutBit
  rw [if_neg hr]
  simp only [State.live, State.faulted, State.drive, State.delay, State.setCLK, State.emit, hf, hc, Option.isSome_none,
    Bool.false_eq_true, if_false, if_true, and_self, low, high, reduceCtorEq, and_true, and_false]
  rw [State.peerRising_out (by exact hd)]
  simp only [Option.isSome_none, Bool.false_eq_true, if_false, if_true]
  rw [State.peerFalling_idle (by simpa using hq), State.contention_none (by simpa using hp)]
  simp [outBitEvents]

theorem shiftOutBit_released {s : State} (hf : s.fault = none) (hc : s.clk = low) (hd : s.iodir = .out) :
    shiftOutBit true s 7 =
      { s with bit := 7, ioOut := bitAt s.sr 7, peer := s.peer.feel (bitAt s.sr 7), clk := high, iodir := .inp, rel := true,
               revTrace := (outReleaseEvents (bitAt s.sr 7)).reverse ++ s.revTrace } := by
  unfold shiftOutBit
  rw [if_pos ⟨rfl, rfl⟩]
  simp only [State.live, State.faulted, State.drive, State.delay, State.setCLK, State.emit, hf, hc, Option.isSome_none,
    Bool.false_eq_true, if_false, if_true, and_self, low, high, reduceCtorEq]
  rw [State.peerRising_out (by exact hd)]
  simp only [State.live, State.faulted, State.setDir, State.emit, Option.isSome_none, Bool.false_eq_true, if_false]
  rw [State.contention_inp rfl]
  simp [outReleaseEvents]

end Sys2Proof.Machine
end

