-- ==== Sys2Proof/Laws/Shift.lean ====
section
/-! SUPPORT. What SHIFT_OUT's pseudocode does as a whole (41_transport R104). -/

namespace Sys2Proof.Machine

/-- The bits of a byte before its last, whatever is requested of the last one. -/
theorem shiftOutBits_prefix {s : State} {rel : Bool} (hf : s.fault = none) (hc : s.clk = low) (hd : s.iodir = .out)
    (hp : s.peer.driving = false)
    (hq : s.peer.attached = true → s.peer.pbit = 0 ∧ (s.peer.pstate = .cmd ∨ s.peer.pstate = .wdata))
    {n : Nat} (hn : n ≤ 7) :
    ∃ x y, (List.range n).foldl (shiftOutBit rel) s =
      { s with bit := x, ioOut := y, peer := s.peer.feelBits s.sr n,
               revTrace := ((List.range n).flatMap fun i => outBitEvents (bitAt s.sr i)).reverse ++ s.revTrace } := by
  induction n with
  | zero => exact ⟨s.bit, s.ioOut, rfl⟩
  | succ n ih =>
    obtain ⟨x, y, h⟩ := ih (by omega)
    rw [List.range_succ, List.foldl_append, h]
    refine ⟨BitVec.ofNat 4 n, bitAt s.sr n, ?_⟩
    rw [List.foldl_cons, List.foldl_nil, shiftOutBit_kept (by exact hf) (by exact hc) (by exact hd)
      (by rintro ⟨-, rfl⟩; omega) (by simpa using hp)]
    · simp [Peer.feelBits]
    · intro ha
      have ha' : s.peer.attached = true := by simpa using ha
      obtain ⟨hb, hs⟩ := hq ha'
      have := (Peer.feelBits_phase ha' hs hb s.sr (n := n + 1) (by omega)).1
      simp only [Peer.feelBits] at this
      simp only [this]
      rcases hs with hs | hs <;> simp [hs]

/-- SHIFT_OUT's pseudocode in one line: the command phase takes a release exactly for a read, the data phase takes none. -/
theorem shiftOutBody_eq {s : State} {b : Byte} {rel : Bool} (hf : s.fault = none) (hc : s.clk = low)
    (hp : s.peer.driving = false)
    (hq : s.peer.attached = true → s.peer.pbit = 0 ∧
      (s.peer.pstate = .cmd ∧ readFlag b = rel ∨ s.peer.pstate = .wdata ∧ rel = false)) :
    shiftOutBody b rel s = shiftOutEnd b
      { s with iodir := if rel then .inp else .out, clk := rel, rel := if rel then true else s.rel, sr := b, bit := 7,
               ioOut := bitAt b 7, peer := s.peer.feelByte b,
               revTrace := (shiftOutEvents b rel).reverse ++ s.revTrace } := by
  have hq' : s.peer.attached = true → s.peer.pbit = 0 ∧ (s.peer.pstate = .cmd ∨ s.peer.pstate = .wdata) := by
    intro ha
    obtain ⟨h1, h2⟩ := hq ha
    exact ⟨h1, h2.imp (·.1) (·.1)⟩
  have h0 : (s.setDir .out).live (fun s => { s with sr := b }) =
      { s with iodir := .out, sr := b, revTrace := .dir .out :: s.revTrace } := by
    simp only [State.setDir, State.live_of_ok _ hf]
    rw [State.contention_none (by exact hp)]
    rw [State.live_of_ok _ (by exact hf)]
    rfl
  have h8 : zeroToSeven = List.range 7 ++ [7] := by decide
  unfold shiftOutBody
  rw [h0]
  obtain ⟨x, y, h⟩ := shiftOutBits_prefix (s := { s with iodir := .out, sr := b, revTrace := .dir .out :: s.revTrace })
    (rel := rel) hf hc rfl hp hq' (n := 7) (by omega)
  simp only
  rw [h8, List.foldl_append, h, List.foldl_cons, List.foldl_nil]
  cases rel with
  | true =>
    rw [shiftOutBit_released (by exact hf) (by exact hc) rfl]
    rw [State.live_of_ok _ (by exact hf)]
    simp [shiftOutEvents, Peer.feelByte, Peer.feelBits]
  | false =>
    rw [shiftOutBit_kept (by exact hf) (by exact hc) rfl (by simp) (by simpa using hp)]
    · rw [State.live_of_ok _ (by exact hf)]
      simp [shiftOutEvents, Peer.feelByte, Peer.feelBits, hc]
    · intro ha
      have ha' : s.peer.attached = true := by simpa using ha
      obtain ⟨hb, hs⟩ := hq ha'
      simp only
      rw [← Peer.feelByte_last]
      rcases hs with ⟨hs, hr⟩ | ⟨hs, -⟩
      · rw [Peer.feelByte_cmd ha' hs hb]
        simp [hr]
      · obtain ⟨h1, h2⟩ := Peer.feelBits_phase ha' (Or.inr hs) hb b (n := 7) (by omega)
        have h4 : (s.peer.feelBits b 7).attached = true := by simpa using ha'
        rw [Peer.feelByte_last]
        simp [Peer.feel, h4, Peer.rising, h1, h2, hs]

end Sys2Proof.Machine
end

