-- ==== Sys2Proof/Laws/ShiftIn.lean ====
section
/-! SUPPORT. What SHIFT_IN's pseudocode does as a whole (41_transport R106), with a peer that sends and with none. -/

namespace Sys2Proof.Machine

/-- The clock raised while no peer samples the line (R72): a CLK event and nothing else. -/
theorem State.setCLK_high_unsampled {s : State} (hf : s.fault = none) (h : s.peer.attached = true → s.peer.pstate = .rdata) :
    s.setCLK high = { s with clk := high, revTrace := .clk high :: s.revTrace } := by
  have : ({ s.emit (.clk high) with clk := high } : State).peerRising = { s.emit (.clk high) with clk := high } :=
    State.peerRising_rdata h
  simp only [State.setCLK, State.live_of_ok _ hf, this]
  cases s.clk <;> simp [State.emit]

/-- The clock lowered from High while the pin is an input (R72). -/
theorem State.setCLK_low_input {s : State} (hf : s.fault = none) (hc : s.clk = high) (hd : s.iodir = .inp)
    (hd' : ∀ t : State, t.iodir = .inp → t.peerFalling.iodir = .inp) :
    s.setCLK low = ({ s with clk := low, revTrace := .clk low :: s.revTrace } : State).peerFalling := by
  have h : ({ s with clk := low, revTrace := .clk low :: s.revTrace } : State).peerFalling.contention =
      ({ s with clk := low, revTrace := .clk low :: s.revTrace } : State).peerFalling :=
    State.contention_inp (hd' _ hd)
  simp only [State.setCLK, State.live_of_ok _ hf, State.emit, hc]
  simpa using h

/-- A falling edge leaves the pin's direction. -/
theorem State.peerFalling_iodir (s : State) : s.peerFalling.iodir = s.iodir := by
  unfold State.peerFalling
  split
  · split <;> rfl
  · rfl

/-- One bit in, up to the falling edge's reaction (R106). -/
theorem shiftInBit_eq {s : State} (i : Nat) (hf : s.fault = none) (hd : s.iodir = .inp)
    (h : s.peer.attached = true → s.peer.pstate = .rdata) :
    shiftInBit s i =
      ((({ s with bit := BitVec.ofNat 4 i, clk := low,
                  revTrace := .clk low :: .dly .rdHigh :: .clk high :: s.revTrace } : State).peerFalling).delay .rdAccess).sampleTo i := by
  unfold shiftInBit
  have h0 : s.live (fun s => { s with bit := BitVec.ofNat 4 i }) = { s with bit := BitVec.ofNat 4 i } := State.live_of_ok _ hf
  have h1 := State.setCLK_high_unsampled (s := { s with bit := BitVec.ofNat 4 i }) hf h
  have h2 : ({ s with bit := BitVec.ofNat 4 i, clk := high, revTrace := .clk high :: s.revTrace } : State).delay .rdHigh =
      { s with bit := BitVec.ofNat 4 i, clk := high, revTrace := .dly .rdHigh :: .clk high :: s.revTrace } :=
    State.live_of_ok _ hf
  have h3 := State.setCLK_low_input
    (s := { s with bit := BitVec.ofNat 4 i, clk := high, revTrace := .dly .rdHigh :: .clk high :: s.revTrace })
    hf rfl hd (fun t ht => (State.peerFalling_iodir t).trans ht)
  simp only [h0, h1, h2, h3]

/-- One bit from a peer that has a byte to send (R72, R106). -/
theorem shiftInBit_attached {s : State} {v : Byte} (i : Nat) (hf : s.fault = none) (hd : s.iodir = .inp)
    (ha : s.peer.attached = true) (hr : s.peer.pstate = .rdata) (hv : s.peer.rdsrc = some v) :
    shiftInBit s i =
      { s with bit := BitVec.ofNat 4 i, clk := low, sr := setBit s.sr i (bitAt v s.peer.pbit),
               peer := s.peer.driveBit (bitAt v s.peer.pbit),
               revTrace := (inBitEvents (bitAt v s.peer.pbit)).reverse ++ s.revTrace } := by
  have hk : s.peer.kind ≠ .disconnected := by simpa [Peer.attached] using ha
  have hdrv : ∀ l, (s.peer.driveBit l).driving = true := by
    intro l
    unfold Peer.driveBit
    split <;> simp [Peer.driving, Peer.attached, hk]
  have hlev : ∀ l, (s.peer.driveBit l).plevel = l := by
    intro l
    unfold Peer.driveBit
    split <;> rfl
  rw [shiftInBit_eq i hf hd (fun _ => hr)]
  simp only [State.peerFalling, ha, hr, and_self, if_true, hv]
  simp only [State.delay, State.sampleTo, State.live, State.faulted, hf, State.emit, Option.isSome_none, Bool.false_eq_true,
    if_false, State.line, hd, hdrv, hlev, if_true]
  simp [inBitEvents]

/-- The bits of a byte before its last. -/
theorem shiftInBits_prefix {s : State} {v : Byte} (hf : s.fault = none) (hd : s.iodir = .inp)
    (ha : s.peer.attached = true) (hr : s.peer.pstate = .rdata) (hb : s.peer.pbit = 0) (hv : s.peer.rdsrc = some v)
    {n : Nat} (hn : n ≤ 7) :
    ∃ x c d l, (List.range n).foldl shiftInBit s =
      { s with bit := x, clk := c, sr := setBits s.sr v n,
               peer := { s.peer with pdrive := d, plevel := l, pbit := n },
               revTrace := ((List.range n).flatMap fun i => inBitEvents (bitAt v i)).reverse ++ s.revTrace } := by
  induction n with
  | zero =>
    refine ⟨s.bit, s.clk, s.peer.pdrive, s.peer.plevel, ?_⟩
    have : ({ s.peer with pbit := 0 } : Peer) = s.peer := by rw [← hb]
    simp [this, setBits]
  | succ n ih =>
    obtain ⟨x, c, d, l, h⟩ := ih (by omega)
    rw [List.range_succ, List.foldl_append, h]
    refine ⟨BitVec.ofNat 4 n, low, true, bitAt v n, ?_⟩
    rw [List.foldl_cons, List.foldl_nil, shiftInBit_attached (v := v) n (by exact hf) (by exact hd) (by exact ha)
      (by exact hr) (by exact hv)]
    have : n ≠ 7 := by omega
    simp [setBits, Peer.driveBit, this]

/-- SHIFT_IN's pseudocode up to its first clock pulse. -/
theorem shiftInBody_start {s : State} (hf : s.fault = none) :
    shiftInBody s = (zeroToSeven.foldl shiftInBit
      { s with rel := false, iodir := .inp, sr := 0, revTrace := .dir .inp :: s.revTrace }).live
        (fun s => { s with bit := 8, nbytes := s.nbytes + 1 }) := by
  have h0 : s.live (fun s => { s with rel := false }) = { s with rel := false } := State.live_of_ok _ hf
  have h1 : ({ s with rel := false } : State).setDir .inp =
      { s with rel := false, iodir := .inp, revTrace := .dir .inp :: s.revTrace } := by
    unfold State.setDir
    rw [State.live_of_ok _ (by exact hf), State.contention_inp rfl]
    rfl
  have h2 : ({ s with rel := false, iodir := .inp, revTrace := .dir .inp :: s.revTrace } : State).live
      (fun s => { s with sr := 0 }) =
      { s with rel := false, iodir := .inp, sr := 0, revTrace := .dir .inp :: s.revTrace } := State.live_of_ok _ hf
  unfold shiftInBody
  simp only [h0, h1, h2]

/-- SHIFT_IN's pseudocode in one line, with a peer that has the byte v to send. -/
theorem shiftInBody_attached {s : State} {v : Byte} (hf : s.fault = none)
    (ha : s.peer.attached = true) (hr : s.peer.pstate = .rdata) (hb : s.peer.pbit = 0) (hv : s.peer.rdsrc = some v) :
    shiftInBody s =
      { s with rel := false, iodir := .inp, sr := v, bit := 8, clk := low, nbytes := s.nbytes + 1,
               peer := { s.peer with pdrive := true, plevel := bitAt v 7, pbit := 0, pk := s.peer.pk + 1 },
               revTrace := (shiftInEvents v).reverse ++ s.revTrace } := by
  rw [shiftInBody_start hf]
  have h8 : zeroToSeven = List.range 7 ++ [7] := by decide
  obtain ⟨x, c, d, l, h⟩ := shiftInBits_prefix (v := v)
    (s := { s with rel := false, iodir := .inp, sr := 0, revTrace := .dir .inp :: s.revTrace })
    hf rfl ha hr hb hv (n := 7) (by omega)
  rw [h8, List.foldl_append, h, List.foldl_cons, List.foldl_nil]
  rw [shiftInBit_attached (v := v) 7 (by exact hf) rfl (by exact ha) (by exact hr) (by exact hv)]
  rw [State.live_of_ok _ (by exact hf)]
  have hs : setBit (setBits 0#8 v 7) 7 (bitAt v 7) = v := by
    have := setBits_all 0#8 v
    rwa [setBits] at this
  simp [Peer.driveBit, shiftInEvents, hs, List.range_succ]

/-- One bit with nobody on the line (R76, R77). -/
theorem shiftInBit_disconnected {s : State} (i : Nat) (hf : s.fault = none) (hd : s.iodir = .inp)
    (ha : s.peer.attached = false) :
    shiftInBit s i =
      { s with bit := BitVec.ofNat 4 i, clk := low, sr := setBit s.sr i (Config.undriven s.draws), draws := s.draws + 1,
               revTrace := (inBitEvents (Config.undriven s.draws)).reverse ++ s.revTrace } := by
  rw [shiftInBit_eq i hf hd (by simp [ha])]
  simp only [State.peerFalling, ha, Bool.false_eq_true, false_and, if_false]
  simp only [State.delay, State.sampleTo, State.live, State.faulted, hf, State.emit, Option.isSome_none, Bool.false_eq_true,
    if_false, State.line, hd, Peer.driving, ha, Bool.false_and]
  simp [inBitEvents]

theorem bitAt_undrivenBits (v : Byte) (d : Nat) {n : Nat} (hn : n ≤ 8) {i : Nat} (hi : i < n) :
    bitAt (undrivenBits v d n) i = Config.undriven (d + i) := by
  induction n with
  | zero => omega
  | succ n ih =>
    simp only [undrivenBits, bitAt, getLsbD_setBit _ _ _ _ (show n < 8 by omega)]
    by_cases h : i = n
    · simp [h]
    · rw [if_neg h]
      exact ih (by omega) (by omega)

/-- The first bits of a byte with nobody on the line. -/
theorem shiftInBits_disconnected {s : State} (hf : s.fault = none) (hd : s.iodir = .inp) (ha : s.peer.attached = false)
    (n : Nat) :
    ∃ x c, (List.range n).foldl shiftInBit s =
      { s with bit := x, clk := c, sr := undrivenBits s.sr s.draws n, draws := s.draws + n,
               revTrace := ((List.range n).flatMap fun i => inBitEvents (Config.undriven (s.draws + i))).reverse ++ s.revTrace } ∧
      (0 < n → c = low) := by
  induction n with
  | zero => exact ⟨s.bit, s.clk, rfl, by omega⟩
  | succ n ih =>
    obtain ⟨x, c, h, -⟩ := ih
    rw [List.range_succ, List.foldl_append, h]
    refine ⟨BitVec.ofNat 4 n, low, ?_, fun _ => rfl⟩
    rw [List.foldl_cons, List.foldl_nil, shiftInBit_disconnected n (by exact hf) (by exact hd) (by exact ha)]
    simp [undrivenBits, Nat.add_assoc]

/-- SHIFT_IN's pseudocode in one line with nobody on the line. -/
theorem shiftInBody_disconnected {s : State} (hf : s.fault = none) (ha : s.peer.attached = false) :
    shiftInBody s =
      { s with rel := false, iodir := .inp, sr := undrivenByte s.draws, bit := 8, clk := low, nbytes := s.nbytes + 1,
               draws := s.draws + 8, revTrace := (shiftInEvents (undrivenByte s.draws)).reverse ++ s.revTrace } := by
  rw [shiftInBody_start hf]
  have h8 : zeroToSeven = List.range 8 := by decide
  obtain ⟨x, c, h, hc⟩ := shiftInBits_disconnected
    (s := { s with rel := false, iodir := .inp, sr := 0, revTrace := .dir .inp :: s.revTrace }) hf rfl ha 8
  have hev : shiftInEvents (undrivenByte s.draws) = .dir .inp ::
      ((List.range 8).flatMap fun i => inBitEvents (Config.undriven (s.draws + i))) := by
    unfold shiftInEvents
    refine congrArg (List.cons (Event.dir .inp)) (List.flatMap_congr fun i hi => ?_)
    rw [undrivenByte, bitAt_undrivenBits _ _ (by omega) (List.mem_range.mp hi)]
  rw [h8, h, State.live_of_ok _ (by exact hf), hev]
  simp only [hc (by omega), undrivenByte, List.reverse_cons, List.append_assoc, List.cons_append, List.nil_append]

end Sys2Proof.Machine
end

