-- ==== Sys2Proof/Laws/Framing.lean ====
section
/-! SUPPORT. What the four framing operations do inside a session (41_transport R101-R106), in one line each. -/

namespace Sys2Proof.Machine

/-! ## Chip-select -/

/-- Ticks change the registers and the draws and nothing else (R74). -/
theorem State.elapse_eq (s : State) :
    s.elapse = { s with peer := { s.peer with regs := s.elapse.peer.regs }, draws := s.elapse.draws } := by
  unfold State.elapse; split <;> rfl

@[simp] theorem State.elapse_kind (s : State) : s.elapse.peer.kind = s.peer.kind := by rw [State.elapse_eq]
@[simp] theorem State.elapse_pstate (s : State) : s.elapse.peer.pstate = s.peer.pstate := by rw [State.elapse_eq]

/-- No tick passes where the peer does not tick, or its clock is halted (R74). -/
theorem State.elapse_quiet {s : State} (h : s.peer.kind = .ticking → chFlag s.peer.regs.clock.seconds = true) :
    s.elapse = s := by
  unfold State.elapse
  split
  · rename_i c
    simp [h c.1] at c
  · rfl

/-- The elapsed peer does not depend on the block's latches. -/
theorem State.elapse_latches (s t : State) (hp : t.peer = s.peer) (hd : t.draws = s.draws) :
    t.elapse.peer = s.elapse.peer ∧ t.elapse.draws = s.elapse.draws := by
  unfold State.elapse
  rw [hp, hd]
  split <;> simp [hp, hd]

/-- SESSION_START's pseudocode in one line, with an attached peer that is off. -/
theorem startBody_attached {s : State} (hf : s.fault = none) (hc : s.clk = low) (ha : s.peer.attached = true)
    (ho : s.peer.pstate = .off) :
    startBody s =
      { s with seq := .active, ce := Config.ceActive, rel := false, cmdValid := false, nbytes := 0,
               draws := s.elapse.draws,
               peer := { s.peer with regs := s.elapse.peer.regs, snap := s.elapse.peer.regs, pstate := .cmd, pbit := 0,
                                     pk := 0, pcmd := 0, pdrive := false },
               revTrace := startEvents.reverse ++ s.revTrace } := by
  have h0 : s.setCE Config.ceActive =
      { s with ce := Config.ceActive, draws := s.elapse.draws, revTrace := .ce Config.ceActive :: s.revTrace,
               peer := { s.peer with regs := s.elapse.peer.regs, snap := s.elapse.peer.regs, pstate := .cmd, pbit := 0,
                                     pk := 0, pcmd := 0, pdrive := false } } := by
    obtain ⟨h1, h2⟩ := State.elapse_latches s { s.emit (.ce Config.ceActive) with ce := Config.ceActive } rfl rfl
    have h3 := State.elapse_eq { s.emit (.ce Config.ceActive) with ce := Config.ceActive }
    unfold State.setCE
    rw [State.live_of_ok _ hf]
    unfold State.peerCE
    rw [if_pos (by exact ha), if_pos rfl]
    simp only
    rw [h3, h1, h2]
    simp [Peer.select, ho, State.emit]
  unfold startBody
  rw [h0]
  simp [State.setCLK, State.live, State.faulted, hf, hc, State.delay, State.emit, startEvents]

/-- SESSION_START's pseudocode in one line, with no peer. -/
theorem startBody_disconnected {s : State} (hf : s.fault = none) (hc : s.clk = low) (ha : s.peer.attached = false) :
    startBody s =
      { s with seq := .active, ce := Config.ceActive, rel := false, cmdValid := false, nbytes := 0,
               revTrace := startEvents.reverse ++ s.revTrace } := by
  simp [startBody, State.setCE, State.peerCE, State.setCLK, State.live, State.faulted, hf, hc, ha, State.delay, State.emit,
    startEvents]

/-- What chip-select deassertion does to an attached peer (R73, R77). -/
def Peer.closed (p : Peer) : Peer := if p.attached then p.deselect else p

/-- SESSION_END's pseudocode in one line. -/
theorem endBody_eq {s : State} (hf : s.fault = none) :
    endBody s = { s with seq := .idle, ce := !Config.ceActive, peer := s.peer.closed,
                         revTrace := endEvents.reverse ++ s.revTrace } := by
  cases ha : s.peer.attached <;>
    simp [endBody, State.setCE, State.peerCE, State.live, State.faulted, hf, ha, State.delay, State.emit, endEvents,
      Peer.closed]

/-! ## The framing operations as steps of a transfer -/

/-- A framing operation whose checks hold is its pseudocode (R100). -/
theorem subOp_admitted {check : State → Option FaultReason} {body : State → State} {s : State} (hf : s.fault = none)
    (ha : check s = none) : subOp check body s = body s := by
  unfold subOp
  rw [State.live_of_ok _ hf, ha]

/-- A framing operation whose checks fail raises the first failing check's fault (R100). -/
theorem subOp_refused {check : State → Option FaultReason} {body : State → State} {s : State} {r : FaultReason}
    (hf : s.fault = none) (ha : check s = some r) : subOp check body s = { s with fault := some r } := by
  unfold subOp
  rw [State.live_of_ok _ hf, ha]
  exact State.raise_of_ok _ hf

/-- A framing operation on a faulted block does nothing (R28). -/
theorem subOp_faulted {check : State → Option FaultReason} {body : State → State} {s : State} (hf : s.fault ≠ none) :
    subOp check body s = s := State.live_of_faulted _ hf

/-- The command byte of a session, sent to an attached peer that awaits it. -/
theorem shiftOut_command {s : State} {c : Byte} (hf : s.fault = none) (hs : s.seq = .active) (hr : s.rel = false)
    (hv : s.cmdValid = false) (hc : s.clk = low) (hd : decodeCmd c ≠ none) (ha : s.peer.attached = true)
    (hp : s.peer.pstate = .cmd) (hb : s.peer.pbit = 0) (hdr : s.peer.pdrive = false) :
    shiftOut c (readFlag c) s =
      { s with iodir := if readFlag c then .inp else .out, clk := readFlag c, rel := readFlag c, sr := c, bit := 8,
               ioOut := bitAt c 7, cmd := c, cmdValid := true,
               peer := { s.peer with pcmd := c, pk := 0, pstate := if readFlag c then .rdata else .wdata },
               revTrace := (shiftOutEvents c (readFlag c)).reverse ++ s.revTrace } := by
  have hadm : admitShiftOut c (readFlag c) s = none := by
    simp [admitShiftOut, hs, hr, hv, hd]
  unfold shiftOut
  rw [subOp_admitted hf hadm, shiftOutBody_eq hf hc (by simp [Peer.driving, hdr]) (fun _ => ⟨hb, .inl ⟨hp, rfl⟩⟩),
    Peer.feelByte_cmd ha hp hb]
  cases h : readFlag c <;> simp [shiftOutEnd, hv, hr, hb]

/-- The command byte of a session with no peer. -/
theorem shiftOut_command_disconnected {s : State} {c : Byte} (hf : s.fault = none) (hs : s.seq = .active)
    (hr : s.rel = false) (hv : s.cmdValid = false) (hc : s.clk = low) (hd : decodeCmd c ≠ none)
    (ha : s.peer.attached = false) :
    shiftOut c (readFlag c) s =
      { s with iodir := if readFlag c then .inp else .out, clk := readFlag c, rel := readFlag c, sr := c, bit := 8,
               ioOut := bitAt c 7, cmd := c, cmdValid := true,
               revTrace := (shiftOutEvents c (readFlag c)).reverse ++ s.revTrace } := by
  have hadm : admitShiftOut c (readFlag c) s = none := by
    simp [admitShiftOut, hs, hr, hv, hd]
  unfold shiftOut
  rw [subOp_admitted hf hadm, shiftOutBody_eq hf hc (by simp [Peer.driving, ha]) (by simp [ha]),
    Peer.feelByte_disconnected ha]
  cases h : readFlag c <;> simp [shiftOutEnd, hv, hr]

/-- A data byte of a write session, sent to an attached peer. -/
theorem shiftOut_data {s : State} {d : Byte} (hf : s.fault = none) (hs : s.seq = .active) (hr : s.rel = false)
    (hv : s.cmdValid = true) (hc : s.clk = low) (hw : readFlag s.cmd = false) (hn : s.nbytes ≠ need s.cmd)
    (ha : s.peer.attached = true) (hp : s.peer.pstate = .wdata) (hb : s.peer.pbit = 0) (hk : s.peer.pk < 8)
    (hdr : s.peer.pdrive = false) :
    shiftOut d false s =
      { s with iodir := .out, sr := d, bit := 8, ioOut := bitAt d 7, nbytes := s.nbytes + 1,
               peer := { s.peer with wbuf := s.peer.wbuf.set s.peer.pk d, pk := s.peer.pk + 1 },
               revTrace := (shiftOutEvents d false).reverse ++ s.revTrace } := by
  have hadm : admitShiftOut d false s = none := by
    simp [admitShiftOut, hs, hr, hv, hw, hn]
  unfold shiftOut
  rw [subOp_admitted hf hadm, shiftOutBody_eq hf hc (by simp [Peer.driving, hdr]) (fun _ => ⟨hb, .inr ⟨hp, rfl⟩⟩),
    Peer.feelByte_wdata ha hp hb hk]
  simp [shiftOutEnd, hv, hb, hc]

/-- A data byte of a write session with no peer. -/
theorem shiftOut_data_disconnected {s : State} {d : Byte} (hf : s.fault = none) (hs : s.seq = .active) (hr : s.rel = false)
    (hv : s.cmdValid = true) (hc : s.clk = low) (hw : readFlag s.cmd = false) (hn : s.nbytes ≠ need s.cmd)
    (ha : s.peer.attached = false) :
    shiftOut d false s =
      { s with iodir := .out, sr := d, bit := 8, ioOut := bitAt d 7, nbytes := s.nbytes + 1,
               revTrace := (shiftOutEvents d false).reverse ++ s.revTrace } := by
  have hadm : admitShiftOut d false s = none := by
    simp [admitShiftOut, hs, hr, hv, hw, hn]
  unfold shiftOut
  rw [subOp_admitted hf hadm, shiftOutBody_eq hf hc (by simp [Peer.driving, ha]) (by simp [ha]),
    Peer.feelByte_disconnected ha]
  simp [shiftOutEnd, hv, hc]

/-- A data byte of a read session from an attached peer that has the byte v to send. -/
theorem shiftIn_attached {s : State} {v : Byte} (hf : s.fault = none) (hs : s.seq = .active) (hv : s.cmdValid = true)
    (hr : readFlag s.cmd = true) (hn : s.nbytes ≠ need s.cmd) (ha : s.peer.attached = true) (hp : s.peer.pstate = .rdata)
    (hb : s.peer.pbit = 0) (hsrc : s.peer.rdsrc = some v) :
    shiftIn s =
      { s with rel := false, iodir := .inp, sr := v, bit := 8, clk := low, nbytes := s.nbytes + 1,
               peer := { s.peer with pdrive := true, plevel := bitAt v 7, pk := s.peer.pk + 1 },
               revTrace := (shiftInEvents v).reverse ++ s.revTrace } := by
  unfold shiftIn
  rw [subOp_admitted hf (by simp [admitShiftIn, hs, hv, hr, hn]), shiftInBody_attached hf ha hp hb hsrc]
  simp [hb]

/-- A data byte of a read session with no peer (R77). -/
theorem shiftIn_disconnected {s : State} (hf : s.fault = none) (hs : s.seq = .active) (hv : s.cmdValid = true)
    (hr : readFlag s.cmd = true) (hn : s.nbytes ≠ need s.cmd) (ha : s.peer.attached = false) :
    shiftIn s =
      { s with rel := false, iodir := .inp, sr := undrivenByte s.draws, bit := 8, clk := low, nbytes := s.nbytes + 1,
               draws := s.draws + 8, revTrace := (shiftInEvents (undrivenByte s.draws)).reverse ++ s.revTrace } := by
  unfold shiftIn
  rw [subOp_admitted hf (by simp [admitShiftIn, hs, hv, hr, hn]), shiftInBody_disconnected hf ha]

/-- The end of a session that moved all its bytes (R102). -/
theorem sessionEnd_eq {s : State} (hf : s.fault = none) (hs : s.seq = .active) (hr : s.rel = false)
    (hv : s.cmdValid = true) (hn : s.nbytes = need s.cmd) :
    sessionEnd s = { s with seq := .idle, ce := !Config.ceActive, peer := s.peer.closed,
                            revTrace := endEvents.reverse ++ s.revTrace } := by
  unfold sessionEnd
  rw [subOp_admitted hf (by simp [admitEnd, hs, hr, hv, hn]), endBody_eq hf]

/-- The start of a session (R101), with an attached peer that is off. -/
theorem sessionStart_attached {s : State} (hf : s.fault = none) (hs : s.seq = .idle) (hc : s.clk = low)
    (ha : s.peer.attached = true) (ho : s.peer.pstate = .off) :
    sessionStart s =
      { s with seq := .active, ce := Config.ceActive, rel := false, cmdValid := false, nbytes := 0,
               draws := s.elapse.draws,
               peer := { s.peer with regs := s.elapse.peer.regs, snap := s.elapse.peer.regs, pstate := .cmd, pbit := 0,
                                     pk := 0, pcmd := 0, pdrive := false },
               revTrace := startEvents.reverse ++ s.revTrace } := by
  unfold sessionStart
  rw [subOp_admitted hf (by simp [admitStart, hs]), startBody_attached hf hc ha ho]

/-- The start of a session with no peer. -/
theorem sessionStart_disconnected {s : State} (hf : s.fault = none) (hs : s.seq = .idle) (hc : s.clk = low)
    (ha : s.peer.attached = false) :
    sessionStart s =
      { s with seq := .active, ce := Config.ceActive, rel := false, cmdValid := false, nbytes := 0,
               revTrace := startEvents.reverse ++ s.revTrace } := by
  unfold sessionStart
  rw [subOp_admitted hf (by simp [admitStart, hs]), startBody_disconnected hf hc ha]

end Sys2Proof.Machine
end

