-- ==== Sys2Proof/Laws/Transfer.lean ====
section
/-! SUPPORT. What the four transfers do as a whole (41_transport R110-R120), with an attached peer and with none. -/

namespace Sys2Proof.Machine

theorem Ready.clk {s : State} (h : Ready s) : s.clk = low := (h.inv.block.idle h.idle).1

theorem Ready.rel {s : State} (h : Ready s) : s.rel = false := (h.inv.block.idle h.idle).2

theorem Ready.off {s : State} (h : Ready s) (ha : s.peer.attached = true) : s.peer.pstate = .off :=
  ((h.inv.peer ha).off h.idle).1

/-- A single register's index is not the burst's. -/
theorem need_single {c : Byte} (h : cmdIdx c ≤ 8) : need c = 1 := by
  unfold need
  have : field c 1 5 ≠ 31 := by unfold cmdIdx at h; omega
  simp [this]

/-- READ_REG's session with an attached peer (R110). -/
theorem readReg_attached {s : State} (hr : Ready s) (ha : s.peer.attached = true) (a : Byte)
    (hd : decodeCmd (a ||| 0x01#8) ≠ none) (hi : cmdIdx (a ||| 0x01#8) ≤ 8) (hrd : readFlag (a ||| 0x01#8) = true) :
    readReg a s =
      { s.ended (a ||| 0x01#8) 1 (s.elapse.peer.regs.get (cmdIdx (a ||| 0x01#8)))
          (readEvents (a ||| 0x01#8) (s.elapse.peer.regs.get (cmdIdx (a ||| 0x01#8)))) with
        draws := s.elapse.draws
        peer := { s.peer.ended (a ||| 0x01#8) 1 s.elapse.peer.regs s.elapse.peer.regs with
                  plevel := bitAt (s.elapse.peer.regs.get (cmdIdx (a ||| 0x01#8))) 7 } } := by
  have hn := need_single hi
  have hne : cmdIdx (a ||| 0x01#8) ≠ 31 := by omega
  unfold readReg
  generalize a ||| 0x01#8 = c at *
  rw [sessionStart_attached hr.ok hr.idle hr.clk ha (hr.off ha)]
  have h1 := shiftOut_command (c := c)
    (s := { s with seq := .active, ce := Config.ceActive, rel := false, cmdValid := false, nbytes := 0,
                    draws := s.elapse.draws,
                    peer := { s.peer with regs := s.elapse.peer.regs, snap := s.elapse.peer.regs, pstate := .cmd,
                                          pbit := 0, pk := 0, pcmd := 0, pdrive := false },
                    revTrace := startEvents.reverse ++ s.revTrace })
    hr.ok rfl rfl rfl hr.clk hd ha rfl rfl rfl
  rw [hrd] at h1
  rw [h1]
  rw [shiftIn_attached (v := s.elapse.peer.regs.get (cmdIdx c)) (by exact hr.ok) rfl rfl (by exact hrd)
    (by show (0 : Nat) ≠ need c; omega) (by exact ha) rfl rfl (by simp [Peer.rdsrc, hi, hne])]
  rw [sessionEnd_eq (by exact hr.ok) rfl rfl rfl (by show 0 + 1 = need c; omega)]
  have hk : s.peer.kind ≠ .disconnected := by simpa [Peer.attached] using ha
  simp [Peer.closed, Peer.attached, hk, Peer.deselect, Peer.commit, readEvents, hrd, State.ended, Peer.ended]

/-- READ_REG's session with no peer: the byte is eight draws (R76, R77, R110). -/
theorem readReg_disconnected {s : State} (hr : Ready s) (ha : s.peer.attached = false) (a : Byte)
    (hd : decodeCmd (a ||| 0x01#8) ≠ none) (hi : cmdIdx (a ||| 0x01#8) ≤ 8) (hrd : readFlag (a ||| 0x01#8) = true) :
    readReg a s =
      { s.ended (a ||| 0x01#8) 1 (undrivenByte s.draws) (readEvents (a ||| 0x01#8) (undrivenByte s.draws)) with
        draws := s.draws + 8 } := by
  have hn := need_single hi
  unfold readReg
  generalize a ||| 0x01#8 = c at *
  rw [sessionStart_disconnected hr.ok hr.idle hr.clk ha]
  have h1 := shiftOut_command_disconnected (c := c)
    (s := { s with seq := .active, ce := Config.ceActive, rel := false, cmdValid := false, nbytes := 0,
                   revTrace := startEvents.reverse ++ s.revTrace })
    hr.ok rfl rfl rfl hr.clk hd ha
  rw [hrd] at h1
  rw [h1]
  rw [shiftIn_disconnected (by exact hr.ok) rfl rfl (by exact hrd) (by show (0 : Nat) ≠ need c; omega) (by exact ha)]
  rw [sessionEnd_eq (by exact hr.ok) rfl rfl rfl (by show 0 + 1 = need c; omega)]
  simp [Peer.closed, ha, readEvents, hrd, State.ended]

/-- WRITE_REG's session with an attached peer (R113). -/
theorem writeReg_attached {s : State} (hr : Ready s) (ha : s.peer.attached = true) (a d : Byte)
    (hd : decodeCmd (a &&& 0xFE#8) ≠ none) (hi : cmdIdx (a &&& 0xFE#8) ≤ 8) (hrd : readFlag (a &&& 0xFE#8) = false) :
    writeReg a d s =
      { s.ended (a &&& 0xFE#8) 1 d (writeEvents (a &&& 0xFE#8) d) with
        draws := s.elapse.draws
        peer := { s.peer.ended (a &&& 0xFE#8) 1 s.elapse.peer.regs
                    (s.elapse.peer.regs.written (cmdIdx (a &&& 0xFE#8)) d) with
                  wbuf := s.peer.wbuf.set 0 d } } := by
  have hn := need_single hi
  have hne : cmdIdx (a &&& 0xFE#8) ≠ 31 := by omega
  unfold writeReg
  generalize a &&& 0xFE#8 = c at *
  rw [sessionStart_attached hr.ok hr.idle hr.clk ha (hr.off ha)]
  have h1 := shiftOut_command (c := c)
    (s := { s with seq := .active, ce := Config.ceActive, rel := false, cmdValid := false, nbytes := 0,
                   draws := s.elapse.draws,
                   peer := { s.peer with regs := s.elapse.peer.regs, snap := s.elapse.peer.regs, pstate := .cmd,
                                         pbit := 0, pk := 0, pcmd := 0, pdrive := false },
                   revTrace := startEvents.reverse ++ s.revTrace })
    hr.ok rfl rfl rfl hr.clk hd ha rfl rfl rfl
  rw [hrd] at h1
  rw [h1]
  rw [shiftOut_data (by exact hr.ok) rfl rfl rfl rfl (by exact hrd) (by show (0 : Nat) ≠ need c; omega) (by exact ha) rfl rfl
    (by show (0 : Nat) < 8; omega) rfl]
  rw [sessionEnd_eq (by exact hr.ok) rfl rfl rfl (by show 0 + 1 = need c; omega)]
  have hk : s.peer.kind ≠ .disconnected := by simpa [Peer.attached] using ha
  simp [Peer.closed, Peer.attached, hk, Peer.deselect, Peer.commit, writeEvents, hi, hne,
    Regs.written, hrd, State.ended, Peer.ended]

/-- WRITE_REG's session with no peer (R77, R113). -/
theorem writeReg_disconnected {s : State} (hr : Ready s) (ha : s.peer.attached = false) (a d : Byte)
    (hd : decodeCmd (a &&& 0xFE#8) ≠ none) (hi : cmdIdx (a &&& 0xFE#8) ≤ 8) (hrd : readFlag (a &&& 0xFE#8) = false) :
    writeReg a d s =
      s.ended (a &&& 0xFE#8) 1 d (writeEvents (a &&& 0xFE#8) d) := by
  have hn := need_single hi
  unfold writeReg
  generalize a &&& 0xFE#8 = c at *
  rw [sessionStart_disconnected hr.ok hr.idle hr.clk ha]
  have h1 := shiftOut_command_disconnected (c := c)
    (s := { s with seq := .active, ce := Config.ceActive, rel := false, cmdValid := false, nbytes := 0,
                   revTrace := startEvents.reverse ++ s.revTrace })
    hr.ok rfl rfl rfl hr.clk hd ha
  rw [hrd] at h1
  rw [h1]
  rw [shiftOut_data_disconnected (by exact hr.ok) rfl rfl rfl rfl (by exact hrd) (by show (0 : Nat) ≠ need c; omega)
    (by exact ha)]
  rw [sessionEnd_eq (by exact hr.ok) rfl rfl rfl (by show 0 + 1 = need c; omega)]
  simp [Peer.closed, ha, writeEvents, hrd, State.ended]

/-! ## Bursts -/

/-- The first n bytes of a block written over another, in burst order. -/
def Block.fill (a b : Block) : Nat → Block
  | 0 => a
  | n + 1 => (Block.fill a b n).set n (b.get n)

theorem Block.fill_all (a b : Block) : Block.fill a b 8 = b := Block.set_all a b

/-- A burst read's command byte is 0xBF, and eight bytes follow it. -/
theorem need_burst : need 0xBF#8 = 8 ∧ need 0xBE#8 = 8 ∧ decodeCmd 0xBF#8 ≠ none ∧ decodeCmd 0xBE#8 ≠ none ∧
    readFlag 0xBF#8 = true ∧ readFlag 0xBE#8 = false ∧ cmdIdx 0xBF#8 = 31 ∧ cmdIdx 0xBE#8 = 31 := by decide

/-- The first n bytes of a burst read from an attached peer. -/
theorem burstReadBytes_attached {s : State} (hf : s.fault = none) (hs : s.seq = .active) (hv : s.cmdValid = true)
    (hc : s.cmd = 0xBF#8) (hn0 : s.nbytes = 0) (ha : s.peer.attached = true) (hp : s.peer.pstate = .rdata)
    (hb : s.peer.pbit = 0) (hk : s.peer.pk = 0) (hpc : s.peer.pcmd = 0xBF#8) {n : Nat} (hn : n ≤ 8) :
    ∃ r d sr bit clk pd pl, (List.range n).foldl burstReadByte s =
      { s with rel := r, iodir := d, sr := sr, bit := bit, clk := clk, nbytes := n,
               buf := Block.fill s.buf s.peer.snap.clock n,
               peer := { s.peer with pdrive := pd, plevel := pl, pk := n },
               revTrace := ((List.range n).flatMap fun k => shiftInEvents (s.peer.snap.clock.get k)).reverse ++ s.revTrace } ∧
      (0 < n → r = false ∧ d = .inp ∧ sr = s.peer.snap.clock.get (n - 1) ∧ bit = 8 ∧ clk = low ∧ pd = true ∧
        pl = bitAt (s.peer.snap.clock.get (n - 1)) 7) := by
  induction n with
  | zero =>
    refine ⟨s.rel, s.iodir, s.sr, s.bit, s.clk, s.peer.pdrive, s.peer.plevel, ?_, by omega⟩
    have h1 : ({ s.peer with pk := 0 } : Peer) = s.peer := by rw [← hk]
    have h2 : ({ s with nbytes := 0 } : State) = s := by rw [← hn0]
    simp only [List.range_zero, List.foldl_nil, Block.fill, List.flatMap_nil, List.reverse_nil, List.nil_append, h1, h2]
  | succ n ih =>
    obtain ⟨r, d, sr, bit, clk, pd, pl, h, -⟩ := ih (by omega)
    rw [List.range_succ, List.foldl_append, h, List.foldl_cons, List.foldl_nil]
    refine ⟨false, .inp, s.peer.snap.clock.get n, 8, low, true, bitAt (s.peer.snap.clock.get n) 7, ?_, by simp⟩
    have hbf := need_burst
    unfold burstReadByte
    rw [shiftIn_attached (v := s.peer.snap.clock.get n) (by exact hf) (by exact hs) (by exact hv)
      (by show readFlag s.cmd = true; rw [hc]; exact hbf.2.2.2.2.1) (by show n ≠ need s.cmd; rw [hc]; omega) (by exact ha)
      (by exact hp) (by exact hb)
      (by simp [Peer.rdsrc, hpc, hbf, show n < 8 by omega, Regs.get, show n ≠ 8 by omega])]
    rw [State.live_of_ok _ (by exact hf)]
    simp [Block.fill, List.flatMap_append]

end Sys2Proof.Machine
end

