-- ==== Sys2Proof/Laws/Burst.lean ====
section
/-! SUPPORT. What the two burst transfers do as a whole (41_transport R116-R120), with an attached peer and with none. -/

namespace Sys2Proof.Machine

/-- BURST_READ's session with an attached peer: the eight bytes of one snapshot (R116, R117). -/
theorem burstRead_attached {s : State} (hr : Ready s) (ha : s.peer.attached = true) :
    burstRead s =
      { s.ended 0xBF#8 8 s.elapse.peer.regs.clock.control (burstReadEvents s.elapse.peer.regs.clock) with
        buf := s.elapse.peer.regs.clock
        draws := s.elapse.draws
        peer := { s.peer.ended 0xBF#8 8 s.elapse.peer.regs s.elapse.peer.regs with
                  plevel := bitAt s.elapse.peer.regs.clock.control 7 } } := by
  obtain ⟨hn, -, hd, -, hrd, -, hx, -⟩ := need_burst
  have h8 : zeroToSeven = List.range 8 := by decide
  unfold burstRead
  rw [sessionStart_attached hr.ok hr.idle hr.clk ha (hr.off ha)]
  have h1 := shiftOut_command (c := 0xBF#8)
    (s := { s with seq := .active, ce := Config.ceActive, rel := false, cmdValid := false, nbytes := 0,
                   draws := s.elapse.draws,
                   peer := { s.peer with regs := s.elapse.peer.regs, snap := s.elapse.peer.regs, pstate := .cmd,
                                         pbit := 0, pk := 0, pcmd := 0, pdrive := false },
                   revTrace := startEvents.reverse ++ s.revTrace })
    hr.ok rfl rfl rfl hr.clk hd ha rfl rfl rfl
  rw [hrd] at h1
  rw [h1]
  obtain ⟨r, d, sr, bit, clk, pd, pl, h2, h3⟩ := burstReadBytes_attached (n := 8)
    (s := { s with seq := .active, ce := Config.ceActive, rel := true, cmdValid := true, cmd := 0xBF#8, nbytes := 0,
                   iodir := .inp, clk := high, sr := 0xBF#8, bit := 8, ioOut := bitAt 0xBF#8 7,
                   draws := s.elapse.draws,
                   peer := { s.peer with regs := s.elapse.peer.regs, snap := s.elapse.peer.regs, pstate := .rdata,
                                         pbit := 0, pk := 0, pcmd := 0xBF#8, pdrive := false },
                   revTrace := (shiftOutEvents 0xBF#8 true).reverse ++ (startEvents.reverse ++ s.revTrace) })
    hr.ok rfl rfl rfl rfl ha rfl rfl rfl rfl (by omega)
  obtain ⟨rfl, rfl, rfl, rfl, rfl, rfl, rfl⟩ := h3 (by omega)
  simp only [if_true] at h2 ⊢
  rw [h8, h2]
  rw [sessionEnd_eq (by exact hr.ok) rfl rfl rfl (by exact hn.symm)]
  have hk : s.peer.kind ≠ .disconnected := by simpa [Peer.attached] using ha
  simp only [Block.fill_all]
  simp [Peer.closed, Peer.attached, hk, Peer.deselect, Peer.commit, burstReadEvents, Block.get,
    hrd, State.ended, Peer.ended]

theorem undrivenBlock_get (d : Nat) {k : Nat} (hk : k < 8) : (undrivenBlock d).get k = undrivenByte (d + 8 * k) := by
  have : k = 0 ∨ k = 1 ∨ k = 2 ∨ k = 3 ∨ k = 4 ∨ k = 5 ∨ k = 6 ∨ k = 7 := by omega
  rcases this with h | h | h | h | h | h | h | h <;> subst h <;> simp [Block.get, undrivenBlock]

/-- The first n bytes of a burst read with no peer. -/
theorem burstReadBytes_disconnected {s : State} (hf : s.fault = none) (hs : s.seq = .active) (hv : s.cmdValid = true)
    (hc : s.cmd = 0xBF#8) (hn0 : s.nbytes = 0) (ha : s.peer.attached = false) {n : Nat} (hn : n ≤ 8) :
    ∃ r d sr bit clk, (List.range n).foldl burstReadByte s =
      { s with rel := r, iodir := d, sr := sr, bit := bit, clk := clk, nbytes := n, draws := s.draws + 8 * n,
               buf := Block.fill s.buf (undrivenBlock s.draws) n,
               revTrace := ((List.range n).flatMap fun k => shiftInEvents ((undrivenBlock s.draws).get k)).reverse ++ s.revTrace } ∧
      (0 < n → r = false ∧ d = .inp ∧ sr = (undrivenBlock s.draws).get (n - 1) ∧ bit = 8 ∧ clk = low) := by
  induction n with
  | zero =>
    refine ⟨s.rel, s.iodir, s.sr, s.bit, s.clk, ?_, by omega⟩
    have h2 : ({ s with nbytes := 0 } : State) = s := by rw [← hn0]
    simp only [List.range_zero, List.foldl_nil, Block.fill, List.flatMap_nil, List.reverse_nil, List.nil_append,
      Nat.mul_zero, Nat.add_zero, h2]
  | succ n ih =>
    obtain ⟨r, d, sr, bit, clk, h, -⟩ := ih (by omega)
    rw [List.range_succ, List.foldl_append, h, List.foldl_cons, List.foldl_nil]
    refine ⟨false, .inp, (undrivenBlock s.draws).get n, 8, low, ?_, by simp⟩
    have hbf := need_burst
    unfold burstReadByte
    rw [shiftIn_disconnected (by exact hf) (by exact hs) (by exact hv)
      (by show readFlag s.cmd = true; rw [hc]; exact hbf.2.2.2.2.1) (by show n ≠ need s.cmd; rw [hc]; omega) (by exact ha)]
    rw [State.live_of_ok _ (by exact hf)]
    simp [Block.fill, List.flatMap_append, undrivenBlock_get _ (show n < 8 by omega), Nat.mul_add, Nat.add_assoc]

/-- BURST_READ's session with no peer: 64 draws (R77, R117). -/
theorem burstRead_disconnected {s : State} (hr : Ready s) (ha : s.peer.attached = false) :
    burstRead s =
      { s.ended 0xBF#8 8 (undrivenBlock s.draws).control (burstReadEvents (undrivenBlock s.draws)) with
        buf := undrivenBlock s.draws
        draws := s.draws + 64 } := by
  obtain ⟨hn, -, hd, -, hrd, -, hx, -⟩ := need_burst
  have h8 : zeroToSeven = List.range 8 := by decide
  unfold burstRead
  rw [sessionStart_disconnected hr.ok hr.idle hr.clk ha]
  have h1 := shiftOut_command_disconnected (c := 0xBF#8)
    (s := { s with seq := .active, ce := Config.ceActive, rel := false, cmdValid := false, nbytes := 0,
                   revTrace := startEvents.reverse ++ s.revTrace })
    hr.ok rfl rfl rfl hr.clk hd ha
  rw [hrd] at h1
  rw [h1]
  obtain ⟨r, d, sr, bit, clk, h2, h3⟩ := burstReadBytes_disconnected (n := 8)
    (s := { s with seq := .active, ce := Config.ceActive, rel := true, cmdValid := true, cmd := 0xBF#8, nbytes := 0,
                   iodir := .inp, clk := high, sr := 0xBF#8, bit := 8, ioOut := bitAt 0xBF#8 7,
                   revTrace := (shiftOutEvents 0xBF#8 true).reverse ++ (startEvents.reverse ++ s.revTrace) })
    hr.ok rfl rfl rfl rfl ha (by omega)
  obtain ⟨rfl, rfl, rfl, rfl, rfl⟩ := h3 (by omega)
  simp only [if_true] at h2 ⊢
  rw [h8, h2]
  rw [sessionEnd_eq (by exact hr.ok) rfl rfl rfl (by exact hn.symm)]
  simp only [Block.fill_all]
  simp [Peer.closed, ha, burstReadEvents, Block.get, hrd, State.ended]

/-- The first n bytes of a burst write to an attached peer. -/
theorem burstWriteBytes_attached {s : State} {blk : Block} (hf : s.fault = none) (hs : s.seq = .active)
    (hv : s.cmdValid = true) (hr : s.rel = false) (hcl : s.clk = low) (hc : s.cmd = 0xBE#8) (hn0 : s.nbytes = 0)
    (ha : s.peer.attached = true) (hp : s.peer.pstate = .wdata) (hb : s.peer.pbit = 0) (hk : s.peer.pk = 0)
    (hdr : s.peer.pdrive = false) {n : Nat} (hn : n ≤ 8) :
    ∃ d sr bit io, (List.range n).foldl (burstWriteByte blk) s =
      { s with iodir := d, sr := sr, bit := bit, ioOut := io, nbytes := n, buf := Block.fill s.buf blk n,
               peer := { s.peer with wbuf := Block.fill s.peer.wbuf blk n, pk := n },
               revTrace := ((List.range n).flatMap fun k => shiftOutEvents (blk.get k) false).reverse ++ s.revTrace } ∧
      (0 < n → d = .out ∧ sr = blk.get (n - 1) ∧ bit = 8 ∧ io = bitAt (blk.get (n - 1)) 7) := by
  induction n with
  | zero =>
    refine ⟨s.iodir, s.sr, s.bit, s.ioOut, ?_, by omega⟩
    have h1 : ({ s.peer with pk := 0 } : Peer) = s.peer := by rw [← hk]
    have h2 : ({ s with nbytes := 0 } : State) = s := by rw [← hn0]
    simp only [List.range_zero, List.foldl_nil, Block.fill, List.flatMap_nil, List.reverse_nil, List.nil_append, h1, h2]
  | succ n ih =>
    obtain ⟨d, sr, bit, io, h, -⟩ := ih (by omega)
    rw [List.range_succ, List.foldl_append, h, List.foldl_cons, List.foldl_nil]
    refine ⟨.out, blk.get n, 8, bitAt (blk.get n) 7, ?_, by simp⟩
    have hbf := need_burst
    have hn8 : n < 8 := by omega
    unfold burstWriteByte
    rw [State.live_of_ok _ (by exact hf)]
    simp only [Block.get_set_self _ _ _ hn8]
    rw [shiftOut_data (by exact hf) (by exact hs) (by exact hr) (by exact hv) (by exact hcl)
      (by show readFlag s.cmd = false; rw [hc]; exact hbf.2.2.2.2.2.1) (by show n ≠ need s.cmd; rw [hc]; omega) (by exact ha)
      (by exact hp) (by exact hb) (by exact hn8) (by exact hdr)]
    simp [Block.fill, List.flatMap_append]

/-- BURST_WRITE's session with an attached peer (R119, R120). -/
theorem burstWrite_attached {s : State} (hr : Ready s) (ha : s.peer.attached = true) (blk : Block) :
    burstWrite blk s =
      { s.ended 0xBE#8 8 blk.control (burstWriteEvents blk) with
        buf := blk
        draws := s.elapse.draws
        peer := { s.peer.ended 0xBE#8 8 s.elapse.peer.regs (s.elapse.peer.regs.burstWritten blk) with wbuf := blk } } := by
  obtain ⟨-, hn, -, hd, -, hrd, -, hx⟩ := need_burst
  have h8 : zeroToSeven = List.range 8 := by decide
  unfold burstWrite
  rw [sessionStart_attached hr.ok hr.idle hr.clk ha (hr.off ha)]
  have h1 := shiftOut_command (c := 0xBE#8)
    (s := { s with seq := .active, ce := Config.ceActive, rel := false, cmdValid := false, nbytes := 0,
                   draws := s.elapse.draws,
                   peer := { s.peer with regs := s.elapse.peer.regs, snap := s.elapse.peer.regs, pstate := .cmd,
                                         pbit := 0, pk := 0, pcmd := 0, pdrive := false },
                   revTrace := startEvents.reverse ++ s.revTrace })
    hr.ok rfl rfl rfl hr.clk hd ha rfl rfl rfl
  rw [hrd] at h1
  rw [h1]
  obtain ⟨d, sr, bit, io, h2, h3⟩ := burstWriteBytes_attached (n := 8) (blk := blk)
    (s := { s with seq := .active, ce := Config.ceActive, rel := false, cmdValid := true, cmd := 0xBE#8, nbytes := 0,
                   iodir := .out, clk := low, sr := 0xBE#8, bit := 8, ioOut := bitAt 0xBE#8 7,
                   draws := s.elapse.draws,
                   peer := { s.peer with regs := s.elapse.peer.regs, snap := s.elapse.peer.regs, pstate := .wdata,
                                         pbit := 0, pk := 0, pcmd := 0xBE#8, pdrive := false },
                   revTrace := (shiftOutEvents 0xBE#8 false).reverse ++ (startEvents.reverse ++ s.revTrace) })
    hr.ok rfl rfl rfl rfl rfl rfl ha rfl rfl rfl rfl (by omega)
  obtain ⟨rfl, rfl, rfl, rfl⟩ := h3 (by omega)
  simp only [Bool.false_eq_true, if_false] at h2 ⊢
  rw [h8, h2]
  rw [sessionEnd_eq (by exact hr.ok) rfl rfl rfl (by exact hn.symm)]
  have hk : s.peer.kind ≠ .disconnected := by simpa [Peer.attached] using ha
  simp only [Block.fill_all]
  simp [Peer.closed, Peer.attached, hk, Peer.deselect, Peer.commit, burstWriteEvents, Block.get,
    hx, Regs.burstWritten, hrd, State.ended, Peer.ended]

/-- The first n bytes of a burst write with no peer. -/
theorem burstWriteBytes_disconnected {s : State} {blk : Block} (hf : s.fault = none) (hs : s.seq = .active)
    (hv : s.cmdValid = true) (hr : s.rel = false) (hcl : s.clk = low) (hc : s.cmd = 0xBE#8) (hn0 : s.nbytes = 0)
    (ha : s.peer.attached = false) {n : Nat} (hn : n ≤ 8) :
    ∃ d sr bit io, (List.range n).foldl (burstWriteByte blk) s =
      { s with iodir := d, sr := sr, bit := bit, ioOut := io, nbytes := n, buf := Block.fill s.buf blk n,
               revTrace := ((List.range n).flatMap fun k => shiftOutEvents (blk.get k) false).reverse ++ s.revTrace } ∧
      (0 < n → d = .out ∧ sr = blk.get (n - 1) ∧ bit = 8 ∧ io = bitAt (blk.get (n - 1)) 7) := by
  induction n with
  | zero =>
    refine ⟨s.iodir, s.sr, s.bit, s.ioOut, ?_, by omega⟩
    have h2 : ({ s with nbytes := 0 } : State) = s := by rw [← hn0]
    simp only [List.range_zero, List.foldl_nil, Block.fill, List.flatMap_nil, List.reverse_nil, List.nil_append, h2]
  | succ n ih =>
    obtain ⟨d, sr, bit, io, h, -⟩ := ih (by omega)
    rw [List.range_succ, List.foldl_append, h, List.foldl_cons, List.foldl_nil]
    refine ⟨.out, blk.get n, 8, bitAt (blk.get n) 7, ?_, by simp⟩
    have hbf := need_burst
    have hn8 : n < 8 := by omega
    unfold burstWriteByte
    rw [State.live_of_ok _ (by exact hf)]
    simp only [Block.get_set_self _ _ _ hn8]
    rw [shiftOut_data_disconnected (by exact hf) (by exact hs) (by exact hr) (by exact hv) (by exact hcl)
      (by show readFlag s.cmd = false; rw [hc]; exact hbf.2.2.2.2.2.1) (by show n ≠ need s.cmd; rw [hc]; omega) (by exact ha)]
    simp [Block.fill, List.flatMap_append]

/-- BURST_WRITE's session with no peer (R77, R119). -/
theorem burstWrite_disconnected {s : State} (hr : Ready s) (ha : s.peer.attached = false) (blk : Block) :
    burstWrite blk s =
      { s.ended 0xBE#8 8 blk.control (burstWriteEvents blk) with buf := blk } := by
  obtain ⟨-, hn, -, hd, -, hrd, -, hx⟩ := need_burst
  have h8 : zeroToSeven = List.range 8 := by decide
  unfold burstWrite
  rw [sessionStart_disconnected hr.ok hr.idle hr.clk ha]
  have h1 := shiftOut_command_disconnected (c := 0xBE#8)
    (s := { s with seq := .active, ce := Config.ceActive, rel := false, cmdValid := false, nbytes := 0,
                   revTrace := startEvents.reverse ++ s.revTrace })
    hr.ok rfl rfl rfl hr.clk hd ha
  rw [hrd] at h1
  rw [h1]
  obtain ⟨d, sr, bit, io, h2, h3⟩ := burstWriteBytes_disconnected (n := 8) (blk := blk)
    (s := { s with seq := .active, ce := Config.ceActive, rel := false, cmdValid := true, cmd := 0xBE#8, nbytes := 0,
                   iodir := .out, clk := low, sr := 0xBE#8, bit := 8, ioOut := bitAt 0xBE#8 7,
                   revTrace := (shiftOutEvents 0xBE#8 false).reverse ++ (startEvents.reverse ++ s.revTrace) })
    hr.ok rfl rfl rfl rfl rfl rfl ha (by omega)
  obtain ⟨rfl, rfl, rfl, rfl⟩ := h3 (by omega)
  simp only [Bool.false_eq_true, if_false] at h2 ⊢
  rw [h8, h2]
  rw [sessionEnd_eq (by exact hr.ok) rfl rfl rfl (by exact hn.symm)]
  simp only [Block.fill_all]
  simp [Peer.closed, ha, burstWriteEvents, Block.get, hrd, State.ended]

end Sys2Proof.Machine
end

