-- ==== Sys2Proof/Laws/Session.lean ====
section
/-! SUPPORT. Transfers in a row: what each leaves ready for the next, whichever peer is attached (41_transport R110-R120). -/

namespace Sys2Proof.Machine

/-- A block between two sessions is ready. -/
theorem ready_of_idle {t : State} (ok : t.fault = none) (idle : t.seq = .idle) (pins : t.platform.pinsReturn = true)
    (ce : t.ce = !Config.ceActive) (clk : t.clk = low) (rel : t.rel = false)
    (off : t.peer.attached = true → t.peer.pstate = .off ∧ t.peer.pdrive = false) : Ready t := by
  refine ⟨⟨⟨?_, fun _ => ⟨clk, rel⟩, ?_, fun _ => clk, ?_, ?_, ?_⟩, fun ha => ⟨fun _ => off ha, ?_, ?_, ?_⟩⟩, ok, idle, pins⟩ <;>
    simp [ce, idle, rel]

/-- The same state with other host-side fields is ready too. -/
theorem Ready.completed {s : State} (h : Ready s) (r : Result) : Ready (s.completed r) :=
  ⟨⟨⟨h.inv.block.ce_active, h.inv.block.idle, h.inv.block.released, h.inv.block.unreleased, h.inv.block.fresh,
    h.inv.block.commanded, h.inv.block.reading⟩, fun ha => ⟨(h.inv.peer ha).off, (h.inv.peer ha).cmd, (h.inv.peer ha).wdata,
    (h.inv.peer ha).rdata⟩⟩, h.ok, h.idle, h.pins⟩

/-- Drawing does not disturb a ready block. -/
theorem Ready.drawn {s : State} (h : Ready s) (n : Nat) : Ready { s with draws := n } :=
  ⟨⟨⟨h.inv.block.ce_active, h.inv.block.idle, h.inv.block.released, h.inv.block.unreleased, h.inv.block.fresh,
    h.inv.block.commanded, h.inv.block.reading⟩, fun ha => ⟨(h.inv.peer ha).off, (h.inv.peer ha).cmd, (h.inv.peer ha).wdata,
    (h.inv.peer ha).rdata⟩⟩, h.ok, h.idle, h.pins⟩

/-- An admitted register address gives an admitted read and write command of one register (R54, R110, R113). -/
theorem addressOk_commands : ∀ a : Byte, addressOk a = true →
    decodeCmd (a ||| 0x01#8) ≠ none ∧ cmdIdx (a ||| 0x01#8) ≤ 8 ∧ readFlag (a ||| 0x01#8) = true ∧
    decodeCmd (a &&& 0xFE#8) ≠ none ∧ cmdIdx (a &&& 0xFE#8) ≤ 8 ∧ readFlag (a &&& 0xFE#8) = false := by decide +kernel

/-- A register's read address, taken as either of its addresses. -/
theorem regName_commands (r : RegName) :
    r.writeAddr ||| 0x01#8 = r.readAddr ∧ r.readAddr ||| 0x01#8 = r.readAddr ∧
    r.writeAddr &&& 0xFE#8 = r.writeAddr ∧ r.readAddr &&& 0xFE#8 = r.writeAddr ∧
    cmdIdx r.readAddr = r.idx ∧ cmdIdx r.writeAddr = r.idx ∧
    addressOk r.writeAddr = true ∧ addressOk r.readAddr = true := by
  cases r <;> decide

/-- WRITE_REG's session, whichever peer is attached: the latches and the trace do not depend on it (R108, R113). -/
theorem writeReg_any {s : State} (hr : Ready s) {a : Byte} (hok : addressOk a = true) (d : Byte) :
    ∃ n p, writeReg a d s = { s.ended (a &&& 0xFE#8) 1 d (writeEvents (a &&& 0xFE#8) d) with draws := n, peer := p } ∧
      p.kind = s.peer.kind ∧ Ready (writeReg a d s) := by
  obtain ⟨-, -, -, h1, h2, h3⟩ := addressOk_commands a hok
  cases ha : s.peer.attached with
  | true =>
    have h := writeReg_attached hr ha a d h1 h2 h3
    refine ⟨_, _, h, rfl, ?_⟩
    rw [h]
    exact ready_of_idle hr.ok rfl hr.pins rfl rfl rfl (fun _ => ⟨rfl, rfl⟩)
  | false =>
    have h := writeReg_disconnected hr ha a d h1 h2 h3
    refine ⟨s.draws, s.peer, h, rfl, ?_⟩
    rw [h]
    exact ready_of_idle hr.ok rfl hr.pins rfl rfl rfl (by simp [State.ended, ha])

/-- A gap's ticks take draws and give none back (R16, R74). -/
theorem State.elapse_draws (s : State) : s.draws ≤ s.elapse.draws := by
  unfold State.elapse
  split
  · exact Nat.le_succ _
  · exact Nat.le_refl _

/-- What WRITE_REG's session leaves: an attached peer has written over what it found (R73), and no draw is given back. -/
theorem writeReg_leaves {s : State} (hr : Ready s) {a : Byte} (hok : addressOk a = true) (d : Byte) :
    s.draws ≤ (writeReg a d s).draws ∧ (s.peer.attached = true →
      (writeReg a d s).peer.regs = (writeReg a d s).peer.snap.written (cmdIdx (a &&& 0xFE#8)) d) := by
  obtain ⟨-, -, -, h1, h2, h3⟩ := addressOk_commands a hok
  cases ha : s.peer.attached with
  | true => rw [writeReg_attached hr ha a d h1 h2 h3]; exact ⟨s.elapse_draws, fun _ => rfl⟩
  | false => rw [writeReg_disconnected hr ha a d h1 h2 h3]; exact ⟨Nat.le_refl _, by simp⟩

/-- What BURST_WRITE's session leaves (R73, R120). -/
theorem burstWrite_leaves {s : State} (hr : Ready s) (blk : Block) :
    s.draws ≤ (burstWrite blk s).draws ∧ (s.peer.attached = true →
      (burstWrite blk s).peer.regs = (burstWrite blk s).peer.snap.burstWritten blk) := by
  cases ha : s.peer.attached with
  | true => rw [burstWrite_attached hr ha blk]; exact ⟨s.elapse_draws, fun _ => rfl⟩
  | false => rw [burstWrite_disconnected hr ha blk]; exact ⟨Nat.le_refl _, by simp⟩

/-- BURST_READ gives no draw back either. -/
theorem burstRead_draws {s : State} (hr : Ready s) : s.draws ≤ (burstRead s).draws := by
  cases ha : s.peer.attached with
  | true => rw [burstRead_attached hr ha]; exact s.elapse_draws
  | false => rw [burstRead_disconnected hr ha]; exact Nat.le_add_right _ _

/-- READ_REG's session, whichever peer is attached (R108, R110). -/
theorem readReg_any {s : State} (hr : Ready s) {a : Byte} (hok : addressOk a = true) :
    ∃ v n p, readReg a s = { s.ended (a ||| 0x01#8) 1 v (readEvents (a ||| 0x01#8) v) with draws := n, peer := p } ∧
      p.kind = s.peer.kind ∧ Ready (readReg a s) := by
  obtain ⟨h1, h2, h3, -⟩ := addressOk_commands a hok
  cases ha : s.peer.attached with
  | true =>
    have h := readReg_attached hr ha a h1 h2 h3
    refine ⟨_, _, _, h, rfl, ?_⟩
    rw [h]
    exact ready_of_idle hr.ok rfl hr.pins rfl rfl rfl (fun _ => ⟨rfl, rfl⟩)
  | false =>
    have h := readReg_disconnected hr ha a h1 h2 h3
    refine ⟨_, _, s.peer, h, rfl, ?_⟩
    rw [h]
    exact ready_of_idle hr.ok rfl hr.pins rfl rfl rfl (by simp [State.ended, ha])

/-- BURST_READ's session, whichever peer is attached (R108, R116). -/
theorem burstRead_any {s : State} (hr : Ready s) :
    ∃ blk n p, burstRead s = { s.ended 0xBF#8 8 blk.control (burstReadEvents blk) with buf := blk, draws := n, peer := p } ∧
      p.kind = s.peer.kind ∧ Ready (burstRead s) := by
  cases ha : s.peer.attached with
  | true =>
    have h := burstRead_attached hr ha
    refine ⟨_, _, _, h, rfl, ?_⟩
    rw [h]
    exact ready_of_idle hr.ok rfl hr.pins rfl rfl rfl (fun _ => ⟨rfl, rfl⟩)
  | false =>
    have h := burstRead_disconnected hr ha
    refine ⟨_, _, s.peer, h, rfl, ?_⟩
    rw [h]
    exact ready_of_idle hr.ok rfl hr.pins rfl rfl rfl (by simp [State.ended, ha])

/-- BURST_WRITE's session, whichever peer is attached (R108, R119). -/
theorem burstWrite_any {s : State} (hr : Ready s) (blk : Block) :
    ∃ n p, burstWrite blk s = { s.ended 0xBE#8 8 blk.control (burstWriteEvents blk) with buf := blk, draws := n, peer := p } ∧
      p.kind = s.peer.kind ∧ Ready (burstWrite blk s) := by
  cases ha : s.peer.attached with
  | true =>
    have h := burstWrite_attached hr ha blk
    refine ⟨_, _, h, rfl, ?_⟩
    rw [h]
    exact ready_of_idle hr.ok rfl hr.pins rfl rfl rfl (fun _ => ⟨rfl, rfl⟩)
  | false =>
    have h := burstWrite_disconnected hr ha blk
    refine ⟨s.draws, s.peer, h, rfl, ?_⟩
    rw [h]
    exact ready_of_idle hr.ok rfl hr.pins rfl rfl rfl (by simp [State.ended, ha])

/-- What a completed operation of a ready block answers (R30, R100). -/
theorem runTransport_ready {check : State → Option FaultReason} {body : State → State} {result : State → Result} {s : State}
    (hr : Ready s) (ha : check s = none) (hb : (body s).fault = none) :
    runTransport check body result s = .next ((body s).completed (result (body s))) := by
  unfold runTransport State.faulted
  rw [hr.ok, ha]
  simp [hr.pins, State.complete_of_ok _ hb, State.completed]

/-- SESSION_START's check passes on a ready block. -/
theorem Ready.admitStart {s : State} (hr : Ready s) : admitStart s = none := by simp [Machine.admitStart, hr.idle]

end Sys2Proof.Machine
end

