-- ==== Sys2Proof/Laws/Codec.lean ====
section
/-! SUPPORT. What the shared operations of the codec (42_bcd, 43_register_map) do: completing with a result, the year's
byte, and the digits of a register byte. -/

namespace Sys2Proof.Machine

/-- A codec operation on a block with no fault gives its result and does nothing else. -/
theorem runCodec_ok {s : State} (h : s.fault = none) (r : Result) : runCodec r s = .next (s.completed r) := by
  simp [runCodec, State.complete_of_ok _ h, State.completed]

/-- ENC_YEAR changes no more than the counter of draws. -/
theorem encYear_state (year : Nat) (s : State) : (encYear year s).2 = { s with draws := (encYear year s).2.draws } := by
  unfold encYear; split <;> rfl

theorem encYear_in {year : Nat} (h : 2000 ≤ year ∧ year ≤ 2099) (s : State) : encYear year s = (encYearIn year, s) := by
  unfold encYear; rw [if_pos h]

theorem encYear_out {year : Nat} (h : ¬(2000 ≤ year ∧ year ≤ 2099)) (s : State) :
    encYear year s = (Config.yearByte s.draws, { s with draws := s.draws + 1 }) := by
  unfold encYear; rw [if_neg h]; rfl

/-- The byte of a year in range spells its offset (R187). -/
theorem encYearIn_toNat {year : Nat} (h : 2000 ≤ year ∧ year ≤ 2099) :
    (encYearIn year).toNat = (year - 2000) / 10 * 16 + (year - 2000) % 10 := by
  have key : ∀ k : Nat, k < 100 → (pack (BitVec.ofNat 8 k) 4).toNat = k / 10 * 16 + k % 10 := by decide +kernel
  exact key _ (by omega)

/-- ENC_YEAR's byte is the one R187 names, its draw lying between the counters before and after. -/
theorem encYear_byte (year : Nat) (s : State) : s.draws ≤ (encYear year s).2.draws ∧
    ∀ m n, m ≤ s.draws → (encYear year s).2.draws ≤ n → YearByte year m n (encYear year s).1 := by
  by_cases h : 2000 ≤ year ∧ year ≤ 2099
  · rw [encYear_in h]
    exact ⟨Nat.le_refl _, fun m n _ _ => ⟨fun _ => encYearIn_toNat h, fun hn => absurd h hn⟩⟩
  · rw [encYear_out h]
    exact ⟨Nat.le_succ _, fun m n hm hn => ⟨fun hy => absurd hy h, fun _ => ⟨s.draws, hm, hn, rfl⟩⟩⟩

/-- A codec operation that takes the year's byte. -/
theorem runYearCodec_ok {s : State} (h : s.fault = none) (year : Nat) (result : Byte → Result) :
    runYearCodec year result s = .next ({ s with draws := (encYear year s).2.draws }.completed (result (encYear year s).1)) := by
  have hl : s.faulted = false := by simp [State.faulted, h]
  have hs := encYear_state year s
  have hf : (encYear year s).2.fault = none := by rw [hs]; exact h
  unfold runYearCodec
  rw [hl, if_neg Bool.false_ne_true, runCodec_ok hf]
  rw [← hs]

/-- The two spellings of a packed byte agree. -/
theorem pack_eq_packed (v : Byte) (w : Nat) : pack v w = packed v w := by
  simp [pack, packed, bcdHigh, bcdLow, Nat.mul_comm]

/-- The two spellings of an unpacked byte agree, and the value fits the byte the decoders return (R147). -/
theorem unpackByte_toNat : ∀ w ∈ [1, 2, 3, 4], ∀ b : Byte, (unpackByte b w).toNat = digits b w := by decide +kernel

theorem unpack_eq_digits : ∀ w ∈ [1, 2, 3, 4], ∀ b : Byte, unpack b w = digits b w := by decide +kernel

theorem unpackByte_digits {w : Nat} (h : w ∈ [1, 2, 3, 4]) (b : Byte) : unpackByte b w = BitVec.ofNat 8 (digits b w) := by
  rw [← unpackByte_toNat w h b, BitVec.ofNat_toNat, BitVec.setWidth_eq]

theorem encDow_and : ∀ v : Byte, encDow v = v &&& 0x07#8 := by decide +kernel

theorem decDow_and : ∀ b : Byte, decDow b = b &&& 0x07#8 := by decide +kernel

theorem decDow_toNat : ∀ b : Byte, (decDow b).toNat = b.toNat % 8 := by decide +kernel

end Sys2Proof.Machine
end

