-- ==== Sys2Proof/Laws/Opens.lean ====
section
/-! SUPPORT. The operations that open a session, said once: SESSION_START's check, then a chain of whole sessions that leaves a
ready block ready (41_transport R100, 44_sequences R200-R227). -/

namespace Sys2Proof.Machine

/-- Every register address of the block is admitted. -/
theorem regName_addressOk (r : RegName) : addressOk r.writeAddr = true ∧ addressOk r.readAddr = true := by
  cases r <;> decide

theorem ready_readReg {s : State} (h : Ready s) {a : Byte} (hok : addressOk a = true) : Ready (readReg a s) := by
  obtain ⟨_, _, _, _, _, h'⟩ := readReg_any h hok
  exact h'

theorem ready_writeReg {s : State} (h : Ready s) {a : Byte} (hok : addressOk a = true) (d : Byte) : Ready (writeReg a d s) := by
  obtain ⟨_, _, _, _, h'⟩ := writeReg_any h hok d
  exact h'

theorem ready_burstRead {s : State} (h : Ready s) : Ready (burstRead s) := by
  obtain ⟨_, _, _, _, _, h'⟩ := burstRead_any h
  exact h'

theorem ready_burstWrite {s : State} (h : Ready s) (blk : Block) : Ready (burstWrite blk s) := by
  obtain ⟨_, _, _, _, h'⟩ := burstWrite_any h blk
  exact h'

theorem ready_clearWp {s : State} (h : Ready s) : Ready (clearWp s) := ready_writeReg h (by decide) _

theorem ready_encYear {s : State} (h : Ready s) (year : Nat) : Ready (encYear year s).2 := by
  unfold encYear; split
  · exact h
  · exact h.drawn _

theorem ready_setFieldBody {s : State} (h : Ready s) {a : Byte} (hok : addressOk a = true) (b : Byte) :
    Ready (setFieldBody a b s) := ready_writeReg (ready_clearWp h) hok b

theorem ready_initializeBody {s : State} (h : Ready s) : Ready (initializeBody s) :=
  ready_writeReg (ready_clearWp h) (by decide) _

theorem ready_setYearBody {s : State} (h : Ready s) (year : Nat) : Ready (setYearBody year s) :=
  ready_writeReg (ready_encYear (ready_clearWp h) year) (by decide) _

theorem ready_setFullBody {s : State} (h : Ready s) (ts : Timestamp) : Ready (setFullBody ts s) :=
  ready_burstWrite (ready_encYear (ready_clearWp h) ts.year) _

theorem ready_setDateBody {s : State} (h : Ready s) (year : Nat) (month day dow : Byte) :
    Ready (setDateBody year month day dow s) := by
  have h1 := ready_burstRead (ready_clearWp h)
  unfold setDateBody
  generalize burstRead (clearWp s) = u at h1 ⊢
  exact ready_burstWrite (ready_encYear h1 year) _

theorem ready_setTimeBody {s : State} (h : Ready s) (hour minute second : Byte) : Ready (setTimeBody hour minute second s) := by
  have h1 := ready_burstRead (ready_clearWp h)
  unfold setTimeBody
  generalize burstRead (clearWp s) = u at h1 ⊢
  exact ready_burstWrite h1 _

/-- Wherever it raises no fault, a body leaves its session closed. -/
def Ends (body : State → State) : Prop := ∀ s, (body s).fault = none → (body s).seq = .idle

theorem idle_of_sessionEnd (u : State) (h : (sessionEnd u).fault = none) : (sessionEnd u).seq = .idle := by
  unfold sessionEnd at h ⊢
  by_cases hf : u.fault = none
  · cases ha : admitEnd u with
    | none => rw [subOp_admitted hf ha, endBody_eq hf]
    | some r =>
      rw [subOp_refused hf ha] at h
      cases h
  · rw [subOp_faulted hf] at h
    exact absurd h hf

theorem ends_readReg (a : Byte) : Ends (readReg a) := fun _ => idle_of_sessionEnd _

theorem ends_writeReg (a d : Byte) : Ends (writeReg a d) := fun _ => idle_of_sessionEnd _

theorem ends_burstRead : Ends burstRead := fun _ => idle_of_sessionEnd _

theorem ends_burstWrite (blk : Block) : Ends (burstWrite blk) := fun _ => idle_of_sessionEnd _

theorem ends_setDateBody (year : Nat) (month day dow : Byte) : Ends (setDateBody year month day dow) := by
  intro s
  unfold setDateBody
  generalize burstRead (clearWp s) = u
  exact ends_burstWrite _ _

theorem ends_setTimeBody (hour minute second : Byte) : Ends (setTimeBody hour minute second) := by
  intro s
  unfold setTimeBody
  generalize burstRead (clearWp s) = u
  exact ends_burstWrite _ _

/-- What an operation that opens a session is made of: SESSION_START's check, a body that closes its session and keeps a ready
block ready unless it is SESSION_START's own, and a result. -/
def Opens (i : Instr) : Prop :=
  ∃ check body result, exec i = runTransport check body result ∧ (∀ s, check s = admitStart s) ∧
    (i ≠ .sessionStart → Ends body ∧ ∀ s, Ready s → Ready (body s))

theorem opens_wireWrite {i : Instr} (r : RegName) (d : Byte) (h : exec i = wireWriteOp r d) : Opens i :=
  ⟨admitStart, writeReg r.writeAddr d, noResult, h, fun _ => rfl, fun _ => ⟨ends_writeReg _ _, fun _ hr => ready_writeReg hr (regName_addressOk r).1 d⟩⟩

theorem opens_wireRead {i : Instr} (r : RegName) (h : exec i = wireReadOp r) : Opens i :=
  ⟨admitStart, readReg r.readAddr, srResult, h, fun _ => rfl, fun _ => ⟨ends_readReg _, fun _ hr => ready_readReg hr (regName_addressOk r).2⟩⟩

theorem opens_getField {i : Instr} (a : Byte) (f : Byte → Result) (hok : addressOk a = true) (h : exec i = getField a f) :
    Opens i := ⟨admitStart, readReg a, (fun s => f s.sr), h, fun _ => rfl, fun _ => ⟨ends_readReg _, fun _ hr => ready_readReg hr hok⟩⟩

theorem opens_getBlock {i : Instr} (f : Timestamp → Result) (h : exec i = getBlock f) : Opens i :=
  ⟨admitStart, burstRead, (fun s => f (decTimestamp s.buf)), h, fun _ => rfl, fun _ => ⟨ends_burstRead, fun _ hr => ready_burstRead hr⟩⟩

theorem opens_setField {i : Instr} (a b : Byte) (hok : addressOk a = true) (h : exec i = setField a b) : Opens i :=
  ⟨admitStart, setFieldBody a b, noResult, h, fun _ => rfl, fun _ => ⟨fun _ => ends_writeReg _ _ _, fun _ hr => ready_setFieldBody hr hok b⟩⟩

/-- Every operation of the class is made so. -/
theorem exec_opens {i : Instr} (h : opensSession i = true) : Opens i := by
  cases i with
  | wrSeconds d => exact opens_wireWrite .seconds d rfl
  | rdSeconds => exact opens_wireRead .seconds rfl
  | wrMinutes d => exact opens_wireWrite .minutes d rfl
  | rdMinutes => exact opens_wireRead .minutes rfl
  | wrHours d => exact opens_wireWrite .hours d rfl
  | rdHours => exact opens_wireRead .hours rfl
  | wrDate d => exact opens_wireWrite .date d rfl
  | rdDate => exact opens_wireRead .date rfl
  | wrMonth d => exact opens_wireWrite .month d rfl
  | rdMonth => exact opens_wireRead .month rfl
  | wrDow d => exact opens_wireWrite .dow d rfl
  | rdDow => exact opens_wireRead .dow rfl
  | wrYear d => exact opens_wireWrite .year d rfl
  | rdYear => exact opens_wireRead .year rfl
  | wrControl d => exact opens_wireWrite .control d rfl
  | rdControl => exact opens_wireRead .control rfl
  | wrTrickle d => exact opens_wireWrite .trickle d rfl
  | rdTrickle => exact opens_wireRead .trickle rfl
  | burstWr blk => exact ⟨admitStart, burstWrite blk, noResult, rfl, fun _ => rfl, fun _ => ⟨ends_burstWrite _, fun _ hr => ready_burstWrite hr blk⟩⟩
  | burstRd => exact ⟨admitStart, burstRead, bufResult, rfl, fun _ => rfl, fun _ => ⟨ends_burstRead, fun _ hr => ready_burstRead hr⟩⟩
  | sessionStart => exact ⟨admitStart, startBody, noResult, rfl, fun _ => rfl, fun hne => absurd rfl hne⟩
  | readReg a =>
    have hok : addressOk a = true := h
    exact ⟨admitReg a, readReg a, srResult, rfl, fun _ => by simp [admitReg, hok], fun _ => ⟨ends_readReg _, fun _ hr => ready_readReg hr hok⟩⟩
  | writeReg a d =>
    have hok : addressOk a = true := h
    exact ⟨admitReg a, writeReg a d, noResult, rfl, fun _ => by simp [admitReg, hok], fun _ => ⟨ends_writeReg _ _, fun _ hr => ready_writeReg hr hok d⟩⟩
  | burstRead => exact ⟨admitStart, burstRead, bufResult, rfl, fun _ => rfl, fun _ => ⟨ends_burstRead, fun _ hr => ready_burstRead hr⟩⟩
  | burstWrite blk => exact ⟨admitStart, burstWrite blk, noResult, rfl, fun _ => rfl, fun _ => ⟨ends_burstWrite _, fun _ hr => ready_burstWrite hr blk⟩⟩
  | clearWp => exact ⟨admitStart, clearWp, noResult, rfl, fun _ => rfl, fun _ => ⟨ends_writeReg _ _, fun _ hr => ready_clearWp hr⟩⟩
  | initChip => exact ⟨admitStart, initializeBody, fun _ => .flag true, rfl, fun _ => rfl, fun _ => ⟨fun _ => ends_writeReg _ _ _, fun _ hr => ready_initializeBody hr⟩⟩
  | getSecond => exact opens_getField 0x80#8 (fun d => .byte (decSeconds d)) (by decide) rfl
  | getMinute => exact opens_getField 0x82#8 (fun d => .byte (decMinutes d)) (by decide) rfl
  | getHour => exact opens_getField 0x84#8 (fun d => .byte (hour24view d)) (by decide) rfl
  | getDay => exact opens_getField 0x86#8 (fun d => .byte (decDate d)) (by decide) rfl
  | getMonth => exact opens_getField 0x88#8 (fun d => .byte (decMonth d)) (by decide) rfl
  | getDow => exact opens_getField 0x8A#8 (fun d => .byte (decDow d)) (by decide) rfl
  | getYear => exact opens_getField 0x8C#8 (fun d => .year (decYear d)) (by decide) rfl
  | getFull => exact opens_getBlock .timestamp rfl
  | getDateOnly => exact opens_getBlock (fun t => .date t.year t.month t.day t.dow) rfl
  | getTimeOnly => exact opens_getBlock (fun t => .time t.hour t.minute t.second) rfl
  | setSecond v => exact opens_setField 0x80#8 (encSeconds v) (by decide) rfl
  | setMinute v => exact opens_setField 0x82#8 (encMinutes v) (by decide) rfl
  | setHour v => exact opens_setField 0x84#8 (encHours24 v) (by decide) rfl
  | setDay v => exact opens_setField 0x86#8 (encDate v) (by decide) rfl
  | setMonth v => exact opens_setField 0x88#8 (encMonth v) (by decide) rfl
  | setDow v => exact opens_setField 0x8A#8 (encDow v) (by decide) rfl
  | setYear year =>
    exact ⟨admitStart, setYearBody year, noResult, rfl, fun _ => rfl, fun _ => ⟨fun _ => ends_writeReg _ _ _, fun _ hr => ready_setYearBody hr year⟩⟩
  | setFull ts => exact ⟨admitStart, setFullBody ts, noResult, rfl, fun _ => rfl, fun _ => ⟨fun _ => ends_burstWrite _ _, fun _ hr => ready_setFullBody hr ts⟩⟩
  | setDateOnly year month day dow =>
    exact ⟨admitStart, setDateBody year month day dow, noResult, rfl, fun _ => rfl,
      fun _ => ⟨ends_setDateBody _ _ _ _, fun _ hr => ready_setDateBody hr year month day dow⟩⟩
  | setTimeOnly hour minute second =>
    exact ⟨admitStart, setTimeBody hour minute second, noResult, rfl, fun _ => rfl,
      fun _ => ⟨ends_setTimeBody _ _ _, fun _ hr => ready_setTimeBody hr hour minute second⟩⟩
  | sessionEnd | shiftOut _ _ | shiftIn => cases h
  | bcdDecode _ _ | bcdEncHigh _ | bcdEncLow _ | bcdPack _ _ => cases h
  | decSeconds _ | decMinutes _ | decHours _ | decDate _ | decMonth _ | decDow _ | decYear _ | decControl _ | decBlock _ => cases h
  | encSeconds _ | encMinutes _ | encHours24 _ | encDate _ | encMonth _ | encDow _ | encYear _ | encControl | encBlock _ => cases h
  | mergeDate _ _ _ _ _ | mergeTime _ _ _ _ => cases h

end Sys2Proof.Machine
end

