-- ==== Sys2Proof/Laws/Chains.lean ====
section
/-! SUPPORT. Whole sessions in a row, said once whichever peer is attached: the events they send, what they leave ready, in the
buffer and in the chip, and the draws between them (44_sequences R200-R227). -/

namespace Sys2Proof.Machine

/-- Between two ready states, whole sessions sent these events; nothing was given to the host and no draw given back. -/
structure Sent (s t : State) (ev : List Event) : Prop where
  ready   : Ready t
  trace   : t.trace = s.trace ++ ev
  results : t.results = s.results
  draws   : s.draws ≤ t.draws
  kind    : t.peer.kind = s.peer.kind

theorem Sent.attached {s t : State} {ev : List Event} (h : Sent s t ev) : t.peer.attached = s.peer.attached := by
  unfold Peer.attached
  rw [h.kind]

theorem Sent.trans {s t u : State} {xs ys : List Event} (h : Sent s t xs) (k : Sent t u ys) : Sent s u (xs ++ ys) :=
  ⟨k.ready, by rw [k.trace, h.trace, List.append_assoc], by rw [k.results, h.results], Nat.le_trans h.draws k.draws,
    by rw [k.kind, h.kind]⟩

/-- WRITE_REG (R113). -/
theorem sent_writeReg {s : State} (hr : Ready s) {a : Byte} (hok : addressOk a = true) (d : Byte) :
    Sent s (writeReg a d s) (writeEvents (a &&& 0xFE#8) d) ∧ (writeReg a d s).buf = s.buf := by
  obtain ⟨n, p, h, hk, h'⟩ := writeReg_any hr hok d
  refine ⟨⟨h', ?_, ?_, (writeReg_leaves hr hok d).1, ?_⟩, ?_⟩ <;> rw [h]
  · simp [State.trace, State.ended]
  · rfl
  · exact hk
  · rfl

/-- BURST_READ (R116), the block it samples left in the buffer. -/
theorem sent_burstRead {s : State} (hr : Ready s) : Sent s (burstRead s) (burstReadEvents (burstRead s).buf) := by
  obtain ⟨blk, n, p, h, hk, h'⟩ := burstRead_any hr
  refine ⟨h', ?_, ?_, burstRead_draws hr, ?_⟩ <;> rw [h]
  · simp [State.trace, State.ended]
  · rfl
  · exact hk

/-- BURST_WRITE (R119). -/
theorem sent_burstWrite {s : State} (hr : Ready s) (blk : Block) :
    Sent s (burstWrite blk s) (burstWriteEvents blk) ∧ (burstWrite blk s).buf = blk := by
  obtain ⟨n, p, h, hk, h'⟩ := burstWrite_any hr blk
  refine ⟨⟨h', ?_, ?_, (burstWrite_leaves hr blk).1, ?_⟩, ?_⟩ <;> rw [h]
  · simp [State.trace, State.ended]
  · rfl
  · exact hk

/-- CLEAR_WP (R201). -/
theorem sent_clearWp {s : State} (hr : Ready s) : Sent s (clearWp s) (writeEvents 0x8E#8 0#8) ∧ (clearWp s).buf = s.buf :=
  sent_writeReg hr (a := 0x8E#8) (by decide) encControl

/-- ENC_YEAR sends nothing, and its byte is R187's. -/
theorem sent_encYear {s : State} (hr : Ready s) (year : Nat) : Sent s (encYear year s).2 [] ∧ (encYear year s).2.buf = s.buf := by
  have h := encYear_state year s
  refine ⟨⟨ready_encYear hr year, ?_, ?_, (encYear_byte year s).1, ?_⟩, ?_⟩ <;> rw [h]
  · exact (List.append_nil _).symm

end Sys2Proof.Machine
end

