-- ==== Sys2Proof/Laws/Decode.lean ====
section
/-! SUPPORT. What the decoder's readers do with the words the encoder writes (30_encoding R95, R97, R99). -/

namespace Sys2Proof

@[simp] theorem readU8_toNat (b : Byte) (r : List Nat) : readU8 (b.toNat :: r) = some (b, r) := by
  have := b.isLt
  simp [readU8]
  omega

@[simp] theorem readU4_toNat (b : Nibble) (r : List Nat) : readU4 (b.toNat :: r) = some (b, r) := by
  have := b.isLt
  simp [readU4]
  omega

@[simp] theorem readBool_toNat (b : Bool) (r : List Nat) : readBool (b.toNat :: r) = some (b, r) := by
  cases b <;> simp [readBool]

@[simp] theorem readNat_cons (n : Nat) (r : List Nat) : readNat (n :: r) = some (n, r) := rfl

/-- The code of a width is the width less one (log 2). -/
theorem readWidth_pred {w : Nat} (h : 1 ≤ w ∧ w ≤ 4) (r : List Nat) : readWidth ((w - 1) :: r) = some (w, r) := by
  have h1 : w - 1 < 4 := by omega
  have h2 : w - 1 + 1 = w := by omega
  simp [readWidth, h1, h2]

@[simp] theorem readBlock_words_append (b : Block) (r : List Nat) : readBlock (b.words ++ r) = some (b, r) := by
  simp [readBlock, Block.words]

@[simp] theorem readBlock_words (b : Block) : readBlock b.words = some (b, []) := by
  simpa using readBlock_words_append b []

@[simp] theorem readTimestamp_words (t : Timestamp) : readTimestamp t.words = some (t, []) := by
  simp [readTimestamp, Timestamp.words]

@[simp] theorem takeWith_some {α : Type} {read : List Nat → Option (α × List Nat)} {k : α → List Nat → Decoded} {ws r : List Nat}
    {a : α} (h : read ws = some (a, r)) : takeWith read k ws = k a r := by simp [takeWith, h]

/-- A request of a block operation goes to the OPC's row. -/
theorem decode_opRequest (opc : Nat) (ws : List Nat) : decode (opRequest opc ws) = decodeOp opc ws := rfl

/-- A request of an admitted wire command goes to its row. -/
theorem decodeCmd_byte (w : WireCmd) : decodeCmd w.byte = some w := by
  cases w with
  | wr r => cases r <;> decide
  | rd r => cases r <;> decide
  | burstWr => decide
  | burstRd => decide

theorem decode_wireRequest (w : WireCmd) (data : List Nat) : decode (wireRequest w data) =
    match w with
    | .wr r => wireWrite r data
    | .rd r => wireRead r data
    | .burstWr => take1 readBlock .burstWr data
    | .burstRd => take0 .burstRd data := by
  show decodeWire w.byte.toNat data = _
  have h : w.byte.toNat < 256 := w.byte.isLt
  unfold decodeWire
  rw [if_pos h]
  simp only [BitVec.ofNat_toNat, BitVec.setWidth_eq, decodeCmd_byte]
  cases w <;> rfl

end Sys2Proof
end

