-- ==== Sys2Proof/Laws/Events.lean ====
section
/-! SUPPORT. Counting over lists of events: lengths, clock edges and sums of minimum delays, piece by piece (R33 item 4,
R104-R119, R281). -/

namespace Sys2Proof.Machine

theorem length_flatMap_const {α β : Type} {f : α → List β} {n : Nat} (h : ∀ k, (f k).length = n) (l : List α) :
    (l.flatMap f).length = n * l.length := by
  induction l with
  | nil => rfl
  | cons a l ih => simp only [List.flatMap_cons, List.length_append, List.length_cons, h, ih, Nat.mul_succ]; omega

/-! ## Minimum durations -/

theorem minDuration_append (xs ys : List Event) : minDuration (xs ++ ys) = minDuration xs + minDuration ys := by
  induction xs with
  | nil => simp [minDuration]
  | cons e xs ih => cases e <;> simp [minDuration, ih, Nat.add_assoc]

theorem minDuration_flatMap_const {α : Type} {f : α → List Event} {n : Nat} (h : ∀ k, minDuration (f k) = n) (l : List α) :
    minDuration (l.flatMap f) = n * l.length := by
  induction l with
  | nil => rfl
  | cons a l ih => simp only [List.flatMap_cons, minDuration_append, List.length_cons, h, ih, Nat.mul_succ]; omega

/-! ## Clock edges -/

/-- The clock level after a list of events. -/
def clkAfter (clk : Level) : List Event → Level
  | [] => clk
  | .clk l :: es => clkAfter l es
  | _ :: es => clkAfter clk es

theorem clkAfter_append (c : Level) (xs ys : List Event) : clkAfter c (xs ++ ys) = clkAfter (clkAfter c xs) ys := by
  induction xs generalizing c with
  | nil => rfl
  | cons e xs ih => cases e <;> simp [clkAfter, ih]

theorem risingEdges_append (c : Level) (xs ys : List Event) :
    risingEdges c (xs ++ ys) = risingEdges c xs + risingEdges (clkAfter c xs) ys := by
  induction xs generalizing c with
  | nil => simp [risingEdges, clkAfter]
  | cons e xs ih => cases e <;> simp [risingEdges, clkAfter, ih, Nat.add_assoc]

theorem fallingEdges_append (c : Level) (xs ys : List Event) :
    fallingEdges c (xs ++ ys) = fallingEdges c xs + fallingEdges (clkAfter c xs) ys := by
  induction xs generalizing c with
  | nil => simp [fallingEdges, clkAfter]
  | cons e xs ih => cases e <;> simp [fallingEdges, clkAfter, ih, Nat.add_assoc]

/-- A repeated piece that starts and ends with the clock at c. -/
theorem edges_flatMap {α : Type} {f : α → List Event} {c : Level} {n m : Nat}
    (h : ∀ k, risingEdges c (f k) = n ∧ fallingEdges c (f k) = m ∧ clkAfter c (f k) = c) (l : List α) :
    risingEdges c (l.flatMap f) = n * l.length ∧ fallingEdges c (l.flatMap f) = m * l.length ∧ clkAfter c (l.flatMap f) = c := by
  induction l with
  | nil => exact ⟨rfl, rfl, rfl⟩
  | cons a l ih =>
    obtain ⟨h1, h2, h3⟩ := h a
    obtain ⟨i1, i2, i3⟩ := ih
    refine ⟨?_, ?_, ?_⟩
    · rw [List.flatMap_cons, risingEdges_append, h1, h3, i1, List.length_cons, Nat.mul_succ, Nat.add_comm]
    · rw [List.flatMap_cons, fallingEdges_append, h2, h3, i2, List.length_cons, Nat.mul_succ, Nat.add_comm]
    · rw [List.flatMap_cons, clkAfter_append, h3, i3]

/-! ## One bit of each direction -/

theorem edges_outBitEvents (l : Level) : risingEdges low (outBitEvents l) = 1 ∧ fallingEdges low (outBitEvents l) = 1 ∧
    clkAfter low (outBitEvents l) = low ∧ (outBitEvents l).length = 6 ∧ minDuration (outBitEvents l) = 3 := ⟨rfl, rfl, rfl, rfl, rfl⟩

theorem edges_outReleaseEvents (l : Level) : risingEdges low (outReleaseEvents l) = 1 ∧ fallingEdges low (outReleaseEvents l) = 0 ∧
    clkAfter low (outReleaseEvents l) = high ∧ (outReleaseEvents l).length = 5 ∧ minDuration (outReleaseEvents l) = 2 :=
  ⟨rfl, rfl, rfl, rfl, rfl⟩

theorem edges_inBitEvents (l : Level) : risingEdges low (inBitEvents l) = 1 ∧ fallingEdges low (inBitEvents l) = 1 ∧
    clkAfter low (inBitEvents l) = low ∧ (inBitEvents l).length = 5 ∧ minDuration (inBitEvents l) = 2 := ⟨rfl, rfl, rfl, rfl, rfl⟩

/-- The first bit of a SHIFT_IN after a release makes no rising edge (R104, R106). -/
theorem edges_inBitEvents_high (l : Level) : risingEdges high (inBitEvents l) = 0 ∧ fallingEdges high (inBitEvents l) = 1 ∧
    clkAfter high (inBitEvents l) = low := ⟨rfl, rfl, rfl⟩

end Sys2Proof.Machine
end

