-- ==== Sys2Proof/Laws/Exec.lean ====
section
/-! SUPPORT. Everything an instruction can do, said once: it does nothing, raises a fault, or completes after a chain of
framing operations, buffer writes and draws (41_transport R98, R100). -/

namespace Sys2Proof.Machine

/-- One piece of an operation's pseudocode. -/
inductive Piece : State → State → Prop where
  | sessionStart (s : State) : Piece s (sessionStart s)
  | sessionEnd (s : State) : Piece s (sessionEnd s)
  | shiftOut (b : Byte) (rel : Bool) (s : State) : Piece s (shiftOut b rel s)
  | shiftIn (s : State) : Piece s (shiftIn s)
  | bufRead (k : Nat) (s : State) : Piece s (s.live fun s => { s with buf := s.buf.set k s.sr })
  | bufWrite (k : Nat) (v : Byte) (s : State) : Piece s (s.live fun s => { s with buf := s.buf.set k v })
  | draw (s : State) : Piece s { s with draws := s.draws + 1 }

/-- A chain of pieces. -/
abbrev Chain : State → State → Prop := Relation.ReflTransGen Piece

theorem chain_foldl {α : Type} {f : State → α → State} (h : ∀ s a, Chain s (f s a)) (l : List α) (s : State) :
    Chain s (l.foldl f s) := by
  induction l generalizing s with
  | nil => exact .refl
  | cons a l ih => exact (h s a).trans (ih _)

theorem chain_readReg (a : Byte) (s : State) : Chain s (readReg a s) :=
  (((Relation.ReflTransGen.single (.sessionStart s)).tail (.shiftOut _ _ _)).tail (.shiftIn _)).tail (.sessionEnd _)

theorem chain_writeReg (a d : Byte) (s : State) : Chain s (writeReg a d s) :=
  (((Relation.ReflTransGen.single (.sessionStart s)).tail (.shiftOut _ _ _)).tail (.shiftOut _ _ _)).tail (.sessionEnd _)

theorem chain_burstRead (s : State) : Chain s (burstRead s) :=
  ((((Relation.ReflTransGen.single (.sessionStart s)).tail (.shiftOut _ _ _)).trans
    (chain_foldl (f := burstReadByte) (fun s k => (Relation.ReflTransGen.single (.shiftIn s)).tail (.bufRead k _)) _ _))).tail
    (.sessionEnd _)

theorem chain_burstWrite (blk : Block) (s : State) : Chain s (burstWrite blk s) :=
  ((((Relation.ReflTransGen.single (.sessionStart s)).tail (.shiftOut _ _ _)).trans
    (chain_foldl (f := burstWriteByte blk)
      (fun s k => (Relation.ReflTransGen.single (.bufWrite k _ s)).tail (.shiftOut _ _ _)) _ _))).tail (.sessionEnd _)

theorem chain_encYear (year : Nat) (s : State) : Chain s (encYear year s).2 := by
  unfold encYear; split
  · exact .refl
  · exact .single (.draw s)

theorem chain_clearWp (s : State) : Chain s (clearWp s) := chain_writeReg _ _ s

theorem chain_setFieldBody (a b : Byte) (s : State) : Chain s (setFieldBody a b s) :=
  (chain_clearWp s).trans (chain_writeReg _ _ _)

theorem chain_withYear (year : Nat) {f : Byte → State → State} (h : ∀ y s, Chain s (f y s)) (s : State) :
    Chain s (withYear year f s) := (chain_encYear year s).trans (h _ _)

theorem chain_initializeBody (s : State) : Chain s (initializeBody s) := (chain_clearWp s).trans (chain_writeReg _ _ _)

theorem chain_setTimeBody (hour minute second : Byte) (s : State) : Chain s (setTimeBody hour minute second s) := by
  have h1 := (chain_clearWp s).trans (chain_burstRead (clearWp s))
  unfold setTimeBody
  generalize burstRead (clearWp s) = u at h1 ⊢
  unfold writeMergedTime
  exact h1.trans (chain_burstWrite _ u)

/-! No operation's check raises F_CONTENTION (R241 row 13). -/

theorem admitStart_ne (s : State) : admitStart s ≠ some .contention := by unfold admitStart; split <;> simp

theorem admitEnd_ne (s : State) : admitEnd s ≠ some .contention := by
  unfold admitEnd; repeat' split
  all_goals simp

theorem admitShiftOut_ne (b : Byte) (rel : Bool) (s : State) : admitShiftOut b rel s ≠ some .contention := by
  unfold admitShiftOut; repeat' split
  all_goals simp

theorem admitShiftIn_ne (s : State) : admitShiftIn s ≠ some .contention := by
  unfold admitShiftIn; repeat' split
  all_goals simp

theorem admitReg_ne (a : Byte) (s : State) : admitReg a s ≠ some .contention := by
  unfold admitReg; split
  · simp
  · exact admitStart_ne s

/-- What the pieces of an admitted pin operation make: the framing operations run their pseudocode, which is the piece since
its check passed. -/
def Chained (check : State → Option FaultReason) (body : State → State) : Prop :=
  (∀ s, check s ≠ some .contention) ∧ ∀ s, s.fault = none → check s = none → Chain s (body s)

theorem chained_of {check : State → Option FaultReason} {body : State → State} (h : ∀ s, Chain s (body s))
    (hn : ∀ s, check s ≠ some .contention := by first | exact admitStart_ne | exact admitReg_ne _) :
    Chained check body := ⟨hn, fun s _ _ => h s⟩

theorem chained_framing {check : State → Option FaultReason} {body : State → State} (h : ∀ s, Piece s (subOp check body s))
    (hn : ∀ s, check s ≠ some .contention := by
      first | exact admitStart_ne | exact admitEnd_ne | exact admitShiftOut_ne _ _ | exact admitShiftIn_ne) :
    Chained check body := by
  refine ⟨hn, fun s hf ha => ?_⟩
  have : subOp check body s = body s := by simp [subOp, State.live, State.faulted, hf, ha]
  rw [← this]
  exact .single (h s)

/-- The four ways an instruction's meaning is built. -/
inductive Form : (State → Host.Outcome State Fault Refusal) → Prop where
  | transport {check : State → Option FaultReason} {body : State → State} (result : State → Result)
      (h : Chained check body) : Form (runTransport check body result)
  | codec (r : Result) : Form (runCodec r)
  | yearCodec (year : Nat) (f : Byte → Result) : Form (runYearCodec year f)
  | pack (v : Byte) (w : Nat) : Form (execBcdPack v w)

theorem form_setField (a b : Byte) : Form (setField a b) := .transport _ (chained_of (chain_setFieldBody a b))

theorem form_getField (a : Byte) (result : Byte → Result) : Form (getField a result) :=
  .transport (fun s => result s.sr) (chained_of (chain_readReg a))

theorem form_getBlock (result : Timestamp → Result) : Form (getBlock result) :=
  .transport (fun s => result (decTimestamp s.buf)) (chained_of chain_burstRead)

theorem form_wireWrite (r : RegName) (d : Byte) : Form (wireWriteOp r d) := .transport _ (chained_of (chain_writeReg _ d))

theorem form_wireRead (r : RegName) : Form (wireReadOp r) := .transport _ (chained_of (chain_readReg _))

/-- Every instruction's meaning has one of the four forms. -/
theorem exec_form (i : Instr) : Form (exec i) := by
  cases i with
  | wrSeconds d => exact form_wireWrite _ d
  | rdSeconds => exact form_wireRead _
  | wrMinutes d => exact form_wireWrite _ d
  | rdMinutes => exact form_wireRead _
  | wrHours d => exact form_wireWrite _ d
  | rdHours => exact form_wireRead _
  | wrDate d => exact form_wireWrite _ d
  | rdDate => exact form_wireRead _
  | wrMonth d => exact form_wireWrite _ d
  | rdMonth => exact form_wireRead _
  | wrDow d => exact form_wireWrite _ d
  | rdDow => exact form_wireRead _
  | wrYear d => exact form_wireWrite _ d
  | rdYear => exact form_wireRead _
  | wrControl d => exact form_wireWrite _ d
  | rdControl => exact form_wireRead _
  | wrTrickle d => exact form_wireWrite _ d
  | rdTrickle => exact form_wireRead _
  | burstWr blk => exact .transport _ (chained_of (chain_burstWrite blk))
  | burstRd => exact .transport _ (chained_of chain_burstRead)
  | sessionStart => exact .transport _ (chained_framing .sessionStart)
  | sessionEnd => exact .transport _ (chained_framing .sessionEnd)
  | shiftOut b rel => exact .transport _ (chained_framing (.shiftOut b rel))
  | shiftIn => exact .transport _ (chained_framing .shiftIn)
  | readReg a => exact .transport _ (chained_of (chain_readReg a))
  | writeReg a d => exact .transport _ (chained_of (chain_writeReg a d))
  | burstRead => exact .transport _ (chained_of chain_burstRead)
  | burstWrite blk => exact .transport _ (chained_of (chain_burstWrite blk))
  | bcdDecode h l => exact .codec _
  | bcdEncHigh v => exact .codec _
  | bcdEncLow v => exact .codec _
  | bcdPack v w => exact .pack v w
  | decSeconds b => exact .codec _
  | decMinutes b => exact .codec _
  | decHours b => exact .codec _
  | decDate b => exact .codec _
  | decMonth b => exact .codec _
  | decDow b => exact .codec _
  | decYear b => exact .codec _
  | decControl b => exact .codec _
  | decBlock blk => exact .codec _
  | encSeconds v => exact .codec _
  | encMinutes v => exact .codec _
  | encHours24 v => exact .codec _
  | encDate v => exact .codec _
  | encMonth v => exact .codec _
  | encDow v => exact .codec _
  | encYear year => exact .yearCodec _ _
  | encControl => exact .codec _
  | encBlock ts => exact .yearCodec ts.year fun y => .block (encBlock ts y)
  | mergeDate blk year month day dow => exact .yearCodec year fun y => .block (mergeDate blk y month day dow)
  | mergeTime blk hour minute second => exact .codec _
  | clearWp => exact .transport _ (chained_of chain_clearWp)
  | initChip => exact .transport (fun _ => .flag true) (chained_of chain_initializeBody)
  | getSecond => exact form_getField 0x80#8 (fun d => .byte (decSeconds d))
  | getMinute => exact form_getField 0x82#8 (fun d => .byte (decMinutes d))
  | getHour => exact form_getField 0x84#8 (fun d => .byte (hour24view d))
  | getDay => exact form_getField 0x86#8 (fun d => .byte (decDate d))
  | getMonth => exact form_getField 0x88#8 (fun d => .byte (decMonth d))
  | getDow => exact form_getField 0x8A#8 (fun d => .byte (decDow d))
  | getYear => exact form_getField 0x8C#8 (fun d => .year (decYear d))
  | getFull => exact form_getBlock _
  | getDateOnly => exact form_getBlock fun t => .date t.year t.month t.day t.dow
  | getTimeOnly => exact form_getBlock fun t => .time t.hour t.minute t.second
  | setSecond v => exact form_setField _ _
  | setMinute v => exact form_setField _ _
  | setHour v => exact form_setField _ _
  | setDay v => exact form_setField _ _
  | setMonth v => exact form_setField _ _
  | setDow v => exact form_setField _ _
  | setYear year =>
    exact .transport (body := setYearBody year) _ (chained_of fun s => (chain_clearWp s).trans (chain_withYear _ (fun _ _ => chain_writeReg _ _ _) _))
  | setFull ts =>
    exact .transport (body := setFullBody ts) _ (chained_of fun s => (chain_clearWp s).trans (chain_withYear _ (fun _ _ => chain_burstWrite _ _) _))
  | setDateOnly year month day dow =>
    exact .transport (body := setDateBody year month day dow) _ (chained_of fun s => ((chain_clearWp s).trans (chain_burstRead _)).trans
      (chain_withYear _ (fun _ _ => chain_burstWrite _ _) _))
  | setTimeOnly hour minute second => exact .transport _ (chained_of (chain_setTimeBody hour minute second))

/-- Everything an instruction that answers a next state can do. -/
theorem exec_cases {i : Instr} {s t : State} (h : exec i s = .next t) :
    (s.fault ≠ none ∧ t = s) ∨ (s.fault = none ∧ ∃ r, r ≠ .contention ∧ t = { s with fault := some r }) ∨
      (s.fault = none ∧ ∃ u r, Chain s u ∧ t = u.complete r) := by
  have hform := exec_form i
  generalize exec i = f at hform h
  by_cases hf : s.fault = none
  · have hl : s.faulted = false := by simp [State.faulted, hf]
    cases hform with
    | transport result hb =>
      rename_i check body
      unfold runTransport at h
      rw [if_neg (by simp [hl])] at h
      split at h
      · rename_i r hr
        injection h with h
        exact .inr (.inl ⟨hf, r, fun hc => hb.1 s (by rw [hr, hc]), by rw [← h]; simp [State.raise, State.live, hl]⟩)
      · rename_i ha
        split at h
        · injection h with h
          exact .inr (.inr ⟨hf, body s, result (body s), hb.2 s hf ha, h.symm⟩)
        · cases h
    | codec r =>
      injection h with h
      exact .inr (.inr ⟨hf, s, r, .refl, h.symm⟩)
    | yearCodec year f =>
      unfold runYearCodec at h
      rw [if_neg (by simp [hl])] at h
      injection h with h
      exact .inr (.inr ⟨hf, _, _, chain_encYear year s, h.symm⟩)
    | pack v w =>
      unfold execBcdPack at h
      rw [if_neg (by simp [hl])] at h
      split at h
      · injection h with h
        exact .inr (.inr ⟨hf, s, _, .refl, h.symm⟩)
      · cases h
  · have hl : s.faulted = true := by
      cases hx : s.fault with
      | none => exact absurd hx hf
      | some r => simp [State.faulted, hx]
    refine .inl ⟨hf, ?_⟩
    cases hform with
    | transport result hb =>
      simp only [runTransport, hl, if_true] at h
      injection h with h
      exact h.symm
    | codec r =>
      simp only [runCodec, State.complete, State.live, hl, if_true] at h
      injection h with h
      exact h.symm
    | yearCodec year f =>
      simp only [runYearCodec, hl, if_true] at h
      injection h with h
      exact h.symm
    | pack v w =>
      simp only [execBcdPack, hl, if_true] at h
      injection h with h
      exact h.symm

/-- What a step raises of its own is not F_CONTENTION either. -/
theorem fetch_ne {s : State} {r : FaultReason} (h : s.fetch = .raises r) : r ≠ .contention := by
  rintro rfl
  unfold State.fetch at h
  split at h
  · cases h
  split at h
  · cases h
  split at h
  · cases h
  split at h
  · cases h
  split at h <;> cases h

/-- Everything a step that answers a next state can do. -/
theorem step_cases {s t : State} (h : step s = .next t) :
    t = s ∨ (s.fault = none ∧ ∃ r, r ≠ .contention ∧ t = { s with fault := some r }) ∨
      (s.fault = none ∧ ∃ u r, Chain s u ∧ t = u.complete r) := by
  unfold step at h
  split at h
  · injection h with h
    exact .inl h.symm
  · rename_i r hr
    injection h with h
    by_cases hf : s.fault = none
    · exact .inr (.inl ⟨hf, r, fetch_ne hr, by rw [← h]; simp [State.raise, State.live, State.faulted, hf]⟩)
    · refine .inl ?_
      rw [← h]
      have hl : s.faulted = true := by
        cases hx : s.fault with
        | none => exact absurd hx hf
        | some r => simp [State.faulted, hx]
      simp [State.raise, State.live, hl]
  · cases h
  · rcases exec_cases h with ⟨_, rfl⟩ | h | h
    · exact .inl rfl
    · exact .inr (.inl h)
    · exact .inr (.inr h)

end Sys2Proof.Machine
end

