-- ==== Sys2Proof/Laws/Grows.lean ====
section
/-! SUPPORT. What every piece of an operation keeps, in any state: the trace only grows, and the host's side stays (10_state R29, R30). -/

namespace Sys2Proof.Machine

/-- From s to t the trace grew, and the host's program, index and results, the platform and the kind of peer stayed. -/
structure Grows (s t : State) : Prop where
  trace    : ∃ es, t.revTrace = es ++ s.revTrace
  program  : t.program = s.program
  hpc      : t.hpc = s.hpc
  results  : t.results = s.results
  platform : t.platform = s.platform
  kind     : t.peer.kind = s.peer.kind

theorem Grows.refl (s : State) : Grows s s := ⟨⟨[], rfl⟩, rfl, rfl, rfl, rfl, rfl⟩

theorem Grows.trans {s t u : State} (h : Grows s t) (k : Grows t u) : Grows s u := by
  obtain ⟨es, he⟩ := h.trace
  obtain ⟨fs, hf⟩ := k.trace
  exact ⟨⟨fs ++ es, by rw [hf, he, List.append_assoc]⟩, k.program.trans h.program, k.hpc.trans h.hpc,
    k.results.trans h.results, k.platform.trans h.platform, k.kind.trans h.kind⟩

/-- A guarded piece grows if its body does. -/
theorem Grows.live {f : State → State} {s : State} (h : Grows s (f s)) : Grows s (s.live f) := by
  unfold State.live; split
  · exact Grows.refl s
  · exact h

theorem grows_emit (s : State) (e : Event) : Grows s (s.emit e) := ⟨⟨[e], rfl⟩, rfl, rfl, rfl, rfl, rfl⟩

theorem grows_raise (s : State) (r : FaultReason) : Grows s (s.raise r) := Grows.live ⟨⟨[], rfl⟩, rfl, rfl, rfl, rfl, rfl⟩

theorem grows_contention (s : State) : Grows s s.contention := by
  unfold State.contention; split
  · exact grows_raise s _
  · exact Grows.refl s

theorem grows_line (s : State) : Grows s s.line.2 := by
  unfold State.line
  split
  · exact Grows.refl s
  · split
    · exact Grows.refl s
    · exact ⟨⟨[], rfl⟩, rfl, rfl, rfl, rfl, rfl⟩

theorem grows_elapse (s : State) : Grows s s.elapse := by
  unfold State.elapse; split
  · exact ⟨⟨[], rfl⟩, rfl, rfl, rfl, rfl, rfl⟩
  · exact Grows.refl s

theorem Peer.select_kind (p : Peer) : p.select.kind = p.kind := by unfold Peer.select; split <;> rfl

theorem Peer.deselect_kind (p : Peer) : p.deselect.kind = p.kind := by unfold Peer.deselect; split <;> rfl

theorem Peer.driveBit_kind (p : Peer) (l : Level) : (p.driveBit l).kind = p.kind := by unfold Peer.driveBit; split <;> rfl

theorem Peer.rising_kind' (p : Peer) (l : Level) : (p.rising l).kind = p.kind := by
  unfold Peer.rising; split <;> (try split) <;> rfl

theorem grows_peerCE (s : State) (l : Level) : Grows s (s.peerCE l) := by
  unfold State.peerCE
  split
  · split
    · exact (grows_elapse s).trans ⟨⟨[], rfl⟩, rfl, rfl, rfl, rfl, Peer.select_kind _⟩
    · exact ⟨⟨[], rfl⟩, rfl, rfl, rfl, rfl, Peer.deselect_kind _⟩
  · exact Grows.refl s

theorem grows_peerRising (s : State) : Grows s s.peerRising := by
  unfold State.peerRising
  split
  · exact (grows_line s).trans ⟨⟨[], rfl⟩, rfl, rfl, rfl, rfl, Peer.rising_kind' _ _⟩
  · exact Grows.refl s

theorem grows_peerFalling (s : State) : Grows s s.peerFalling := by
  unfold State.peerFalling
  split
  · split
    · exact ⟨⟨[], rfl⟩, rfl, rfl, rfl, rfl, Peer.driveBit_kind _ _⟩
    · exact ⟨⟨[], rfl⟩, rfl, rfl, rfl, rfl, Peer.driveBit_kind _ _⟩
  · exact Grows.refl s

/-- The pin primitives. -/
theorem grows_setCE (s : State) (l : Level) : Grows s (s.setCE l) := by
  apply Grows.live
  have h0 : Grows s { s.emit (.ce l) with ce := l } := ⟨⟨[_], rfl⟩, rfl, rfl, rfl, rfl, rfl⟩
  exact h0.trans (grows_peerCE _ l)

theorem grows_setCLK (s : State) (l : Level) : Grows s (s.setCLK l) := by
  apply Grows.live
  have h0 : Grows s { s.emit (.clk l) with clk := l } := ⟨⟨[_], rfl⟩, rfl, rfl, rfl, rfl, rfl⟩
  simp only
  split
  · exact h0.trans (grows_peerRising _)
  · split
    · exact (h0.trans (grows_peerFalling _)).trans (grows_contention _)
    · exact h0

theorem grows_setDir (s : State) (d : Dir) : Grows s (s.setDir d) := by
  apply Grows.live
  have h0 : Grows s { s.emit (.dir d) with iodir := d } := ⟨⟨[_], rfl⟩, rfl, rfl, rfl, rfl, rfl⟩
  exact h0.trans (grows_contention _)

theorem grows_drive (s : State) (l : Level) : Grows s (s.drive l) := Grows.live ⟨⟨[_], rfl⟩, rfl, rfl, rfl, rfl, rfl⟩

theorem grows_sampleTo (s : State) (i : Nat) : Grows s (s.sampleTo i) :=
  Grows.live ((grows_line s).trans ⟨⟨[_], rfl⟩, rfl, rfl, rfl, rfl, rfl⟩)

theorem grows_delay (s : State) (p : DelayParam) : Grows s (s.delay p) := Grows.live (grows_emit s _)

theorem grows_foldl {α : Type} {f : State → α → State} (h : ∀ s a, Grows s (f s a)) (l : List α) (s : State) :
    Grows s (l.foldl f s) := by
  induction l generalizing s with
  | nil => exact Grows.refl s
  | cons a l ih => exact (h s a).trans (ih _)

theorem grows_subOp {check : State → Option FaultReason} {body : State → State} (h : ∀ s, Grows s (body s)) (s : State) :
    Grows s (subOp check body s) := by
  apply Grows.live
  split
  · exact grows_raise s _
  · exact h s

/-- The four framing operations. -/
theorem grows_startBody (s : State) : Grows s (startBody s) :=
  (((grows_setCE s _).trans (grows_setCLK _ _)).trans (grows_delay _ _)).trans
    (Grows.live ⟨⟨[], rfl⟩, rfl, rfl, rfl, rfl, rfl⟩)

theorem grows_endBody (s : State) : Grows s (endBody s) :=
  ((grows_setCE s _).trans (grows_delay _ _)).trans (Grows.live ⟨⟨[], rfl⟩, rfl, rfl, rfl, rfl, rfl⟩)

theorem grows_shiftOutBit (rel : Bool) (s : State) (i : Nat) : Grows s (shiftOutBit rel s i) := by
  have h0 : Grows s (s.live fun s => { s with bit := BitVec.ofNat 4 i }) := Grows.live ⟨⟨[], rfl⟩, rfl, rfl, rfl, rfl, rfl⟩
  have h1 := h0.trans ((((grows_drive _ (bitAt (s.live fun s => { s with bit := BitVec.ofNat 4 i }).sr i)).trans
    (grows_delay _ .dataSetup)).trans (grows_setCLK _ high)).trans (grows_delay _ .clkHigh))
  unfold shiftOutBit
  simp only
  split
  · exact (h1.trans (grows_setDir _ _)).trans (Grows.live ⟨⟨[], rfl⟩, rfl, rfl, rfl, rfl, rfl⟩)
  · exact (h1.trans (grows_setCLK _ _)).trans (grows_delay _ _)

theorem grows_shiftOutBody (b : Byte) (rel : Bool) (s : State) : Grows s (shiftOutBody b rel s) := by
  have h0 : Grows s ((s.setDir .out).live fun s => { s with sr := b }) :=
    (grows_setDir s .out).trans (Grows.live ⟨⟨[], rfl⟩, rfl, rfl, rfl, rfl, rfl⟩)
  unfold shiftOutBody
  refine (h0.trans (grows_foldl (grows_shiftOutBit rel) _ _)).trans (Grows.live ?_)
  unfold shiftOutEnd
  split <;> exact ⟨⟨[], rfl⟩, rfl, rfl, rfl, rfl, rfl⟩

theorem grows_shiftInBit (s : State) (i : Nat) : Grows s (shiftInBit s i) :=
  (((((Grows.live ⟨⟨[], rfl⟩, rfl, rfl, rfl, rfl, rfl⟩).trans (grows_setCLK _ high)).trans (grows_delay _ .rdHigh)).trans
    (grows_setCLK _ low)).trans (grows_delay _ .rdAccess)).trans (grows_sampleTo _ i)

theorem grows_shiftInBody (s : State) : Grows s (shiftInBody s) := by
  have h0 : Grows s (s.live fun s => { s with rel := false }) := Grows.live ⟨⟨[], rfl⟩, rfl, rfl, rfl, rfl, rfl⟩
  have h1 := (h0.trans (grows_setDir _ .inp)).trans
    (Grows.live (f := fun s => { s with sr := 0 }) ⟨⟨[], rfl⟩, rfl, rfl, rfl, rfl, rfl⟩)
  unfold shiftInBody
  have h2 : ∀ t : State, Grows t (t.live fun t => { t with bit := 8, nbytes := t.nbytes + 1 }) :=
    fun t => Grows.live ⟨⟨[], rfl⟩, rfl, rfl, rfl, rfl, rfl⟩
  exact (h1.trans (grows_foldl grows_shiftInBit _ _)).trans (h2 _)

theorem grows_sessionStart (s : State) : Grows s (sessionStart s) := grows_subOp grows_startBody s

theorem grows_sessionEnd (s : State) : Grows s (sessionEnd s) := grows_subOp grows_endBody s

theorem grows_shiftOut (b : Byte) (rel : Bool) (s : State) : Grows s (shiftOut b rel s) :=
  grows_subOp (grows_shiftOutBody b rel) s

theorem grows_shiftIn (s : State) : Grows s (shiftIn s) := grows_subOp grows_shiftInBody s

/-! ## The sequencer inside a shift -/

/-- A guarded piece keeps the sequencer's state if its body does. -/
theorem seq_live {f : State → State} {s : State} (h : (f s).seq = s.seq) : (s.live f).seq = s.seq := by
  unfold State.live; split
  · rfl
  · exact h

theorem seq_contention (s : State) : s.contention.seq = s.seq := by unfold State.contention; split <;> simp

theorem seq_line (s : State) : s.line.2.seq = s.seq := by unfold State.line; split <;> (try split) <;> rfl

theorem seq_peerRising (s : State) : s.peerRising.seq = s.seq := by
  unfold State.peerRising; split
  · exact seq_line s
  · rfl

theorem seq_peerFalling (s : State) : s.peerFalling.seq = s.seq := by
  unfold State.peerFalling; split
  · split <;> rfl
  · rfl

theorem seq_setCLK (s : State) (l : Level) : (s.setCLK l).seq = s.seq := by
  apply seq_live
  simp only
  split
  · exact seq_peerRising _
  · split
    · exact (seq_contention _).trans (seq_peerFalling _)
    · rfl

theorem seq_setDir (s : State) (d : Dir) : (s.setDir d).seq = s.seq := seq_live (seq_contention _)

theorem seq_drive (s : State) (l : Level) : (s.drive l).seq = s.seq := seq_live rfl

theorem seq_delay (s : State) (p : DelayParam) : (s.delay p).seq = s.seq := seq_live rfl

theorem seq_sampleTo (s : State) (i : Nat) : (s.sampleTo i).seq = s.seq := seq_live (seq_line s)

theorem seq_foldl {f : State → Nat → State} (h : ∀ s i, (f s i).seq = s.seq) (l : List Nat) (s : State) :
    (l.foldl f s).seq = s.seq := by
  induction l generalizing s with
  | nil => rfl
  | cons a l ih => exact (ih _).trans (h s a)

theorem seq_shiftOutBit (rel : Bool) (s : State) (i : Nat) : (shiftOutBit rel s i).seq = s.seq := by
  have h0 : (s.live fun s => { s with bit := BitVec.ofNat 4 i }).seq = s.seq := seq_live rfl
  unfold shiftOutBit
  simp only
  split
  · refine (seq_live rfl).trans ((seq_setDir _ _).trans ?_)
    rw [seq_delay, seq_setCLK, seq_delay, seq_drive, h0]
  · rw [seq_delay, seq_setCLK, seq_delay, seq_setCLK, seq_delay, seq_drive, h0]

/-- SHIFT_OUT leaves the sequencer as it was (R21). -/
theorem seq_shiftOutBody (b : Byte) (rel : Bool) (s : State) : (shiftOutBody b rel s).seq = s.seq := by
  have h0 : ((s.setDir .out).live fun s => { s with sr := b }).seq = s.seq := (seq_live rfl).trans (seq_setDir _ _)
  have h1 : ∀ t : State, (t.live (shiftOutEnd b)).seq = t.seq := fun t => seq_live (by unfold shiftOutEnd; split <;> rfl)
  unfold shiftOutBody
  exact (h1 _).trans ((seq_foldl (seq_shiftOutBit rel) _ _).trans h0)

theorem seq_shiftInBit (s : State) (i : Nat) : (shiftInBit s i).seq = s.seq := by
  have h0 : (s.live fun s => { s with bit := BitVec.ofNat 4 i }).seq = s.seq := seq_live rfl
  unfold shiftInBit
  simp only
  rw [seq_sampleTo, seq_delay, seq_setCLK, seq_delay, seq_setCLK, h0]

/-- SHIFT_IN leaves the sequencer as it was (R21). -/
theorem seq_shiftInBody (s : State) : (shiftInBody s).seq = s.seq := by
  have h0 : (((s.live fun s => { s with rel := false }).setDir .inp).live fun s => { s with sr := 0 }).seq = s.seq :=
    (seq_live rfl).trans ((seq_setDir _ _).trans (seq_live rfl))
  have h1 : ∀ t : State, (t.live fun t => { t with bit := 8, nbytes := t.nbytes + 1 }).seq = t.seq := fun t => seq_live rfl
  unfold shiftInBody
  exact (h1 _).trans ((seq_foldl seq_shiftInBit _ _).trans h0)

/-! ## Transfers -/

/-- The transfers. -/
theorem grows_readReg (a : Byte) (s : State) : Grows s (readReg a s) :=
  (((grows_sessionStart s).trans (grows_shiftOut _ _ _)).trans (grows_shiftIn _)).trans (grows_sessionEnd _)

theorem grows_writeReg (a d : Byte) (s : State) : Grows s (writeReg a d s) :=
  (((grows_sessionStart s).trans (grows_shiftOut _ _ _)).trans (grows_shiftOut _ _ _)).trans (grows_sessionEnd _)

theorem grows_burstReadByte (s : State) (k : Nat) : Grows s (burstReadByte s k) :=
  (grows_shiftIn s).trans (Grows.live ⟨⟨[], rfl⟩, rfl, rfl, rfl, rfl, rfl⟩)

theorem grows_burstRead (s : State) : Grows s (burstRead s) :=
  (((grows_sessionStart s).trans (grows_shiftOut _ _ _)).trans (grows_foldl grows_burstReadByte _ _)).trans
    (grows_sessionEnd _)

theorem grows_burstWriteByte (blk : Block) (s : State) (k : Nat) : Grows s (burstWriteByte blk s k) :=
  Grows.trans (Grows.live ⟨⟨[], rfl⟩, rfl, rfl, rfl, rfl, rfl⟩) (grows_shiftOut _ _ _)

theorem grows_burstWrite (blk : Block) (s : State) : Grows s (burstWrite blk s) :=
  (((grows_sessionStart s).trans (grows_shiftOut _ _ _)).trans (grows_foldl (grows_burstWriteByte blk) _ _)).trans
    (grows_sessionEnd _)

/-- A draw of ENC_YEAR. -/
theorem grows_encYear (year : Nat) (s : State) : Grows s (encYear year s).2 := by
  unfold encYear; split
  · exact Grows.refl s
  · exact ⟨⟨[], rfl⟩, rfl, rfl, rfl, rfl, rfl⟩

end Sys2Proof.Machine
end

