-- ==== Sys2Proof/Laws/Invariant.lean ====
section
/-! SUPPORT. Every framing operation keeps the invariant, whatever its admission answers (10_state R33, 20_memory R75). -/

namespace Sys2Proof.Machine

/-- The invariant speaks of the session's latches and the peer only. -/
theorem Inv.congr {s t : State} (h : Inv s) (seq : t.seq = s.seq) (ce : t.ce = s.ce) (clk : t.clk = s.clk)
    (iodir : t.iodir = s.iodir) (rel : t.rel = s.rel) (valid : t.cmdValid = s.cmdValid) (cmd : t.cmd = s.cmd)
    (nbytes : t.nbytes = s.nbytes) (peer : t.peer = s.peer) : Inv t := by
  obtain ⟨⟨b1, b2, b3, b4, b5, b6, b7⟩, hp⟩ := h
  refine ⟨⟨?_, ?_, ?_, ?_, ?_, ?_, ?_⟩, fun ha => ?_⟩
  · rwa [seq, ce]
  · rwa [seq, clk, rel]
  · rwa [clk, iodir, rel, valid, cmd]
  · rwa [clk, rel]
  · rwa [seq, valid, nbytes]
  · rwa [seq, valid, cmd, nbytes]
  · rwa [seq, valid, cmd, iodir, rel, nbytes]
  · obtain ⟨p1, p2, p3, p4⟩ := hp (by rwa [peer] at ha)
    refine ⟨?_, ?_, ?_, ?_⟩
    · rwa [seq, peer]
    · rwa [seq, valid, peer]
    · rwa [seq, valid, cmd, peer, nbytes]
    · rwa [seq, valid, cmd, peer, nbytes]

theorem inv_raise {s : State} (h : Inv s) (r : FaultReason) : Inv (s.raise r) :=
  h.congr (by simp) (by simp) (by simp) (by simp) (by simp) (by simp) (by simp) (by simp) (by simp)

theorem inv_complete {s : State} (h : Inv s) (r : Result) : Inv (s.complete r) :=
  h.congr (by simp) (by simp) (by simp) (by simp) (by simp) (by simp) (by simp) (by simp) (by simp)

theorem inv_draws {s : State} (h : Inv s) (n : Nat) : Inv { s with draws := n } :=
  h.congr rfl rfl rfl rfl rfl rfl rfl rfl rfl

theorem inv_buf {s : State} (h : Inv s) (b : Block) : Inv { s with buf := b } :=
  h.congr rfl rfl rfl rfl rfl rfl rfl rfl rfl

/-- A framing operation keeps the invariant if its pseudocode does wherever it is admitted. -/
theorem inv_subOp {check : State → Option FaultReason} {body : State → State} {s : State} (h : Inv s)
    (hb : s.fault = none → check s = none → Inv (body s)) : Inv (subOp check body s) := by
  by_cases hf : s.fault = none
  · cases ha : check s with
    | none => rw [subOp_admitted hf ha]; exact hb hf ha
    | some r => rw [subOp_refused hf ha]; exact h.congr rfl rfl rfl rfl rfl rfl rfl rfl rfl
  · rw [subOp_faulted hf]; exact h

/-- SESSION_START's pseudocode opens a session with no command yet. -/
theorem inv_startBody {s : State} (h : Inv s) (hf : s.fault = none) (ha : admitStart s = none) : Inv (startBody s) := by
  have hs : s.seq = .idle := by
    unfold admitStart at ha; split at ha
    · assumption
    · simp at ha
  have hc := (h.block.idle hs).1
  cases hat : s.peer.attached with
  | true =>
    rw [startBody_attached hf hc hat ((h.peer hat).off hs).1]
    constructor
    · constructor <;> simp [hc]
    · intro _
      constructor <;> simp
  | false =>
    rw [startBody_disconnected hf hc hat]
    constructor
    · constructor <;> simp [hc]
    · simp [hat]

/-- SESSION_END's pseudocode closes it. -/
theorem inv_endBody {s : State} (h : Inv s) (hf : s.fault = none) (ha : admitEnd s = none) : Inv (endBody s) := by
  unfold admitEnd at ha
  split at ha
  · simp at ha
  split at ha
  · simp at ha
  rename_i hs hr
  have hr' : s.rel = false := by simpa using hr
  have hc := h.block.unreleased hr'
  rw [endBody_eq hf]
  constructor
  · constructor <;> simp [hc, hr']
  · intro hat
    have hk : s.peer.attached = true := by
      cases hx : s.peer.attached with
      | true => rfl
      | false => simp [Peer.closed, hx] at hat
    have hx : s.peer.closed.pstate = .off ∧ s.peer.closed.pdrive = false := by
      unfold Peer.closed Peer.deselect
      rw [if_pos hk]
      split
      · rename_i hoff
        have hseq : s.seq = .active := by simpa using hs
        exfalso
        cases hv : s.cmdValid with
        | false => have := ((h.peer hk).cmd hseq hv).1; simp [hoff] at this
        | true =>
          cases hrd : readFlag s.cmd with
          | false => have := ((h.peer hk).wdata hseq hv hrd).1; simp [hoff] at this
          | true => have := ((h.peer hk).rdata hseq hv hrd).1; simp [hoff] at this
      · exact ⟨rfl, rfl⟩
    constructor <;> simp [hx]

/-- SHIFT_OUT sends the command or the next data byte. -/
theorem inv_shiftOutBody {s : State} (h : Inv s) {b : Byte} {rel : Bool} (hf : s.fault = none)
    (ha : admitShiftOut b rel s = none) : Inv (shiftOutBody b rel s) := by
  have hadm := ha
  unfold admitShiftOut at ha
  split at ha
  · simp at ha
  split at ha
  · simp at ha
  rename_i hs hr
  have hs' : s.seq = .active := by simpa using hs
  have hr' : s.rel = false := by simpa using hr
  have hc := h.block.unreleased hr'
  have hce := h.block.ce_active
  have hgo : shiftOutBody b rel s = shiftOut b rel s := (subOp_admitted hf hadm).symm
  rw [hgo]
  cases hv : s.cmdValid with
  | false =>
    simp only [hv, if_true] at ha
    split at ha
    · simp at ha
    rename_i hd
    have hrel : readFlag b = rel := by
      cases hx : readFlag b <;> cases rel <;> simp [hx] at ha ⊢
    subst hrel
    have hn := h.block.fresh hs' hv
    cases hat : s.peer.attached with
    | true =>
      obtain ⟨h1, h2, h3⟩ := (h.peer hat).cmd hs' hv
      rw [shiftOut_command hf hs' hr' hv hc hd hat h1 h2 h3]
      cases hx : readFlag b
      · constructor
        · constructor <;> simp [hce, hs', hn, hd, hx]
        · intro _
          constructor <;> simp [hs', hn, h2, h3, hx]
      · constructor
        · constructor <;> simp [hce, hs', hn, hd, hx]
        · intro _
          constructor <;> simp [hs', hn, h2, h3, hx]
    | false =>
      rw [shiftOut_command_disconnected hf hs' hr' hv hc hd hat]
      cases hx : readFlag b
      · constructor
        · constructor <;> simp [hce, hs', hn, hd, hx]
        · simp [hat]
      · constructor
        · constructor <;> simp [hce, hs', hn, hd, hx]
        · simp [hat]
  | true =>
    simp only [hv, Bool.true_eq_false, if_false] at ha
    split at ha
    · simp at ha
    split at ha
    · simp at ha
    split at ha
    · simp at ha
    rename_i hw hrel hn
    have hw' : readFlag s.cmd = false := by simpa using hw
    have hrel' : rel = false := by simpa using hrel
    subst hrel'
    obtain ⟨hd, hle⟩ := h.block.commanded hs' hv
    have h8 : need s.cmd ≤ 8 := by unfold need; split <;> omega
    cases hat : s.peer.attached with
    | true =>
      obtain ⟨h1, h2, h3, h4, h5⟩ := (h.peer hat).wdata hs' hv hw'
      rw [shiftOut_data hf hs' hr' hv hc hw' hn hat h1 h2 (by omega) h5]
      constructor
      · constructor <;> simp [hce, hs', hv, hw', hc, hr', hd]; omega
      · intro _
        constructor <;> simp [hs', hv, hw', h1, h2, h3, h4, h5]
    | false =>
      rw [shiftOut_data_disconnected hf hs' hr' hv hc hw' hn hat]
      constructor
      · constructor <;> simp [hce, hs', hv, hw', hc, hr', hd]; omega
      · simp [hat]

/-- The peer of a read session has a byte to send while the count is short (R72). -/
theorem rdsrc_of_inv {s : State} (h : Inv s) (hat : s.peer.attached = true) (hs : s.seq = .active) (hv : s.cmdValid = true)
    (hrd : readFlag s.cmd = true) (hn : s.nbytes ≠ need s.cmd) :
    s.peer.rdsrc = some (s.peer.snap.get (if cmdIdx s.cmd = 31 then s.nbytes else cmdIdx s.cmd)) := by
  obtain ⟨h1, h2, h3, h4, h5⟩ := (h.peer hat).rdata hs hv hrd
  obtain ⟨hd, hle⟩ := h.block.commanded hs hv
  have hneed : need s.cmd = if cmdIdx s.cmd = 31 then 8 else 1 := rfl
  unfold Peer.rdsrc
  rw [h3, h4]
  by_cases hx : cmdIdx s.cmd = 31
  · rw [if_pos hx] at hneed
    simp [hx, show s.nbytes < 8 by omega]
  · rw [if_neg hx] at hneed
    have hidx : cmdIdx s.cmd ≤ 8 := by
      have key : ∀ c : Byte, decodeCmd c ≠ none → cmdIdx c = 31 ∨ cmdIdx c ≤ 8 := by decide +kernel
      rcases key _ hd with h | h
      · exact absurd h hx
      · exact h
    simp [hx, hidx, show s.nbytes = 0 by omega]

/-- SHIFT_IN receives the next data byte. -/
theorem inv_shiftInBody {s : State} (h : Inv s) (hf : s.fault = none) (ha : admitShiftIn s = none) : Inv (shiftInBody s) := by
  have hadm := ha
  unfold admitShiftIn at ha
  split at ha
  · simp at ha
  split at ha
  · simp at ha
  split at ha
  · simp at ha
  rename_i hs hvr hn
  have hs' : s.seq = .active := by simpa using hs
  have hv : s.cmdValid = true := by simpa using fun h => hvr (Or.inl h)
  have hrd : readFlag s.cmd = true := by simpa using fun h => hvr (Or.inr h)
  obtain ⟨hd, hle⟩ := h.block.commanded hs' hv
  have hce := h.block.ce_active
  have hgo : shiftInBody s = shiftIn s := (subOp_admitted hf hadm).symm
  rw [hgo]
  cases hat : s.peer.attached with
  | true =>
    obtain ⟨h1, h2, h3, h4, h5⟩ := (h.peer hat).rdata hs' hv hrd
    rw [shiftIn_attached hf hs' hv hrd hn hat h1 h2 (rdsrc_of_inv h hat hs' hv hrd hn)]
    constructor
    · constructor <;> simp [hce, hs', hv, hrd, hd]; omega
    · intro _
      constructor <;> simp [hs', hv, hrd, h1, h2, h3, h4]
  | false =>
    rw [shiftIn_disconnected hf hs' hv hrd hn hat]
    constructor
    · constructor <;> simp [hce, hs', hv, hrd, hd]; omega
    · simp [hat]

/-- The four framing operations keep the invariant. -/
theorem inv_sessionStart {s : State} (h : Inv s) : Inv (sessionStart s) := inv_subOp h (inv_startBody h)

theorem inv_sessionEnd {s : State} (h : Inv s) : Inv (sessionEnd s) := inv_subOp h (inv_endBody h)

theorem inv_shiftOut {s : State} (h : Inv s) (b : Byte) (rel : Bool) : Inv (shiftOut b rel s) :=
  inv_subOp h (inv_shiftOutBody h)

theorem inv_shiftIn {s : State} (h : Inv s) : Inv (shiftIn s) := inv_subOp h (inv_shiftInBody h)

end Sys2Proof.Machine
end

