-- ==== Sys2Proof/Laws/PerInstr.lean ====
section
/-! SUPPORT. One fact per instruction, as syntax (30_encoding R91, R95): the request it is encoded in opens with a byte, a
command byte of R91 or an OPC of R95, and as many operand words follow as that byte's row has. -/

namespace Sys2Proof.Laws.RequestShape

/-- The encoded request of an instruction: its first word is a byte, and its row's operand words follow. -/
def Statement (i : Sys2Proof.Instr) : Prop :=
  ∃ (c : Nat) (ws : List Nat), (Sys2Proof.encode i).words = c :: ws ∧ c < 256 ∧
    ws.length = Sys2Proof.operandCount (Sys2Proof.encode i).format c

theorem wrSeconds (d : Sys2Proof.Byte) : Statement (.wrSeconds d) := ⟨_, _, rfl, by decide, rfl⟩

theorem rdSeconds : Statement .rdSeconds := ⟨_, _, rfl, by decide, rfl⟩

theorem wrMinutes (d : Sys2Proof.Byte) : Statement (.wrMinutes d) := ⟨_, _, rfl, by decide, rfl⟩

theorem rdMinutes : Statement .rdMinutes := ⟨_, _, rfl, by decide, rfl⟩

theorem wrHours (d : Sys2Proof.Byte) : Statement (.wrHours d) := ⟨_, _, rfl, by decide, rfl⟩

theorem rdHours : Statement .rdHours := ⟨_, _, rfl, by decide, rfl⟩

theorem wrDate (d : Sys2Proof.Byte) : Statement (.wrDate d) := ⟨_, _, rfl, by decide, rfl⟩

theorem rdDate : Statement .rdDate := ⟨_, _, rfl, by decide, rfl⟩

theorem wrMonth (d : Sys2Proof.Byte) : Statement (.wrMonth d) := ⟨_, _, rfl, by decide, rfl⟩

theorem rdMonth : Statement .rdMonth := ⟨_, _, rfl, by decide, rfl⟩

theorem wrDow (d : Sys2Proof.Byte) : Statement (.wrDow d) := ⟨_, _, rfl, by decide, rfl⟩

theorem rdDow : Statement .rdDow := ⟨_, _, rfl, by decide, rfl⟩

theorem wrYear (d : Sys2Proof.Byte) : Statement (.wrYear d) := ⟨_, _, rfl, by decide, rfl⟩

theorem rdYear : Statement .rdYear := ⟨_, _, rfl, by decide, rfl⟩

theorem wrControl (d : Sys2Proof.Byte) : Statement (.wrControl d) := ⟨_, _, rfl, by decide, rfl⟩

theorem rdControl : Statement .rdControl := ⟨_, _, rfl, by decide, rfl⟩

theorem wrTrickle (d : Sys2Proof.Byte) : Statement (.wrTrickle d) := ⟨_, _, rfl, by decide, rfl⟩

theorem rdTrickle : Statement .rdTrickle := ⟨_, _, rfl, by decide, rfl⟩

theorem burstWr (blk : Sys2Proof.Block) : Statement (.burstWr blk) := ⟨_, _, rfl, by decide, rfl⟩

theorem burstRd : Statement .burstRd := ⟨_, _, rfl, by decide, rfl⟩

theorem sessionStart : Statement .sessionStart := ⟨_, _, rfl, by decide, rfl⟩

theorem sessionEnd : Statement .sessionEnd := ⟨_, _, rfl, by decide, rfl⟩

theorem shiftOut (b : Sys2Proof.Byte) (rel : Bool) : Statement (.shiftOut b rel) := ⟨_, _, rfl, by decide, rfl⟩

theorem shiftIn : Statement .shiftIn := ⟨_, _, rfl, by decide, rfl⟩

theorem readReg (a : Sys2Proof.Byte) : Statement (.readReg a) := ⟨_, _, rfl, by decide, rfl⟩

theorem writeReg (a : Sys2Proof.Byte) (d : Sys2Proof.Byte) : Statement (.writeReg a d) := ⟨_, _, rfl, by decide, rfl⟩

theorem burstRead : Statement .burstRead := ⟨_, _, rfl, by decide, rfl⟩

theorem burstWrite (blk : Sys2Proof.Block) : Statement (.burstWrite blk) := ⟨_, _, rfl, by decide, rfl⟩

theorem bcdDecode (h : Sys2Proof.Nibble) (l : Sys2Proof.Nibble) : Statement (.bcdDecode h l) := ⟨_, _, rfl, by decide, rfl⟩

theorem bcdEncHigh (v : Sys2Proof.Byte) : Statement (.bcdEncHigh v) := ⟨_, _, rfl, by decide, rfl⟩

theorem bcdEncLow (v : Sys2Proof.Byte) : Statement (.bcdEncLow v) := ⟨_, _, rfl, by decide, rfl⟩

theorem bcdPack (v : Sys2Proof.Byte) (w : Nat) : Statement (.bcdPack v w) := ⟨_, _, rfl, by decide, rfl⟩

theorem decSeconds (b : Sys2Proof.Byte) : Statement (.decSeconds b) := ⟨_, _, rfl, by decide, rfl⟩

theorem decMinutes (b : Sys2Proof.Byte) : Statement (.decMinutes b) := ⟨_, _, rfl, by decide, rfl⟩

theorem decHours (b : Sys2Proof.Byte) : Statement (.decHours b) := ⟨_, _, rfl, by decide, rfl⟩

theorem decDate (b : Sys2Proof.Byte) : Statement (.decDate b) := ⟨_, _, rfl, by decide, rfl⟩

theorem decMonth (b : Sys2Proof.Byte) : Statement (.decMonth b) := ⟨_, _, rfl, by decide, rfl⟩

theorem decDow (b : Sys2Proof.Byte) : Statement (.decDow b) := ⟨_, _, rfl, by decide, rfl⟩

theorem decYear (b : Sys2Proof.Byte) : Statement (.decYear b) := ⟨_, _, rfl, by decide, rfl⟩

theorem decControl (b : Sys2Proof.Byte) : Statement (.decControl b) := ⟨_, _, rfl, by decide, rfl⟩

theorem decBlock (blk : Sys2Proof.Block) : Statement (.decBlock blk) := ⟨_, _, rfl, by decide, rfl⟩

theorem encSeconds (second : Sys2Proof.Byte) : Statement (.encSeconds second) := ⟨_, _, rfl, by decide, rfl⟩

theorem encMinutes (minute : Sys2Proof.Byte) : Statement (.encMinutes minute) := ⟨_, _, rfl, by decide, rfl⟩

theorem encHours24 (hour : Sys2Proof.Byte) : Statement (.encHours24 hour) := ⟨_, _, rfl, by decide, rfl⟩

theorem encDate (day : Sys2Proof.Byte) : Statement (.encDate day) := ⟨_, _, rfl, by decide, rfl⟩

theorem encMonth (month : Sys2Proof.Byte) : Statement (.encMonth month) := ⟨_, _, rfl, by decide, rfl⟩

theorem encDow (dow : Sys2Proof.Byte) : Statement (.encDow dow) := ⟨_, _, rfl, by decide, rfl⟩

theorem encYear (year : Nat) : Statement (.encYear year) := ⟨_, _, rfl, by decide, rfl⟩

theorem encControl : Statement .encControl := ⟨_, _, rfl, by decide, rfl⟩

theorem encBlock (ts : Sys2Proof.Timestamp) : Statement (.encBlock ts) := ⟨_, _, rfl, by decide, rfl⟩

theorem mergeDate (blk : Sys2Proof.Block) (year : Nat) (month : Sys2Proof.Byte) (day : Sys2Proof.Byte) (dow : Sys2Proof.Byte) : Statement (.mergeDate blk year month day dow) := ⟨_, _, rfl, by decide, rfl⟩

theorem mergeTime (blk : Sys2Proof.Block) (hour : Sys2Proof.Byte) (minute : Sys2Proof.Byte) (second : Sys2Proof.Byte) : Statement (.mergeTime blk hour minute second) := ⟨_, _, rfl, by decide, rfl⟩

theorem clearWp : Statement .clearWp := ⟨_, _, rfl, by decide, rfl⟩

theorem initChip : Statement .initChip := ⟨_, _, rfl, by decide, rfl⟩

theorem getSecond : Statement .getSecond := ⟨_, _, rfl, by decide, rfl⟩

theorem getMinute : Statement .getMinute := ⟨_, _, rfl, by decide, rfl⟩

theorem getHour : Statement .getHour := ⟨_, _, rfl, by decide, rfl⟩

theorem getDay : Statement .getDay := ⟨_, _, rfl, by decide, rfl⟩

theorem getMonth : Statement .getMonth := ⟨_, _, rfl, by decide, rfl⟩

theorem getDow : Statement .getDow := ⟨_, _, rfl, by decide, rfl⟩

theorem getYear : Statement .getYear := ⟨_, _, rfl, by decide, rfl⟩

theorem getFull : Statement .getFull := ⟨_, _, rfl, by decide, rfl⟩

theorem getDateOnly : Statement .getDateOnly := ⟨_, _, rfl, by decide, rfl⟩

theorem getTimeOnly : Statement .getTimeOnly := ⟨_, _, rfl, by decide, rfl⟩

theorem setSecond (second : Sys2Proof.Byte) : Statement (.setSecond second) := ⟨_, _, rfl, by decide, rfl⟩

theorem setMinute (minute : Sys2Proof.Byte) : Statement (.setMinute minute) := ⟨_, _, rfl, by decide, rfl⟩

theorem setHour (hour : Sys2Proof.Byte) : Statement (.setHour hour) := ⟨_, _, rfl, by decide, rfl⟩

theorem setDay (day : Sys2Proof.Byte) : Statement (.setDay day) := ⟨_, _, rfl, by decide, rfl⟩

theorem setMonth (month : Sys2Proof.Byte) : Statement (.setMonth month) := ⟨_, _, rfl, by decide, rfl⟩

theorem setDow (dow : Sys2Proof.Byte) : Statement (.setDow dow) := ⟨_, _, rfl, by decide, rfl⟩

theorem setYear (year : Nat) : Statement (.setYear year) := ⟨_, _, rfl, by decide, rfl⟩

theorem setFull (ts : Sys2Proof.Timestamp) : Statement (.setFull ts) := ⟨_, _, rfl, by decide, rfl⟩

theorem setDateOnly (year : Nat) (month : Sys2Proof.Byte) (day : Sys2Proof.Byte) (dow : Sys2Proof.Byte) : Statement (.setDateOnly year month day dow) := ⟨_, _, rfl, by decide, rfl⟩

theorem setTimeOnly (hour : Sys2Proof.Byte) (minute : Sys2Proof.Byte) (second : Sys2Proof.Byte) : Statement (.setTimeOnly hour minute second) := ⟨_, _, rfl, by decide, rfl⟩

end Sys2Proof.Laws.RequestShape
end

