-- ==== Sys2Proof/Laws/Quiet.lean ====
section
/-! SUPPORT. Transfers with an attached peer that passes no tick (20_memory R74): what each leaves in the chip, with no
draw between. The sequences of 44_sequences are made of these. -/

namespace Sys2Proof.Machine

/-- A register's index names the register the sequences address (R34). -/
theorem writeReg_quiet {s : State} (hr : Ready s) (hq : Quiet s) (r : RegName) (d : Byte) :
    writeReg r.writeAddr d s = { s.ended r.writeAddr 1 d (writeEvents r.writeAddr d) with
      peer := { s.peer.ended r.writeAddr 1 s.peer.regs (s.peer.regs.written r.idx d) with wbuf := s.peer.wbuf.set 0 d } } := by
  obtain ⟨h1, h2, h3, h4, h5, h6, h7, h8⟩ := regName_commands r
  obtain ⟨-, -, -, k1, k2, k3⟩ := addressOk_commands _ h7
  have h := writeReg_attached hr hq.attached _ d k1 k2 k3
  rw [h3, h6, State.elapse_quiet hq.halted] at h
  exact h

theorem readReg_quiet {s : State} (hr : Ready s) (hq : Quiet s) (r : RegName) :
    readReg r.writeAddr s = { s.ended r.readAddr 1 (s.peer.regs.get r.idx) (readEvents r.readAddr (s.peer.regs.get r.idx)) with
      peer := { s.peer.ended r.readAddr 1 s.peer.regs s.peer.regs with plevel := bitAt (s.peer.regs.get r.idx) 7 } } := by
  obtain ⟨h1, h2, h3, h4, h5, h6, h7, h8⟩ := regName_commands r
  obtain ⟨k1, k2, k3, -⟩ := addressOk_commands _ h7
  have h := readReg_attached hr hq.attached _ k1 k2 k3
  rw [h1, h5, State.elapse_quiet hq.halted] at h
  exact h

theorem burstRead_quiet {s : State} (hr : Ready s) (hq : Quiet s) :
    burstRead s = { s.ended 0xBF#8 8 s.peer.regs.clock.control (burstReadEvents s.peer.regs.clock) with
      buf := s.peer.regs.clock
      peer := { s.peer.ended 0xBF#8 8 s.peer.regs s.peer.regs with plevel := bitAt s.peer.regs.clock.control 7 } } := by
  have h := burstRead_attached hr hq.attached
  rw [State.elapse_quiet hq.halted] at h
  exact h

theorem burstWrite_quiet {s : State} (hr : Ready s) (hq : Quiet s) (blk : Block) :
    burstWrite blk s = { s.ended 0xBE#8 8 blk.control (burstWriteEvents blk) with
      buf := blk
      peer := { s.peer.ended 0xBE#8 8 s.peer.regs (s.peer.regs.burstWritten blk) with wbuf := blk } } := by
  have h := burstWrite_attached hr hq.attached blk
  rw [State.elapse_quiet hq.halted] at h
  exact h

/-! ## CLEAR_WP first (R200, R201) -/

/-- A write to CONTROL is taken whatever WP is (R73). -/
theorem Regs.written_control (r : Regs) (d : Byte) : r.written 7 d = r.set 7 d := by simp [Regs.written]

/-- A write to another register is taken once WP is clear (R73). -/
theorem Regs.written_unprotected {r : Regs} (h : wpFlag r.clock.control = false) (n : Nat) (d : Byte) : r.written n d = r.set n d := by
  simp [Regs.written, h]

/-- Writing CONTROL leaves the other registers as they are, the clock-halt flag among them. -/
theorem Regs.set_control (r : Regs) (d : Byte) : r.set 7 d = ⟨{ r.clock with control := d }, r.trickle⟩ := rfl

theorem clearWp_quiet {s : State} (hr : Ready s) (hq : Quiet s) :
    clearWp s = { s.ended 0x8E#8 1 0#8 (writeEvents 0x8E#8 0#8) with
      peer := { s.peer.ended 0x8E#8 1 s.peer.regs ⟨{ s.peer.regs.clock with control := 0#8 }, s.peer.regs.trickle⟩ with
                wbuf := s.peer.wbuf.set 0 0#8 } } := by
  have h := writeReg_quiet hr hq .control 0#8
  rw [show RegName.control.idx = 7 from rfl, Regs.written_control, Regs.set_control] at h
  exact h

/-- After CLEAR_WP the block is ready, no tick passes, and the chip takes every write. -/
theorem clearWp_after {s : State} (hr : Ready s) (hq : Quiet s) :
    Ready (clearWp s) ∧ Quiet (clearWp s) ∧ wpFlag (clearWp s).peer.regs.clock.control = false := by
  refine ⟨ready_clearWp hr, ?_, ?_⟩
  · rw [clearWp_quiet hr hq]
    exact ⟨hq.attached, hq.halted⟩
  · rw [clearWp_quiet hr hq]
    show wpFlag 0#8 = false
    decide

/-- Two sessions one after the other leave the latches of the second and the events of both. -/
theorem State.ended_ended (s : State) (c c' : Byte) (n n' : Nat) (d d' : Byte) (ev ev' : List Event) :
    (s.ended c n d ev).ended c' n' d' ev' = s.ended c' n' d' (ev ++ ev') := by
  simp [State.ended]

end Sys2Proof.Machine
end

