-- ==== Sys2Proof/Laws/Wires.lean ====
section
/-! SUPPORT. What each framing operation does on the wires under the invariant, with any peer or none: the levels it leaves and
the events it emits, the bytes it moves, and that it raises nothing once its check has passed (41_transport R101-R107); and what a
watcher of the wires makes of each operation's events. -/

namespace Sys2Proof.Machine

/-- Between s and t, neither faulted, the events ev went out and the latches of the wires took these levels. -/
structure Wired (s t : State) (ce clk : Level) (dir : Dir) (ev : List Event) : Prop where
  ok    : t.fault = none
  ce    : t.ce = ce
  clk   : t.clk = clk
  dir   : t.iodir = dir
  trace : t.trace = s.trace ++ ev

theorem trace_eq {s t : State} {ev : List Event} (h : t.revTrace = ev.reverse ++ s.revTrace) : t.trace = s.trace ++ ev := by
  simp [State.trace, h]

/-- SESSION_START (R101). -/
theorem wired_startBody {s : State} (h : Inv s) (hf : s.fault = none) (ha : admitStart s = none) :
    Wired s (startBody s) Config.ceActive low s.iodir startEvents ∧ s.clk = low ∧ s.ce = (!Config.ceActive) ∧ s.seq = .idle ∧
      (startBody s).seq = .active ∧ (startBody s).cmdValid = false := by
  have hs : s.seq = .idle := by
    unfold admitStart at ha; split at ha
    · assumption
    · simp at ha
  have hc := (h.block.idle hs).1
  have hce : s.ce = !Config.ceActive := by
    have := h.block.ce_active
    rw [hs] at this
    simpa using this
  cases hat : s.peer.attached with
  | true =>
    rw [startBody_attached hf hc hat ((h.peer hat).off hs).1]
    exact ⟨⟨hf, rfl, hc, rfl, trace_eq rfl⟩, hc, hce, hs, rfl, rfl⟩
  | false =>
    rw [startBody_disconnected hf hc hat]
    exact ⟨⟨hf, rfl, hc, rfl, trace_eq rfl⟩, hc, hce, hs, rfl, rfl⟩

/-- SESSION_END (R102). -/
theorem wired_endBody {s : State} (h : Inv s) (hf : s.fault = none) (ha : admitEnd s = none) :
    Wired s (endBody s) (!Config.ceActive) low s.iodir endEvents ∧ s.clk = low ∧ s.ce = Config.ceActive ∧ s.seq = .active ∧
      s.cmdValid = true ∧ s.nbytes = need s.cmd ∧ (endBody s).seq = .idle := by
  unfold admitEnd at ha
  split at ha
  · simp at ha
  split at ha
  · simp at ha
  split at ha
  case isFalse => simp at ha
  rename_i hs hr hn
  have hc := h.block.unreleased (by simpa using hr)
  rw [endBody_eq hf]
  have hs' : s.seq = .active := by simpa using hs
  exact ⟨⟨hf, rfl, hc, rfl, trace_eq rfl⟩, hc, h.block.ce_active.mpr hs', hs', hn.1, hn.2, rfl⟩

/-- What a SHIFT_OUT whose check passed moved between s and t (R25, R26): the session's command byte, or one more data byte of
a write. -/
def MovedOut (b : Byte) (rel : Bool) (s t : State) : Prop :=
  s.seq = .active ∧ t.seq = .active ∧ t.cmdValid = true ∧
    ((s.cmdValid = false ∧ decodeCmd b ≠ none ∧ rel = readFlag b ∧ t.cmd = b ∧ t.nbytes = 0) ∨
      (s.cmdValid = true ∧ readFlag s.cmd = false ∧ rel = false ∧ s.nbytes < need s.cmd ∧ t.cmd = s.cmd ∧
        t.nbytes = s.nbytes + 1))

/-- What a SHIFT_IN whose check passed moved (R26): one more data byte of a read. -/
def MovedIn (s t : State) : Prop :=
  s.seq = .active ∧ t.seq = .active ∧ s.cmdValid = true ∧ t.cmdValid = true ∧ readFlag s.cmd = true ∧ s.nbytes < need s.cmd ∧
    t.cmd = s.cmd ∧ t.nbytes = s.nbytes + 1

/-- SHIFT_OUT (R104). -/
theorem wired_shiftOutBody {s : State} (h : Inv s) {b : Byte} {rel : Bool} (hf : s.fault = none)
    (ha : admitShiftOut b rel s = none) :
    Wired s (shiftOutBody b rel s) Config.ceActive rel (if rel then .inp else .out) (shiftOutEvents b rel) ∧ s.clk = low ∧
      s.ce = Config.ceActive ∧ MovedOut b rel s (shiftOutBody b rel s) := by
  have hgo : shiftOutBody b rel s = shiftOut b rel s := (subOp_admitted hf ha).symm
  rw [hgo]
  unfold admitShiftOut at ha
  split at ha
  · simp at ha
  split at ha
  · simp at ha
  rename_i hs hr
  have hs' : s.seq = .active := by simpa using hs
  have hr' : s.rel = false := by simpa using hr
  have hc := h.block.unreleased hr'
  have hce := h.block.ce_active.mpr hs'
  cases hv : s.cmdValid with
  | false =>
    simp only [hv, if_true] at ha
    split at ha
    · simp at ha
    rename_i hd
    have hrel : readFlag b = rel := by
      cases hx : readFlag b <;> cases rel <;> simp [hx] at ha ⊢
    subst hrel
    have hn := h.block.fresh hs' hv
    cases hat : s.peer.attached with
    | true =>
      obtain ⟨h1, h2, h3⟩ := (h.peer hat).cmd hs' hv
      rw [shiftOut_command hf hs' hr' hv hc hd hat h1 h2 h3]
      exact ⟨⟨hf, hce, rfl, rfl, trace_eq rfl⟩, hc, hce, hs', hs', rfl, .inl ⟨hv, hd, rfl, rfl, hn⟩⟩
    | false =>
      rw [shiftOut_command_disconnected hf hs' hr' hv hc hd hat]
      exact ⟨⟨hf, hce, rfl, rfl, trace_eq rfl⟩, hc, hce, hs', hs', rfl, .inl ⟨hv, hd, rfl, rfl, hn⟩⟩
  | true =>
    simp only [hv, Bool.true_eq_false, if_false] at ha
    split at ha
    · simp at ha
    split at ha
    · simp at ha
    split at ha
    · simp at ha
    rename_i hw hrel hn
    have hw' : readFlag s.cmd = false := by simpa using hw
    have hrel' : rel = false := by simpa using hrel
    subst hrel'
    obtain ⟨hd, hle⟩ := h.block.commanded hs' hv
    have h8 : need s.cmd ≤ 8 := by unfold need; split <;> omega
    cases hat : s.peer.attached with
    | true =>
      obtain ⟨h1, h2, h3, h4, h5⟩ := (h.peer hat).wdata hs' hv hw'
      rw [shiftOut_data hf hs' hr' hv hc hw' hn hat h1 h2 (by omega) h5]
      exact ⟨⟨hf, hce, hc, rfl, trace_eq rfl⟩, hc, hce, hs', hs', hv, .inr ⟨hv, hw', rfl, by omega, rfl, rfl⟩⟩
    | false =>
      rw [shiftOut_data_disconnected hf hs' hr' hv hc hw' hn hat]
      exact ⟨⟨hf, hce, hc, rfl, trace_eq rfl⟩, hc, hce, hs', hs', hv, .inr ⟨hv, hw', rfl, by omega, rfl, rfl⟩⟩

/-- SHIFT_IN (R106). -/
theorem wired_shiftInBody {s : State} (h : Inv s) (hf : s.fault = none) (ha : admitShiftIn s = none) :
    (∃ v, Wired s (shiftInBody s) Config.ceActive low .inp (shiftInEvents v)) ∧ s.ce = Config.ceActive ∧ s.iodir = .inp ∧
      MovedIn s (shiftInBody s) := by
  have hgo : shiftInBody s = shiftIn s := (subOp_admitted hf ha).symm
  rw [hgo]
  unfold admitShiftIn at ha
  split at ha
  · simp at ha
  split at ha
  · simp at ha
  split at ha
  · simp at ha
  rename_i hs hvr hn
  have hs' : s.seq = .active := by simpa using hs
  have hv : s.cmdValid = true := by simpa using fun h => hvr (Or.inl h)
  have hrd : readFlag s.cmd = true := by simpa using fun h => hvr (Or.inr h)
  have hce := h.block.ce_active.mpr hs'
  have hin := (h.block.reading hs' hv hrd).1
  have hle := (h.block.commanded hs' hv).2
  cases hat : s.peer.attached with
  | true =>
    obtain ⟨h1, h2, h3, h4, h5⟩ := (h.peer hat).rdata hs' hv hrd
    rw [shiftIn_attached hf hs' hv hrd hn hat h1 h2 (rdsrc_of_inv h hat hs' hv hrd hn)]
    exact ⟨⟨s.peer.snap.get (if cmdIdx s.cmd = 31 then s.nbytes else cmdIdx s.cmd), hf, hce, rfl, rfl, trace_eq rfl⟩, hce, hin,
      hs', hs', hv, hv, hrd, by omega, rfl, rfl⟩
  | false =>
    rw [shiftIn_disconnected hf hs' hv hrd hn hat]
    exact ⟨⟨undrivenByte s.draws, hf, hce, rfl, rfl, trace_eq rfl⟩, hce, hin, hs', hs', hv, hv, hrd, by omega, rfl, rfl⟩

/-! ## The watcher -/

/-- What the watcher knows speaks of the session's latches only. -/
theorem Watching.congr {w : Wire} {s t : State} (h : Watching w s) (seq : t.seq = s.seq) (ce : t.ce = s.ce) (clk : t.clk = s.clk)
    (iodir : t.iodir = s.iodir) (valid : t.cmdValid = s.cmdValid) (cmd : t.cmd = s.cmd) (nbytes : t.nbytes = s.nbytes) :
    Watching w t := by
  obtain ⟨h1, h2, h3, h4, h5, h6, h7⟩ := h
  exact ⟨by rw [h1, ce], by rw [h2, clk], by rw [h3, iodir], by rwa [seq], by rwa [seq], by rwa [seq, valid],
    by rwa [seq, valid, cmd, nbytes]⟩

theorem Wire.run_append (w : Wire) (xs ys : List Event) : w.run (xs ++ ys) = (w.run xs).bind (fun u => u.run ys) := by
  induction xs generalizing w with
  | nil => rfl
  | cons e xs ih =>
    simp only [List.cons_append, Wire.run]
    cases w.next e with
    | none => rfl
    | some u => exact ih u

/-- SESSION_START's events open a session (R270). -/
theorem Wire.run_start {w : Wire} (hp : w.phase = .idle) (hc : w.clk = low) :
    w.run startEvents = some { w with ce := Config.ceActive, phase := .ready, bits := 0 } := by
  obtain ⟨ce, clk, dir, phase, bits, cmd⟩ := w
  subst hp hc
  rfl

/-- SESSION_END's events close a session that is whole (R273, R277). -/
theorem Wire.run_end {w : Wire} (hp : w.phase = .ready) (hc : w.clk = low) (hw : w.whole = true) :
    w.run endEvents = some { w with ce := !Config.ceActive, phase := .idle } := by
  obtain ⟨ce, clk, dir, phase, bits, cmd⟩ := w
  subst hp hc
  simp [endEvents, Wire.run, Wire.next, Wire.when, hw]

/-- A shift's direction, at the start of a byte (R104, R106). -/
theorem Wire.run_dir {w : Wire} {d : Dir} (hp : w.phase = .ready) (h8 : w.bits % 8 = 0) (hw : w.whole = false)
    (hd : d = if w.reading then .inp else .out) : w.next (.dir d) = some { w with dir := d } := by
  obtain ⟨ce, clk, dir, phase, bits, cmd⟩ := w
  subst hp
  simp [Wire.next, Wire.when, h8, hw, ← hd]

/-- One bit of a SHIFT_OUT (R271), the last of an admitted write command among them. -/
theorem Wire.run_outBit {w : Wire} {c : Byte} {l : Level} (hp : w.phase = .ready) (hc : w.clk = low) (hd : w.dir = .out)
    (hr : w.reading = false) (hw : w.whole = false) (hcmd : (if w.bits < 8 then setBit w.cmd w.bits l else w.cmd) = c)
    (h7 : w.bits = 7 → decodeCmd c ≠ none ∧ readFlag c = false) :
    w.run (outBitEvents l) = some { w with bits := w.bits + 1, cmd := c } := by
  obtain ⟨ce, clk, dir, phase, bits, cmd⟩ := w
  subst hp hc hd
  simp only at hcmd h7
  by_cases hb : bits = 7
  · subst hb
    obtain ⟨k1, k2⟩ := h7 rfl
    simp only [show 7 < 8 from by decide, if_true] at hcmd
    subst hcmd
    simp [outBitEvents, Wire.run, Wire.next, Wire.when, hr, hw, k1, k2]
  · simp [outBitEvents, Wire.run, Wire.next, Wire.when, hr, hw, hcmd, hb]

/-- The last bit of an admitted read command: the hand-off (R274). -/
theorem Wire.run_outRelease {w : Wire} {c : Byte} {l : Level} (hp : w.phase = .ready) (hc : w.clk = low) (hd : w.dir = .out)
    (h7 : w.bits = 7) (hw : w.whole = false) (hcmd : setBit w.cmd 7 l = c) (hk : decodeCmd c ≠ none) (hr : readFlag c = true) :
    w.run (outReleaseEvents l) = some { w with clk := high, dir := .inp, bits := 8, cmd := c } := by
  obtain ⟨ce, clk, dir, phase, bits, cmd⟩ := w
  subst hp hc hd h7
  simp only at hcmd
  simp [outReleaseEvents, Wire.run, Wire.next, Wire.when, Wire.reading, hw, hcmd, hk, hr]

/-- One bit of a SHIFT_IN (R272), from either level of the clock. -/
theorem Wire.run_inBit {w : Wire} {l : Level} (hp : w.phase = .ready) (hd : w.dir = .inp) (hr : w.reading = true)
    (hw : w.whole = false) : w.run (inBitEvents l) = some { w with clk := low, bits := w.bits + 1 } := by
  obtain ⟨ce, clk, dir, phase, bits, cmd⟩ := w
  subst hp hd
  simp [inBitEvents, Wire.run, Wire.next, Wire.when, hr, hw]

/-- The bits of a command byte before its last. -/
theorem Wire.run_commandBits {w : Wire} (b : Byte) (hp : w.phase = .ready) (hc : w.clk = low) (hd : w.dir = .out)
    (hb : w.bits = 0) {n : Nat} (hn : n ≤ 7) :
    w.run ((List.range n).flatMap fun i => outBitEvents (bitAt b i)) =
      some { w with bits := n, cmd := setBits w.cmd b n } := by
  induction n with
  | zero =>
    obtain ⟨ce, clk, dir, phase, bits, cmd⟩ := w
    subst hb
    rfl
  | succ n ih =>
    rw [List.range_succ, List.flatMap_append, Wire.run_append, ih (by omega)]
    rw [List.flatMap_cons, List.flatMap_nil, List.append_nil, Option.bind_some,
      Wire.run_outBit (w := { w with bits := n, cmd := setBits w.cmd b n }) (c := setBits w.cmd b (n + 1)) hp hc hd]
    · simp [Wire.reading, show ¬8 ≤ n by omega]
    · simp [Wire.whole, show n ≠ 8 + 8 * need (setBits w.cmd b n) by omega]
    · simp [show n < 8 by omega, setBits]
    · exact fun h => absurd h (by simp; omega)

/-- A SHIFT_OUT of a session's command byte, released exactly where it is a read (R93, R104, R274). -/
theorem Wire.run_command {w : Wire} {b : Byte} (hp : w.phase = .ready) (hc : w.clk = low) (hb : w.bits = 0)
    (hk : decodeCmd b ≠ none) : w.run (shiftOutEvents b (readFlag b)) =
      some { w with clk := readFlag b, dir := if readFlag b then .inp else .out, bits := 8, cmd := b } := by
  have hall : setBit (setBits w.cmd b 7) 7 (bitAt b 7) = b := setBits_all w.cmd b
  have hw : ∀ c n, n ≤ 7 → Wire.whole { w with dir := .out, bits := n, cmd := c } = false := fun c n hn => by
    simp [Wire.whole, show n ≠ 8 + 8 * need c by omega]
  have hr : ∀ c n, n ≤ 7 → Wire.reading { w with dir := .out, bits := n, cmd := c } = false := fun c n hn => by
    simp [Wire.reading, show ¬8 ≤ n by omega]
  unfold shiftOutEvents
  rw [Wire.run, Wire.run_dir hp (by rw [hb]) (by simp [Wire.whole, hb]; omega) (by simp [Wire.reading, hb])]
  simp only
  rw [Wire.run_append, Wire.run_commandBits (w := { w with dir := .out }) b hp hc rfl hb (by omega), Option.bind_some]
  cases hf : readFlag b with
  | true =>
    rw [if_pos rfl, Wire.run_outRelease (w := { w with dir := .out, bits := 7, cmd := setBits w.cmd b 7 }) hp hc rfl rfl (hw _ 7 (by omega)) hall hk hf]
    rfl
  | false =>
    rw [if_neg (by simp), Wire.run_outBit (w := { w with dir := .out, bits := 7, cmd := setBits w.cmd b 7 }) hp hc rfl
      (hr _ 7 (by omega)) (hw _ 7 (by omega)) hall (fun _ => ⟨hk, hf⟩)]
    simp [hc]

/-- A byte still to come leaves the session short of its end. -/
theorem Wire.short {w : Wire} {n j : Nat} (hb : w.bits = 8 + 8 * n + j) (hn : n < need w.cmd) (hj : j < 8) :
    w.whole = false := by
  unfold Wire.whole
  rw [hb]
  simp
  omega

/-- Bits of a data byte that a write sends. -/
theorem Wire.run_dataBits {w : Wire} (b : Byte) {n : Nat} (hp : w.phase = .ready) (hc : w.clk = low) (hd : w.dir = .out)
    (hb : w.bits = 8 + 8 * n) (hn : n < need w.cmd) (hr : readFlag w.cmd = false) {j : Nat} (hj : j ≤ 8) :
    w.run ((List.range j).flatMap fun i => outBitEvents (bitAt b i)) = some { w with bits := 8 + 8 * n + j } := by
  induction j with
  | zero =>
    obtain ⟨ce, clk, dir, phase, bits, cmd⟩ := w
    subst hb
    rfl
  | succ j ih =>
    rw [List.range_succ, List.flatMap_append, Wire.run_append, ih (by omega)]
    rw [List.flatMap_cons, List.flatMap_nil, List.append_nil, Option.bind_some,
      Wire.run_outBit (w := { w with bits := 8 + 8 * n + j }) (c := w.cmd) hp hc hd (by simp [Wire.reading, hr])
        (Wire.short rfl hn (by omega)) (if_neg (by simp; omega)) (fun h => absurd h (by simp; omega))]
    rfl

/-- A SHIFT_OUT of a write's next data byte (R104). -/
theorem Wire.run_data {w : Wire} {b : Byte} {n : Nat} (hp : w.phase = .ready) (hc : w.clk = low) (hb : w.bits = 8 + 8 * n)
    (hn : n < need w.cmd) (hr : readFlag w.cmd = false) :
    w.run (shiftOutEvents b false) = some { w with dir := .out, bits := 8 + 8 * (n + 1) } := by
  have h8 : shiftOutEvents b false = .dir .out :: (List.range 8).flatMap fun i => outBitEvents (bitAt b i) := by
    simp [shiftOutEvents, List.range_succ]
  rw [h8, Wire.run, Wire.run_dir hp (by rw [hb]; omega) (Wire.short (j := 0) hb hn (by omega)) (by simp [Wire.reading, hr])]
  exact Wire.run_dataBits (w := { w with dir := .out }) b hp hc rfl hb hn hr (Nat.le_refl 8)

/-- Bits of a data byte that a read receives. -/
theorem Wire.run_readBits {w : Wire} (b : Byte) {n : Nat} (hp : w.phase = .ready) (hd : w.dir = .inp)
    (hb : w.bits = 8 + 8 * n) (hn : n < need w.cmd) (hr : readFlag w.cmd = true) {j : Nat} (hj : j ≤ 7) :
    w.run ((List.range (j + 1)).flatMap fun i => inBitEvents (bitAt b i)) =
      some { w with clk := low, bits := 8 + 8 * n + j + 1 } := by
  induction j with
  | zero =>
    rw [List.range_one, List.flatMap_cons, List.flatMap_nil, List.append_nil,
      Wire.run_inBit hp hd (by simp [Wire.reading, hr, hb]) (Wire.short (j := 0) hb hn (by omega)), hb]
  | succ j ih =>
    rw [List.range_succ, List.flatMap_append, Wire.run_append, ih (by omega)]
    rw [List.flatMap_cons, List.flatMap_nil, List.append_nil, Option.bind_some,
      Wire.run_inBit (w := { w with clk := low, bits := 8 + 8 * n + j + 1 }) hp hd (by simp [Wire.reading, hr]; omega)
        (Wire.short (j := j + 1) rfl hn (by omega))]
    rfl

/-- A SHIFT_IN of a read's next data byte, right after the hand-off or later (R106). -/
theorem Wire.run_read {w : Wire} {b : Byte} {n : Nat} (hp : w.phase = .ready) (hb : w.bits = 8 + 8 * n)
    (hn : n < need w.cmd) (hr : readFlag w.cmd = true) :
    w.run (shiftInEvents b) = some { w with clk := low, dir := .inp, bits := 8 + 8 * (n + 1) } := by
  unfold shiftInEvents
  rw [Wire.run, Wire.run_dir hp (by rw [hb]; omega) (Wire.short (j := 0) hb hn (by omega)) (by simp [Wire.reading, hr, hb])]
  exact Wire.run_readBits (w := { w with dir := .inp }) b hp rfl hb hn hr (Nat.le_refl 7)

end Sys2Proof.Machine
end

