-- ==== Sys2Proof/Tests/Slice0.lean ====
section
/-! SUPPORT. Tests of one step each, with expected values from 95_test_vectors or worked by hand from the rules named, and a
concrete witness for the hypotheses of every statement. -/

namespace Sys2Proof.Tests

set_option Elab.async false   -- one test after the other: side by side they ask for more threads than the limits allow

open Sys2Proof.Machine

/-! ## Well-formed terms -/

/-- The one check of WellFormed refuses a width below and above 1..4, and nothing else. -/
theorem test_wellFormed_smoke :
    (Instr.bcdPack 59#8 0).wellFormed = false ∧ (Instr.bcdPack 59#8 5).wellFormed = false ∧
    (Instr.bcdPack 59#8 1).wellFormed = true ∧ (Instr.bcdPack 59#8 4).wellFormed = true ∧
    (Instr.setYear 1999).wellFormed = true := by decide

/-! ## Decoding: one request for every row, its words written out from R91 and R95 -/

/-- R91: a register's command is ONE=1, RC=0, the index in bits 5..1, RW in bit 0. -/
theorem test_decode_wireWrites :
    decode ⟨.wireCmd, [0b10000000, 0x59]⟩ = .instr (.wrSeconds 0x59#8) ∧
    decode ⟨.wireCmd, [0b10000010, 0x30]⟩ = .instr (.wrMinutes 0x30#8) ∧
    decode ⟨.wireCmd, [0b10000100, 0x14]⟩ = .instr (.wrHours 0x14#8) ∧
    decode ⟨.wireCmd, [0b10000110, 0x15]⟩ = .instr (.wrDate 0x15#8) ∧
    decode ⟨.wireCmd, [0b10001000, 0x03]⟩ = .instr (.wrMonth 0x03#8) ∧
    decode ⟨.wireCmd, [0b10001010, 0x05]⟩ = .instr (.wrDow 0x05#8) ∧
    decode ⟨.wireCmd, [0b10001100, 0x24]⟩ = .instr (.wrYear 0x24#8) ∧
    decode ⟨.wireCmd, [0b10001110, 0x80]⟩ = .instr (.wrControl 0x80#8) ∧
    decode ⟨.wireCmd, [0b10010000, 0x5C]⟩ = .instr (.wrTrickle 0x5C#8) ∧
    decode ⟨.wireCmd, [0b10111110, 1, 2, 3, 4, 5, 6, 7, 8]⟩ = .instr (.burstWr ⟨1, 2, 3, 4, 5, 6, 7, 8⟩) := by decide

theorem test_decode_wireReads :
    decode ⟨.wireCmd, [0b10000001]⟩ = .instr .rdSeconds ∧ decode ⟨.wireCmd, [0b10000011]⟩ = .instr .rdMinutes ∧
    decode ⟨.wireCmd, [0b10000101]⟩ = .instr .rdHours ∧ decode ⟨.wireCmd, [0b10000111]⟩ = .instr .rdDate ∧
    decode ⟨.wireCmd, [0b10001001]⟩ = .instr .rdMonth ∧ decode ⟨.wireCmd, [0b10001011]⟩ = .instr .rdDow ∧
    decode ⟨.wireCmd, [0b10001101]⟩ = .instr .rdYear ∧ decode ⟨.wireCmd, [0b10001111]⟩ = .instr .rdControl ∧
    decode ⟨.wireCmd, [0b10010001]⟩ = .instr .rdTrickle ∧ decode ⟨.wireCmd, [0b10111111]⟩ = .instr .burstRd := by decide

/-- V-K7 to V-K10: bit 7 clear, bit 6 set, and the indices 9 and 30. -/
theorem test_decode_invalidCommands :
    ∀ c ∈ [0x00, 0x7F, 0xC0, 0xC1, 0xFE, 0xFF, 0x92, 0x93, 0xBC, 0xBD, 0x100],
      decode ⟨.wireCmd, [c, 0]⟩ = .badCommand := by decide

theorem test_decode_transport :
    decode ⟨.blockOp, [0x01]⟩ = .instr .sessionStart ∧ decode ⟨.blockOp, [0x02]⟩ = .instr .sessionEnd ∧
    decode ⟨.blockOp, [0x03, 0x12, 0]⟩ = .instr (.shiftOut 0x12#8 false) ∧
    decode ⟨.blockOp, [0x03, 0x81, 1]⟩ = .instr (.shiftOut 0x81#8 true) ∧
    decode ⟨.blockOp, [0x04]⟩ = .instr .shiftIn ∧ decode ⟨.blockOp, [0x05, 0x84]⟩ = .instr (.readReg 0x84#8) ∧
    decode ⟨.blockOp, [0x06, 0x8E, 0x7F]⟩ = .instr (.writeReg 0x8E#8 0x7F#8) ∧
    decode ⟨.blockOp, [0x07]⟩ = .instr .burstRead ∧
    decode ⟨.blockOp, [0x08, 1, 2, 3, 4, 5, 6, 7, 8]⟩ = .instr (.burstWrite ⟨1, 2, 3, 4, 5, 6, 7, 8⟩) := by decide

theorem test_decode_bcd :
    decode ⟨.blockOp, [0x10, 15, 1]⟩ = .instr (.bcdDecode 15#4 1#4) ∧
    decode ⟨.blockOp, [0x11, 99]⟩ = .instr (.bcdEncHigh 99#8) ∧ decode ⟨.blockOp, [0x12, 99]⟩ = .instr (.bcdEncLow 99#8) ∧
    decode ⟨.blockOp, [0x13, 59, 0]⟩ = .instr (.bcdPack 59#8 1) ∧
    decode ⟨.blockOp, [0x13, 59, 3]⟩ = .instr (.bcdPack 59#8 4) := by decide

theorem test_decode_decoders :
    decode ⟨.blockOp, [0x20, 1]⟩ = .instr (.decSeconds 1#8) ∧ decode ⟨.blockOp, [0x21, 2]⟩ = .instr (.decMinutes 2#8) ∧
    decode ⟨.blockOp, [0x22, 3]⟩ = .instr (.decHours 3#8) ∧ decode ⟨.blockOp, [0x23, 4]⟩ = .instr (.decDate 4#8) ∧
    decode ⟨.blockOp, [0x24, 5]⟩ = .instr (.decMonth 5#8) ∧ decode ⟨.blockOp, [0x25, 6]⟩ = .instr (.decDow 6#8) ∧
    decode ⟨.blockOp, [0x26, 7]⟩ = .instr (.decYear 7#8) ∧ decode ⟨.blockOp, [0x27, 8]⟩ = .instr (.decControl 8#8) ∧
    decode ⟨.blockOp, [0x28, 1, 2, 3, 4, 5, 6, 7, 8]⟩ = .instr (.decBlock ⟨1, 2, 3, 4, 5, 6, 7, 8⟩) := by decide

theorem test_decode_encoders :
    decode ⟨.blockOp, [0x30, 1]⟩ = .instr (.encSeconds 1#8) ∧ decode ⟨.blockOp, [0x31, 2]⟩ = .instr (.encMinutes 2#8) ∧
    decode ⟨.blockOp, [0x32, 3]⟩ = .instr (.encHours24 3#8) ∧ decode ⟨.blockOp, [0x33, 4]⟩ = .instr (.encDate 4#8) ∧
    decode ⟨.blockOp, [0x34, 5]⟩ = .instr (.encMonth 5#8) ∧ decode ⟨.blockOp, [0x35, 6]⟩ = .instr (.encDow 6#8) ∧
    decode ⟨.blockOp, [0x36, 65536]⟩ = .instr (.encYear 65536) ∧ decode ⟨.blockOp, [0x37]⟩ = .instr .encControl ∧
    decode ⟨.blockOp, [0x38, 14, 30, 0, 2024, 3, 15, 5]⟩ = .instr (.encBlock ⟨14#8, 30#8, 0#8, 2024, 3#8, 15#8, 5#8⟩) ∧
    decode ⟨.blockOp, [0x39, 1, 2, 3, 4, 5, 6, 7, 8, 2025, 9, 10, 11]⟩ =
      .instr (.mergeDate ⟨1, 2, 3, 4, 5, 6, 7, 8⟩ 2025 9#8 10#8 11#8) ∧
    decode ⟨.blockOp, [0x3A, 1, 2, 3, 4, 5, 6, 7, 8, 9, 10, 11]⟩ =
      .instr (.mergeTime ⟨1, 2, 3, 4, 5, 6, 7, 8⟩ 9#8 10#8 11#8) := by decide

theorem test_decode_getters :
    decode ⟨.blockOp, [0x40]⟩ = .instr .clearWp ∧ decode ⟨.blockOp, [0x41]⟩ = .instr .initChip ∧
    decode ⟨.blockOp, [0x42]⟩ = .instr .getSecond ∧ decode ⟨.blockOp, [0x43]⟩ = .instr .getMinute ∧
    decode ⟨.blockOp, [0x44]⟩ = .instr .getHour ∧ decode ⟨.blockOp, [0x45]⟩ = .instr .getDay ∧
    decode ⟨.blockOp, [0x46]⟩ = .instr .getMonth ∧ decode ⟨.blockOp, [0x47]⟩ = .instr .getDow ∧
    decode ⟨.blockOp, [0x48]⟩ = .instr .getYear ∧ decode ⟨.blockOp, [0x49]⟩ = .instr .getFull ∧
    decode ⟨.blockOp, [0x4A]⟩ = .instr .getDateOnly ∧ decode ⟨.blockOp, [0x4B]⟩ = .instr .getTimeOnly := by decide

theorem test_decode_setters :
    decode ⟨.blockOp, [0x4C, 45]⟩ = .instr (.setSecond 45#8) ∧ decode ⟨.blockOp, [0x4D, 30]⟩ = .instr (.setMinute 30#8) ∧
    decode ⟨.blockOp, [0x4E, 14]⟩ = .instr (.setHour 14#8) ∧ decode ⟨.blockOp, [0x4F, 15]⟩ = .instr (.setDay 15#8) ∧
    decode ⟨.blockOp, [0x50, 3]⟩ = .instr (.setMonth 3#8) ∧ decode ⟨.blockOp, [0x51, 5]⟩ = .instr (.setDow 5#8) ∧
    decode ⟨.blockOp, [0x52, 2024]⟩ = .instr (.setYear 2024) ∧
    decode ⟨.blockOp, [0x53, 14, 30, 0, 2024, 3, 15, 5]⟩ = .instr (.setFull ⟨14#8, 30#8, 0#8, 2024, 3#8, 15#8, 5#8⟩) ∧
    decode ⟨.blockOp, [0x54, 2025, 1, 2, 3]⟩ = .instr (.setDateOnly 2025 1#8 2#8 3#8) ∧
    decode ⟨.blockOp, [0x55, 9, 5, 7]⟩ = .instr (.setTimeOnly 9#8 5#8 7#8) := by decide

/-- V-F25's OPCs, operands out of their type, one operand short and one too many. -/
theorem test_decode_refuses :
    decode ⟨.blockOp, [0x00]⟩ = .badOpc ∧ decode ⟨.blockOp, [0x09]⟩ = .badOpc ∧ decode ⟨.blockOp, [0xFF]⟩ = .badOpc ∧
    decode ⟨.blockOp, [0x10, 16, 0]⟩ = .badOperands ∧ decode ⟨.blockOp, [0x05, 256]⟩ = .badOperands ∧
    decode ⟨.blockOp, [0x03, 0x80, 2]⟩ = .badOperands ∧ decode ⟨.blockOp, [0x13, 59, 4]⟩ = .badOperands ∧
    decode ⟨.blockOp, [0x06, 0x80]⟩ = .badOperands ∧ decode ⟨.blockOp, [0x01, 0]⟩ = .badOperands := by decide

/-- The table's words: the first byte is the low one, and operands the table gives no bits are zero. -/
theorem test_tableWords :
    decodeTableWord 8 0x04 = some .shiftIn ∧ decodeTableWord 8 0x81 = some .rdSeconds ∧
    decodeTableWord 16 0x5980 = some (.wrSeconds 0x59#8) ∧ decodeTableWord 24 0x7F8E06 = some (.writeReg 0x8E#8 0x7F#8) ∧
    decodeTableWord 8 0x53 = some (.setFull ⟨0, 0, 0, 0, 0, 0, 0⟩) ∧ decodeTableWord 8 0x09 = none := by decide

/-! ## The helper states -/

/-- An idle block with a zero-tick chip that holds these registers. -/
def chip (blk : Block) (trickle : Byte) : State := { State.reset with peer := { Peer.reset with regs := ⟨blk, trickle⟩ } }

/-- V-F's chip: 14:30:00, 15 March, day 5, year 24. -/
def afternoon : State := chip ⟨0x00, 0x30, 0x14, 0x15, 0x03, 0x05, 0x24, 0x00⟩ 0x00

/-- The same chip halted (CH = 1) and write-protected (WP = 1). -/
def halted : State := chip ⟨0x80, 0x10, 0xB1, 0x01, 0x01, 0x01, 0x00, 0x80⟩ 0x5C

/-- An open session that has no command yet, after V-T1. -/
def opened : State := { State.reset with seq := .active, ce := high, peer := { Peer.reset with pstate := .cmd } }

/-- The session of RD_SECONDS after its released command, after V-T2. -/
def released : State :=
  { opened with clk := high, rel := true, cmd := 0x81, cmdValid := true, peer := { opened.peer with pstate := .rdata, pcmd := 0x81 } }

/-- The same session with its one byte moved. -/
def readDone : State :=
  { released with clk := low, rel := false, nbytes := 1, peer := { released.peer with pk := 1, pdrive := true } }

/-- The session of WR_SECONDS after its command. -/
def commanded : State :=
  { opened with iodir := .out, cmd := 0x80, cmdValid := true, peer := { opened.peer with pstate := .wdata, pcmd := 0x80 } }

/-- The same session with its one byte moved. -/
def writeDone : State := { commanded with nbytes := 1, peer := { commanded.peer with pk := 1, wbuf := ⟨0x45, 0, 0, 0, 0, 0, 0, 0⟩ } }

/-- What one field of the state is after an instruction that answers a next state. -/
def after {α : Type} (i : Instr) (s : State) (f : State → α) : Option α :=
  match exec i s with
  | .next t => some (f t)
  | .fault _ => none
  | .refused _ => none

/-- The last result. -/
def last (s : State) : Option Result := s.results.getLast?

/-! ## The codec (V-C, V-D, V-B) -/

theorem test_bcdDecode : after (.bcdDecode 15#4 15#4) State.reset last = some (some (.byte 165#8)) := by decide
theorem test_bcdDecode_nibbleAboveNine : after (.bcdDecode 0#4 10#4) State.reset last = some (some (.byte 10#8)) := by decide
theorem test_bcdEncHigh : after (.bcdEncHigh 255#8) State.reset last = some (some (.byte 25#8)) := by decide
theorem test_bcdEncLow : after (.bcdEncLow 255#8) State.reset last = some (some (.digit 5#4)) := by decide
theorem test_bcdPack : after (.bcdPack 255#8 4) State.reset last = some (some (.byte 0x95#8)) := by decide
theorem test_bcdPack_truncates : after (.bcdPack 40#8 2) State.reset last = some (some (.byte 0x00#8)) := by decide
theorem test_decSeconds : after (.decSeconds 0xD9#8) State.reset last = some (some (.seconds 59#8 true)) := by decide
theorem test_decMinutes : after (.decMinutes 0x80#8) State.reset last = some (some (.byte 0#8)) := by decide
theorem test_decHours_24 : after (.decHours 0x54#8) State.reset last = some (some (.hours false false 14#8 14#8)) := by decide
theorem test_decHours_12 : after (.decHours 0xB1#8) State.reset last = some (some (.hours true true 11#8 31#8)) := by decide
theorem test_decDate : after (.decDate 0xFF#8) State.reset last = some (some (.byte 45#8)) := by decide
theorem test_decMonth : after (.decMonth 0x1F#8) State.reset last = some (some (.byte 25#8)) := by decide
theorem test_decDow : after (.decDow 0x0F#8) State.reset last = some (some (.byte 7#8)) := by decide
theorem test_decYear : after (.decYear 0xFF#8) State.reset last = some (some (.year 2165)) := by decide
theorem test_decControl : after (.decControl 0x7F#8) State.reset last = some (some (.flag false)) := by decide
theorem test_decBlock :
    after (.decBlock ⟨0xD9, 0x59, 0xB1, 0x31, 0x12, 0x07, 0x99, 0x80⟩) State.reset last =
      some (some (.decoded ⟨31, 59, 59, 2099, 12, 31, 7⟩ true true true 11#8 true)) := by decide
theorem test_encSeconds : after (.encSeconds 99#8) State.reset last = some (some (.byte 0x19#8)) := by decide
theorem test_encMinutes : after (.encMinutes 60#8) State.reset last = some (some (.byte 0x60#8)) := by decide
theorem test_encHours24 : after (.encHours24 40#8) State.reset last = some (some (.byte 0x00#8)) := by decide
theorem test_encDate : after (.encDate 45#8) State.reset last = some (some (.byte 0x05#8)) := by decide
theorem test_encMonth : after (.encMonth 29#8) State.reset last = some (some (.byte 0x09#8)) := by decide
theorem test_encDow : after (.encDow 9#8) State.reset last = some (some (.byte 0x01#8)) := by decide
theorem test_encYear : after (.encYear 2099) State.reset last = some (some (.byte 0x99#8)) := by decide
/-- V-B8: a year outside the window takes a draw, and the operation completes. -/
theorem test_encYear_draws : after (.encYear 1999) State.reset (fun t => (t.draws, t.hpc, t.fault)) = some (1, 1, none) := by decide
theorem test_encControl : after .encControl State.reset last = some (some (.byte 0x00#8)) := by decide
theorem test_encBlock :
    after (.encBlock ⟨23, 59, 59, 2099, 12, 31, 7⟩) State.reset last =
      some (some (.block ⟨0x59, 0x59, 0x23, 0x31, 0x12, 0x07, 0x99, 0x00⟩)) := by decide
theorem test_mergeDate :
    after (.mergeDate ⟨0xD9, 0x59, 0xB1, 0x31, 0x12, 0x07, 0x99, 0x80⟩ 2024 2#8 29#8 4#8) State.reset last =
      some (some (.block ⟨0x59, 0x59, 0x31, 0x29, 0x02, 0x04, 0x24, 0x00⟩)) := by decide
theorem test_mergeTime :
    after (.mergeTime ⟨0xD9, 0x59, 0xB1, 0xF1, 0x12, 0x07, 0x99, 0x80⟩ 0#8 0#8 0#8) State.reset last =
      some (some (.block ⟨0x00, 0x00, 0x00, 0xF1, 0x12, 0x07, 0x99, 0x00⟩)) := by decide

/-! ## Framing (V-T1 to V-T3, V-F) -/

theorem test_sessionStart :
    after .sessionStart afternoon (fun t => (t.trace, t.seq, t.peer.pstate)) =
      some ([.ce high, .clk low, .dly .ceSetup], .active, .cmd) := by decide
theorem test_sessionStart_open : after .sessionStart opened (fun t => (t.fault, t.trace.length)) = some (some .sessionOpen, 0) := by
  decide
/-- V-T2: the first and the last bit of 0x81, released. -/
theorem test_shiftOut_released :
    after (.shiftOut 0x81#8 true) opened (fun t => (t.trace.take 7, t.trace.drop 43, t.clk, t.iodir, t.rel)) =
      some ([.dir .out, .drv high, .dly .dataSetup, .clk high, .dly .clkHigh, .clk low, .dly .clkLow],
        [.drv high, .dly .dataSetup, .clk high, .dly .clkHigh, .dir .inp], high, .inp, true) := by decide +kernel
/-- A data byte reaches the peer's buffer, least significant bit first: 0x45 is not a palindrome. -/
theorem test_shiftOut_data :
    after (.shiftOut 0x45#8 false) commanded (fun t => (t.peer.wbuf.seconds, t.nbytes, t.trace.length)) =
      some (0x45#8, 1, 49) := by decide +kernel
/-- V-T3's shape, with a byte whose bits tell their order. -/
theorem test_shiftIn :
    after .shiftIn { released with peer := { released.peer with snap := ⟨⟨0x14, 0, 0, 0, 0, 0, 0, 0⟩, 0⟩ } }
      (fun t => (last t, t.trace.length, risingEdges high t.trace, fallingEdges high t.trace)) =
      some (some (.byte 0x14#8), 41, 7, 8) := by decide +kernel
theorem test_shiftIn_overrun : after .shiftIn readDone (fun t => t.fault) = some (some .overrun) := by decide
theorem test_sessionEnd :
    after .sessionEnd writeDone (fun t => (t.trace, t.peer.regs.clock.seconds, t.seq)) =
      some ([.ce low, .dly .ceRecovery], 0x45#8, .idle) := by decide
/-- V-F19. -/
theorem test_sessionEnd_underrun : after .sessionEnd commanded (fun t => t.fault) = some (some .underrun) := by decide

/-! ## Transfers (V-T4 to V-T9, V-F21, V-F22) -/

theorem test_readReg :
    after (.readReg 0x84#8) afternoon (fun t => (last t, t.trace.length, t.iodir)) = some (some (.byte 0x14#8), 94, .inp) := by
  decide +kernel
theorem test_readReg_badAddress : after (.readReg 0xBE#8) afternoon (fun t => t.fault) = some (some .badAddress) := by decide
/-- V-T5: CONTROL takes a write while WP = 1. -/
theorem test_writeReg_control :
    after (.writeReg 0x8E#8 0x00#8) halted (fun t => (t.peer.regs.clock.control, t.trace.length)) = some (0x00#8, 103) := by
  decide +kernel
/-- V-T6. -/
theorem test_writeReg_protected :
    after (.writeReg 0x82#8 0x59#8) halted (fun t => (t.peer.regs.clock.minutes, t.trace.length)) = some (0x10#8, 103) := by
  decide +kernel
theorem test_burstRead :
    after .burstRead afternoon (fun t => (last t, t.trace.length)) =
      some (some (.block ⟨0x00, 0x30, 0x14, 0x15, 0x03, 0x05, 0x24, 0x00⟩), 381) := by decide +kernel
theorem test_burstWrite :
    after (.burstWrite ⟨1, 2, 3, 4, 5, 6, 7, 0⟩) afternoon (fun t => (t.peer.regs.clock, t.trace.length)) =
      some (⟨1, 2, 3, 4, 5, 6, 7, 0⟩, 446) := by decide +kernel
/-- V-T9. -/
theorem test_burstWrite_protected :
    after (.burstWrite ⟨1, 2, 3, 4, 5, 6, 7, 0⟩) halted (fun t => t.peer.regs) = some halted.peer.regs := by decide +kernel

/-! ## Wire commands (R91 with R110 to R120): the register each one names -/

theorem test_wrSeconds : after (.wrSeconds 0x45#8) afternoon (fun t => t.peer.regs.clock.seconds) = some 0x45#8 := by decide +kernel
theorem test_rdSeconds : after .rdSeconds halted last = some (some (.byte 0x80#8)) := by decide +kernel
theorem test_wrMinutes : after (.wrMinutes 0x45#8) afternoon (fun t => t.peer.regs.clock.minutes) = some 0x45#8 := by decide +kernel
theorem test_rdMinutes : after .rdMinutes afternoon last = some (some (.byte 0x30#8)) := by decide +kernel
theorem test_wrHours : after (.wrHours 0x22#8) afternoon (fun t => t.peer.regs.clock.hours) = some 0x22#8 := by decide +kernel
theorem test_rdHours : after .rdHours afternoon last = some (some (.byte 0x14#8)) := by decide +kernel
theorem test_wrDate : after (.wrDate 0x29#8) afternoon (fun t => t.peer.regs.clock.date) = some 0x29#8 := by decide +kernel
theorem test_rdDate : after .rdDate afternoon last = some (some (.byte 0x15#8)) := by decide +kernel
theorem test_wrMonth : after (.wrMonth 0x12#8) afternoon (fun t => t.peer.regs.clock.month) = some 0x12#8 := by decide +kernel
theorem test_rdMonth : after .rdMonth afternoon last = some (some (.byte 0x03#8)) := by decide +kernel
theorem test_wrDow : after (.wrDow 0x07#8) afternoon (fun t => t.peer.regs.clock.dow) = some 0x07#8 := by decide +kernel
theorem test_rdDow : after .rdDow afternoon last = some (some (.byte 0x05#8)) := by decide +kernel
theorem test_wrYear : after (.wrYear 0x99#8) afternoon (fun t => t.peer.regs.clock.year) = some 0x99#8 := by decide +kernel
theorem test_rdYear : after .rdYear afternoon last = some (some (.byte 0x24#8)) := by decide +kernel
theorem test_wrControl : after (.wrControl 0x80#8) afternoon (fun t => t.peer.regs.clock.control) = some 0x80#8 := by decide +kernel
theorem test_rdControl : after .rdControl halted last = some (some (.byte 0x80#8)) := by decide +kernel
theorem test_wrTrickle : after (.wrTrickle 0x5C#8) afternoon (fun t => t.peer.regs.trickle) = some 0x5C#8 := by decide +kernel
theorem test_rdTrickle : after .rdTrickle halted last = some (some (.byte 0x5C#8)) := by decide +kernel
theorem test_burstWr :
    after (.burstWr ⟨1, 2, 3, 4, 5, 6, 7, 0⟩) afternoon (fun t => t.peer.regs.clock) = some ⟨1, 2, 3, 4, 5, 6, 7, 0⟩ := by
  decide +kernel
theorem test_burstRd : after .burstRd halted last = some (some (.block halted.peer.regs.clock)) := by decide +kernel

/-! ## Sequences (V-S) -/

theorem test_clearWp :
    after .clearWp halted (fun t => (t.peer.regs.clock.control, t.peer.regs.clock.seconds, t.trace.length)) =
      some (0x00#8, 0x80#8, 103) := by decide +kernel
theorem test_initChip :
    after .initChip halted (fun t => (t.peer.regs.clock.control, t.peer.regs.trickle, last t, t.trace.length)) =
      some (0x00#8, 0x00#8, some (.flag true), 206) := by decide +kernel
theorem test_getSecond : after .getSecond halted last = some (some (.byte 0#8)) := by decide +kernel
theorem test_getMinute : after .getMinute afternoon last = some (some (.byte 30#8)) := by decide +kernel
theorem test_getHour : after .getHour halted (fun t => (last t, t.trace.length)) = some (some (.byte 31#8), 94) := by decide +kernel
theorem test_getDay : after .getDay afternoon last = some (some (.byte 15#8)) := by decide +kernel
theorem test_getMonth : after .getMonth afternoon last = some (some (.byte 3#8)) := by decide +kernel
theorem test_getDow : after .getDow afternoon last = some (some (.byte 5#8)) := by decide +kernel
theorem test_getYear : after .getYear afternoon last = some (some (.year 2024)) := by decide +kernel
theorem test_getFull :
    after .getFull afternoon (fun t => (last t, t.trace.length)) = some (some (.timestamp ⟨14, 30, 0, 2024, 3, 15, 5⟩), 381) := by
  decide +kernel
theorem test_getDateOnly : after .getDateOnly afternoon last = some (some (.date 2024 3#8 15#8 5#8)) := by decide +kernel
theorem test_getTimeOnly : after .getTimeOnly afternoon last = some (some (.time 14#8 30#8 0#8)) := by decide +kernel
theorem test_setSecond :
    after (.setSecond 45#8) halted (fun t => (t.peer.regs.clock.seconds, t.trace.length)) = some (0x45#8, 206) := by decide +kernel
/-- V-S17: a single setter does not clear CH. -/
theorem test_setMinute :
    after (.setMinute 30#8) halted (fun t => (t.peer.regs.clock.minutes, t.peer.regs.clock.seconds)) = some (0x30#8, 0x80#8) := by
  decide +kernel
theorem test_setHour : after (.setHour 14#8) halted (fun t => t.peer.regs.clock.hours) = some 0x14#8 := by decide +kernel
theorem test_setDay : after (.setDay 15#8) halted (fun t => t.peer.regs.clock.date) = some 0x15#8 := by decide +kernel
theorem test_setMonth : after (.setMonth 3#8) halted (fun t => t.peer.regs.clock.month) = some 0x03#8 := by decide +kernel
theorem test_setDow : after (.setDow 5#8) halted (fun t => t.peer.regs.clock.dow) = some 0x05#8 := by decide +kernel
theorem test_setYear : after (.setYear 2024) halted (fun t => t.peer.regs.clock.year) = some 0x24#8 := by decide +kernel
/-- P1's first step: TRICKLE stays, CH, MODE12 and WP are cleared. -/
theorem test_setFull :
    after (.setFull ⟨14, 30, 0, 2024, 3, 15, 5⟩) halted (fun t => (t.peer.regs, t.trace.length)) =
      some (⟨⟨0x00, 0x30, 0x14, 0x15, 0x03, 0x05, 0x24, 0x00⟩, 0x5C⟩, 549) := by decide +kernel
/-- V-S13 on V-B17's block. -/
theorem test_setDateOnly :
    after (.setDateOnly 2025 1#8 1#8 3#8) afternoon (fun t => (t.peer.regs.clock, t.trace.length)) =
      some (⟨0x00, 0x30, 0x14, 0x01, 0x01, 0x03, 0x25, 0x00⟩, 930) := by decide +kernel
/-- V-S14. -/
theorem test_setTimeOnly :
    after (.setTimeOnly 9#8 5#8 7#8) afternoon (fun t => (t.peer.regs.clock, t.trace.length)) =
      some (⟨0x07, 0x05, 0x09, 0x15, 0x03, 0x05, 0x24, 0x00⟩, 930) := by decide +kernel

/-! ## The step -/

/-- The state with one request as the host's next. -/
def asking (s : State) (req : Request) : State := { s with program := [req] }

/-- What one field of the state is after a step that answers a next state. -/
def stepped {α : Type} (s : State) (f : State → α) : Option α :=
  match step s with
  | .next t => some (f t)
  | .fault _ => none
  | .refused _ => none

/-- V-F25. -/
theorem test_step_badOpc :
    stepped (asking State.reset ⟨.blockOp, [0x09]⟩) (fun t => (t.fault, t.hpc, t.trace.length)) = some (some .badOpc, 0, 0) := by
  decide
/-- A table word placed for the first step after reset is fetched and run. -/
theorem test_step_fetches :
    stepped (State.reset.withFetchWord 8 0x01) (fun t => (t.seq, t.hpc)) = some (.active, 1) ∧
    stepped (State.reset.withFetchWord 16 0x5980) (fun t => (t.peer.regs.clock.seconds, t.hpc)) = some (0x59#8, 1) := by
  decide +kernel

/-! ## Witnesses: states and operands that meet the hypotheses of each statement, named after it -/

/-- A ticking chip whose clock runs. -/
def running : State := { afternoon with peer := { afternoon.peer with kind := .ticking } }

/-- A ticking chip whose clock is halted. -/
def stopped : State := { halted with peer := { halted.peer with kind := .ticking } }

/-- No chip on the wires. -/
def detached : State := { State.reset with peer := { Peer.reset with kind := .disconnected } }

/-- The session of RD_SECONDS after its released command, with its trace from reset on. -/
def traced : State := { released with revTrace := (startEvents ++ shiftOutEvents 0x81#8 true).reverse }

/-- The burst sessions after their commands, and after all but the last of their bytes. -/
def burstReading : State := { released with cmd := 0xBF, peer := { released.peer with pcmd := 0xBF } }
def burstReadSeven : State :=
  { burstReading with clk := low, rel := false, nbytes := 7, peer := { burstReading.peer with pk := 7, pdrive := true } }
def burstWriteSeven : State := { commanded with cmd := 0xBE, nbytes := 7, peer := { commanded.peer with pcmd := 0xBE, pk := 7 } }
def burstWriteDone : State := { burstWriteSeven with nbytes := 8, peer := { burstWriteSeven.peer with pk := 8 } }

/-- The same session with no chip on the wires. -/
def unplugged (s : State) : State := { s with peer := detached.peer }

/-- A host program of one request on a block that a broken platform holds. -/
def sharing : State := { asking State.reset ⟨.blockOp, [0x01]⟩ with platform := ⟨⟨0, 1, 2⟩, [⟨3, 2, 4⟩], true⟩ }
def othersSharing : State :=
  { asking State.reset ⟨.blockOp, [0x01]⟩ with platform := ⟨⟨0, 1, 2⟩, [⟨3, 4, 5⟩, ⟨6, 7, 8⟩, ⟨9, 5, 10⟩], true⟩ }
def crossed : State := { asking State.reset ⟨.blockOp, [0x01]⟩ with platform := ⟨⟨0, 1, 1⟩, [], true⟩ }
def hung (s : State) : State := { s with platform := ⟨⟨0, 1, 2⟩, [], false⟩ }
def hanging : State := hung State.reset

/-- The same state with a fault recorded. -/
def faulted (s : State) : State := { s with fault := some .badOpc }

theorem ready_chip (blk : Block) (trickle : Byte) : Ready (chip blk trickle) :=
  ready_of_idle rfl rfl rfl rfl rfl rfl (fun _ => ⟨rfl, rfl⟩)

theorem ready_running : Ready running := ready_of_idle rfl rfl rfl rfl rfl rfl (fun _ => ⟨rfl, rfl⟩)
theorem ready_stopped : Ready stopped := ready_of_idle rfl rfl rfl rfl rfl rfl (fun _ => ⟨rfl, rfl⟩)
theorem ready_detached : Ready detached := ready_of_idle rfl rfl rfl rfl rfl rfl (fun _ => ⟨rfl, rfl⟩)
theorem ready_reset : Ready State.reset := ready_of_idle rfl rfl rfl rfl rfl rfl (fun _ => ⟨rfl, rfl⟩)

theorem inv_opened : Inv opened := ⟨by constructor <;> decide, fun _ => by constructor <;> decide⟩
theorem inv_released : Inv released := ⟨by constructor <;> decide, fun _ => by constructor <;> decide⟩
theorem inv_readDone : Inv readDone := ⟨by constructor <;> decide, fun _ => by constructor <;> decide⟩
theorem inv_commanded : Inv commanded := ⟨by constructor <;> decide, fun _ => by constructor <;> decide⟩
theorem inv_writeDone : Inv writeDone := ⟨by constructor <;> decide, fun _ => by constructor <;> decide⟩
theorem inv_burstReading : Inv burstReading := ⟨by constructor <;> decide, fun _ => by constructor <;> decide⟩
theorem inv_burstReadSeven : Inv burstReadSeven := ⟨by constructor <;> decide, fun _ => by constructor <;> decide⟩
theorem inv_burstWriteSeven : Inv burstWriteSeven := ⟨by constructor <;> decide, fun _ => by constructor <;> decide⟩
theorem inv_burstWriteDone : Inv burstWriteDone := ⟨by constructor <;> decide, fun _ => by constructor <;> decide⟩

theorem inv_unplugged {s : State} (h : Inv s) : Inv (unplugged s) :=
  ⟨⟨h.block.ce_active, h.block.idle, h.block.released, h.block.unreleased, h.block.fresh, h.block.commanded, h.block.reading⟩,
    fun ha => absurd ha (by show ¬(detached.peer.attached = true); decide)⟩

theorem quiet_afternoon : Quiet afternoon := ⟨by decide, by decide⟩
theorem quiet_halted : Quiet halted := ⟨by decide, by decide⟩
theorem quiet_stopped : Quiet stopped := ⟨by decide, by decide⟩

theorem inRange_low : InRange ⟨0, 0, 0, 2000, 1, 1, 1⟩ := by constructor <;> decide
theorem inRange_high : InRange ⟨23, 59, 59, 2099, 12, 31, 7⟩ := by constructor <;> decide

theorem witness_DecodeEncodeAgree : (Instr.bcdPack 0#8 1).wellFormed = true ∧ (Instr.bcdPack 255#8 4).wellFormed = true ∧
    (Instr.encYear 0).wellFormed = true := by decide

theorem witness_CommandDecoderExact : decodeCmd 0x91#8 = some (.rd .trickle) ∧ decodeCmd 0x7F#8 = none ∧
    decodeCmd 0xFF#8 = none ∧ decodeCmd 0x92#8 = none ∧ decodeCmd 0xBD#8 = none := by decide

theorem witness_SessionLengthFromCommand : decodeCmd 0x90#8 = some (.wr .trickle) ∧ decodeCmd 0x81#8 = some (.rd .seconds) ∧
    decodeCmd 0xBE#8 = some .burstWr ∧ decodeCmd 0xBF#8 = some .burstRd := by decide

theorem witness_UnknownOpcFaults : ∀ opc ∈ [0x00, 0x09, 0x0F, 0x14, 0x1F, 0x29, 0x2F, 0x3B, 0x3F, 0x56, 0xFF, 0x100],
    ¬opcListed opc ∧ (asking State.reset ⟨.blockOp, [opc]⟩).fault = none ∧
    (asking State.reset ⟨.blockOp, [opc]⟩).program[(asking State.reset ⟨.blockOp, [opc]⟩).hpc]? = some ⟨.blockOp, [opc]⟩ ∧
    (asking State.reset ⟨.blockOp, [opc]⟩).platform.shared = false ∧
    (asking State.reset ⟨.blockOp, [opc]⟩).platform.pins.distinct = true := by
  unfold opcListed; decide

theorem witness_StepRunsDecoded :
    (asking State.reset ⟨.blockOp, [0x04]⟩).fault = none ∧
    (asking State.reset ⟨.blockOp, [0x04]⟩).program[0]? = some ⟨.blockOp, [0x04]⟩ ∧
    (asking State.reset ⟨.blockOp, [0x04]⟩).platform.shared = false ∧
    (asking State.reset ⟨.blockOp, [0x04]⟩).platform.pins.distinct = true ∧ decode ⟨.blockOp, [0x04]⟩ = .instr .shiftIn := by
  decide

theorem witness_FaultedBlockDoesNothing : (faulted State.reset).fault ≠ none ∧ State.reset.program[State.reset.hpc]? = none := by
  decide

theorem witness_UnrunnableRequests :
    (sharing.fault = none ∧ sharing.program[sharing.hpc]? = some ⟨.blockOp, [0x01]⟩ ∧
      [(⟨0, 1, 2⟩ : Pins), ⟨3, 2, 4⟩].Sublist (sharing.platform.pins :: sharing.platform.others)) ∧
    (othersSharing.fault = none ∧ othersSharing.program[othersSharing.hpc]? = some ⟨.blockOp, [0x01]⟩ ∧
      [(⟨3, 4, 5⟩ : Pins), ⟨9, 5, 10⟩].Sublist (othersSharing.platform.pins :: othersSharing.platform.others)) ∧
    (crossed.fault = none ∧ crossed.program[crossed.hpc]? = some ⟨.blockOp, [0x01]⟩ ∧ crossed.platform.shared = false ∧
      crossed.platform.pins.distinct = false) ∧
    (∀ req ∈ [(⟨.wireCmd, [0xC0]⟩ : Request), ⟨.wireCmd, []⟩, ⟨.blockOp, []⟩, ⟨.blockOp, [0x10, 16, 0]⟩],
      (asking State.reset req).fault = none ∧ (asking State.reset req).program[(asking State.reset req).hpc]? = some req ∧
      (asking State.reset req).platform.shared = false ∧ (asking State.reset req).platform.pins.distinct = true) ∧
    256 ≤ 256 ∧ decodeCmd (BitVec.ofNat 8 0x7F) = none ∧ decode ⟨.wireCmd, [0xC0]⟩ = .badCommand ∧
    decode ⟨.blockOp, []⟩ = .badOpc ∧ decode ⟨.blockOp, [0x10, 16, 0]⟩ = .badOperands := by decide

theorem witness_StepAdvances :
    stepped State.reset (fun t => t.hpc) = some 0 ∧
    stepped (asking State.reset ⟨.blockOp, [0x04]⟩) (fun t => (t.fault, t.hpc)) = some (some .noSession, 0) ∧
    stepped (asking State.reset ⟨.blockOp, [0x37]⟩) (fun t => (t.fault, t.hpc)) = some (none, 1) := by decide

theorem witness_SessionOpenFaults : ∀ i ∈ [Instr.sessionStart, .readReg 0x91#8, .wrSeconds 0#8, .getFull, .setYear 1999],
    opensSession i = true ∧ opened.fault = none ∧ opened.seq = .active := by decide

theorem witness_BadAddressFaults : ∀ a ∈ [0x00#8, 0x7F#8, 0x92#8, 0xBE#8, 0xBF#8, 0xC0#8, 0xFF#8],
    a &&& 0xFE#8 ∉ [0x80#8, 0x82#8, 0x84#8, 0x86#8, 0x88#8, 0x8A#8, 0x8C#8, 0x8E#8, 0x90#8] ∧ State.reset.fault = none := by decide

theorem witness_SessionEndAndShiftInChecks :
    (State.reset.fault = none ∧ State.reset.seq = .idle) ∧
    (released.fault = none ∧ released.seq = .active ∧ released.rel = true) ∧
    (opened.fault = none ∧ opened.seq = .active ∧ opened.rel = false ∧ opened.cmdValid = false) ∧
    (commanded.fault = none ∧ commanded.seq = .active ∧ commanded.rel = false ∧ commanded.nbytes ≠ need commanded.cmd ∧
      commanded.cmd.getLsbD 0 = false) ∧
    (readDone.fault = none ∧ readDone.seq = .active ∧ readDone.cmdValid = true ∧ readDone.cmd.getLsbD 0 = true ∧
      readDone.nbytes = need readDone.cmd) := by decide

theorem witness_ShiftOutChecks :
    (State.reset.fault = none ∧ State.reset.seq = .idle) ∧ (released.seq = .active ∧ released.rel = true) ∧
    (opened.fault = none ∧ opened.seq = .active ∧ opened.rel = false ∧ opened.cmdValid = false ∧ decodeCmd 0xC0#8 = none ∧
      decodeCmd 0x81#8 ≠ none ∧ (0x81#8 : Byte).getLsbD 0 = true ∧ decodeCmd 0x80#8 ≠ none ∧ (0x80#8 : Byte).getLsbD 0 = false) ∧
    (readDone.fault = none ∧ readDone.seq = .active ∧ readDone.rel = false ∧ readDone.cmdValid = true ∧
      readDone.cmd.getLsbD 0 = true) ∧
    (writeDone.fault = none ∧ writeDone.seq = .active ∧ writeDone.rel = false ∧ writeDone.cmdValid = true ∧
      writeDone.cmd.getLsbD 0 = false ∧ writeDone.nbytes = need writeDone.cmd) := by decide

theorem witness_PinsThatHang :
    (hanging.fault = none ∧ hanging.platform.pinsReturn = false ∧ hanging.seq = .idle ∧
      opensSession .clearWp = true ∧ isCodec (.encYear 0) = true ∧ (Instr.encYear 0).wellFormed = true) ∧
    (∀ s ∈ [opened, commanded, writeDone, released], (hung s).fault = none ∧ (hung s).platform.pinsReturn = false ∧
      (hung s).seq = .active) ∧
    ((hung writeDone).rel = false ∧ (hung writeDone).cmdValid = true ∧ (hung writeDone).nbytes = need (hung writeDone).cmd) ∧
    ((hung opened).rel = false ∧ (hung opened).cmdValid = false ∧ decodeCmd 0x81#8 ≠ none) ∧
    ((hung commanded).rel = false ∧ (hung commanded).cmdValid = true ∧ (hung commanded).cmd.getLsbD 0 = false ∧
      (hung commanded).nbytes ≠ need (hung commanded).cmd) ∧
    ((hung released).cmdValid = true ∧ (hung released).cmd.getLsbD 0 = true ∧
      (hung released).nbytes ≠ need (hung released).cmd) := by decide

theorem witness_SessionStartOpens : Ready afternoon ∧ Ready running ∧ Ready detached ∧ opened.fault = none ∧ opened.seq ≠ .idle :=
  ⟨ready_chip _ _, ready_running, ready_detached, by decide, by decide⟩

theorem witness_PeerSelected : (Ready running ∧ running.peer.attached = true) ∧ (Ready detached ∧ detached.peer.attached = false) ∧
    (Ready stopped ∧ Quiet stopped) :=
  ⟨⟨ready_running, by decide⟩, ⟨ready_detached, by decide⟩, ready_stopped, quiet_stopped⟩

theorem witness_SessionEndCloses : ∀ s ∈ [readDone, writeDone, burstWriteDone, unplugged writeDone],
    Inv s ∧ s.fault = none ∧ s.platform.pinsReturn = true ∧ s.seq = .active ∧ s.rel = false ∧ s.cmdValid = true ∧
      s.nbytes = need s.cmd := by
  intro s hs
  simp only [List.mem_cons, List.not_mem_nil, or_false] at hs
  rcases hs with rfl | rfl | rfl | rfl
  · exact ⟨inv_readDone, by decide⟩
  · exact ⟨inv_writeDone, by decide⟩
  · exact ⟨inv_burstWriteDone, by decide⟩
  · exact ⟨inv_unplugged inv_writeDone, by decide⟩

theorem witness_ShiftOutSends :
    (∀ s ∈ [opened, unplugged opened], Inv s ∧ s.fault = none ∧ s.platform.pinsReturn = true ∧ s.seq = .active ∧ s.rel = false ∧
      s.cmdValid = false ∧ decodeCmd 0x80#8 ≠ none ∧ decodeCmd 0xBF#8 ≠ none) ∧
    (∀ s ∈ [commanded, burstWriteSeven, unplugged commanded], Inv s ∧ s.fault = none ∧ s.platform.pinsReturn = true ∧
      s.seq = .active ∧ s.rel = false ∧ s.cmdValid = true ∧ s.cmd.getLsbD 0 = false ∧ s.nbytes ≠ need s.cmd) := by
  refine ⟨fun s hs => ?_, fun s hs => ?_⟩ <;> simp only [List.mem_cons, List.not_mem_nil, or_false] at hs
  · rcases hs with rfl | rfl
    · exact ⟨inv_opened, by decide⟩
    · exact ⟨inv_unplugged inv_opened, by decide⟩
  · rcases hs with rfl | rfl | rfl
    · exact ⟨inv_commanded, by decide⟩
    · exact ⟨inv_burstWriteSeven, by decide⟩
    · exact ⟨inv_unplugged inv_commanded, by decide⟩

theorem witness_ShiftInReceives :
    (∀ s ∈ [released, burstReading, burstReadSeven], Inv s ∧ s.fault = none ∧ s.platform.pinsReturn = true ∧ s.seq = .active ∧
      s.cmdValid = true ∧ s.cmd.getLsbD 0 = true ∧ s.nbytes ≠ need s.cmd ∧ s.peer.attached = true) ∧
    (Inv (unplugged released) ∧ (unplugged released).fault = none ∧ (unplugged released).platform.pinsReturn = true ∧
      (unplugged released).seq = .active ∧ (unplugged released).cmdValid = true ∧ (unplugged released).cmd.getLsbD 0 = true ∧
      (unplugged released).nbytes ≠ need (unplugged released).cmd ∧ (unplugged released).peer.attached = false) := by
  refine ⟨fun s hs => ?_, inv_unplugged inv_released, by decide⟩
  simp only [List.mem_cons, List.not_mem_nil, or_false] at hs
  rcases hs with rfl | rfl | rfl
  · exact ⟨inv_released, by decide⟩
  · exact ⟨inv_burstReading, by decide⟩
  · exact ⟨inv_burstReadSeven, by decide⟩

theorem witness_ShiftOutBitTiming :
    (Inv opened ∧ opened.fault = none ∧ opened.platform.pinsReturn = true ∧ admitShiftOut 0x81#8 true opened = none) ∧
    (Inv commanded ∧ commanded.fault = none ∧ commanded.platform.pinsReturn = true ∧ admitShiftOut 0x45#8 false commanded = none) :=
  ⟨⟨inv_opened, by decide⟩, inv_commanded, by decide⟩

theorem witness_ShiftInBitTiming :
    (Inv released ∧ released.fault = none ∧ released.platform.pinsReturn = true ∧ admitShiftIn released = none) ∧
    (Inv burstReadSeven ∧ burstReadSeven.fault = none ∧ burstReadSeven.platform.pinsReturn = true ∧
      admitShiftIn burstReadSeven = none) :=
  ⟨⟨inv_released, by decide⟩, inv_burstReadSeven, by decide⟩

theorem witness_SequencerTransitions :
    after .sessionStart afternoon (fun t => t.fault) = some none ∧ after .sessionEnd writeDone (fun t => t.fault) = some none ∧
    after .shiftIn released (fun t => t.fault) = some none ∧ after (.shiftOut 1#8 false) commanded (fun t => t.fault) = some none ∧
    after .encControl opened (fun t => t.fault) = some none := by decide +kernel

theorem witness_ReadRegReads : Ready running ∧ running.peer.attached = true ∧ 0x90#8 = RegName.trickle.writeAddr ∧
    0x91#8 = RegName.trickle.readAddr := ⟨ready_running, by decide⟩

theorem witness_WriteRegWrites : Ready halted ∧ halted.peer.attached = true ∧ 0x80#8 = RegName.seconds.writeAddr ∧
    0x81#8 = RegName.seconds.readAddr := ⟨ready_chip _ _, by decide⟩

theorem witness_WireCommands : Ready running ∧ running.peer.attached = true := ⟨ready_running, by decide⟩

theorem witness_BurstTransfers : Ready running ∧ running.peer.attached = true := ⟨ready_running, by decide⟩

theorem witness_BurstReadSession : (opened.fault = none ∧ opened.seq ≠ .idle) ∧ Ready detached ∧ (Ready stopped ∧ Quiet stopped) :=
  ⟨by decide, ready_detached, ready_stopped, quiet_stopped⟩

theorem witness_BurstWriteSession : (opened.fault = none ∧ opened.seq ≠ .idle) ∧ Ready detached ∧
    (Ready afternoon ∧ Quiet afternoon ∧ wpFlag afternoon.peer.regs.clock.control = false) :=
  ⟨by decide, ready_detached, ready_chip _ _, quiet_afternoon, by decide⟩

theorem witness_DisconnectedTransfers : Ready detached ∧ detached.peer.attached = false := ⟨ready_detached, by decide⟩

theorem witness_WriteProtectRefuses : Ready stopped ∧ Quiet stopped ∧ stopped.peer.regs.clock.control.getLsbD 7 = true ∧
    RegName.trickle ≠ .control := ⟨ready_stopped, quiet_stopped, by decide⟩

theorem witness_BcdDecodeExact : State.reset.fault = none ∧ halted.fault = none := by decide
theorem witness_FieldDecoders : State.reset.fault = none ∧ halted.fault = none := by decide
theorem witness_BlockDecoder : State.reset.fault = none ∧ halted.fault = none := by decide
theorem witness_FieldEncoders : State.reset.fault = none ∧ halted.fault = none := by decide
theorem witness_BlockEncoder : State.reset.fault = none ∧ halted.fault = none := by decide
theorem witness_MergesKeepTheRest : State.reset.fault = none ∧ halted.fault = none := by decide

theorem witness_BcdEncoders : State.reset.fault = none ∧ (1 ≤ 1 ∧ (1 : Nat) ≤ 4) ∧ ((19#8 : Byte).toNat / 10 < 2 ^ 1) ∧
    ((159#8 : Byte).toNat / 10 < 2 ^ 4) ∧ ¬(1 ≤ 0 ∧ 0 ≤ 4) ∧ ¬(1 ≤ 5 ∧ 5 ≤ 4) := by decide

theorem witness_HoursDecoder : State.reset.fault = none ∧ (0x80#8 : Byte).getLsbD 7 = true ∧ (0x7F#8 : Byte).getLsbD 7 = false := by
  decide

theorem witness_YearEncoder : State.reset.fault = none ∧ (2000 ≤ 2000 ∧ 2000 ≤ 2099) ∧ (1999 < 2000 ∨ 2099 < 1999) ∧
    (2100 < 2000 ∨ 2099 < 2100) := by decide

theorem witness_BlockRoundTrip : InRange ⟨0, 0, 0, 2000, 1, 1, 1⟩ ∧ InRange ⟨23, 59, 59, 2099, 12, 31, 7⟩ ∧ afternoon.fault = none :=
  ⟨inRange_low, inRange_high, by decide⟩

theorem witness_ClearWpAndInitialize : (Ready halted ∧ Quiet halted) ∧ (Ready stopped ∧ Quiet stopped) :=
  ⟨⟨ready_chip _ _, quiet_halted⟩, ready_stopped, quiet_stopped⟩
theorem witness_FieldSetters : (Ready halted ∧ Quiet halted) ∧ (Ready stopped ∧ Quiet stopped) :=
  ⟨⟨ready_chip _ _, quiet_halted⟩, ready_stopped, quiet_stopped⟩
theorem witness_YearSetter : (Ready halted ∧ Quiet halted) ∧ (2000 ≤ 2000 ∧ 2000 ≤ 2099) ∧ (2000 ≤ 2099 ∧ 2099 ≤ 2099) ∧
    ¬(2000 ≤ 1999 ∧ 1999 ≤ 2099) ∧ ¬(2000 ≤ 2100 ∧ 2100 ≤ 2099) := ⟨⟨ready_chip _ _, quiet_halted⟩, by decide⟩
theorem witness_FullSetter : (Ready halted ∧ Quiet halted) ∧ (2000 ≤ 2000 ∧ 2000 ≤ 2099) ∧ (2000 ≤ 2099 ∧ 2099 ≤ 2099) ∧
    ¬(2000 ≤ 1999 ∧ 1999 ≤ 2099) ∧ ¬(2000 ≤ 2100 ∧ 2100 ≤ 2099) := ⟨⟨ready_chip _ _, quiet_halted⟩, by decide⟩
theorem witness_MergeSetters : (Ready halted ∧ Quiet halted) ∧ (2000 ≤ 2000 ∧ 2000 ≤ 2099) ∧ (2000 ≤ 2099 ∧ 2099 ≤ 2099) ∧
    ¬(2000 ≤ 1999 ∧ 1999 ≤ 2099) ∧ ¬(2000 ≤ 2100 ∧ 2100 ≤ 2099) := ⟨⟨ready_chip _ _, quiet_halted⟩, by decide⟩

theorem witness_FieldGetters : Ready running ∧ running.peer.attached = true := ⟨ready_running, by decide⟩
theorem witness_BlockGetters : Ready running ∧ running.peer.attached = true := ⟨ready_running, by decide⟩

theorem witness_GettersWithAnyPeer : Ready running ∧ running.peer.attached = true ∧ Ready detached := ⟨ready_running, by decide, ready_detached⟩

theorem witness_GettersReadOneRegister : Ready detached ∧ Ready stopped ∧ Quiet stopped :=
  ⟨ready_detached, ready_stopped, quiet_stopped⟩

theorem witness_SettersClearWriteProtectFirst : Ready detached ∧ Ready running := ⟨ready_detached, ready_running⟩

theorem witness_OperationsComplete : Ready detached ∧ ∀ i ∈ [Instr.clearWp, .readReg 0x91#8, .writeReg 0x80#8 0#8, .burstRd, .setTimeOnly 1#8 2#8 3#8],
    opensSession i = true ∧ i ≠ .sessionStart := ⟨ready_detached, by decide⟩

theorem witness_SetFullThenGetFull : Ready halted ∧ halted.peer.kind = .still ∧ InRange ⟨23, 59, 59, 2099, 12, 31, 7⟩ :=
  ⟨ready_chip _ _, by decide, inRange_high⟩

theorem witness_DateSetterKeepsTime : Ready halted ∧ halted.peer.kind = .still ∧
    (2000 ≤ 2099 ∧ 2099 ≤ 2099 ∧ 1 ≤ (12#8 : Byte).toNat ∧ (12#8 : Byte).toNat ≤ 12 ∧ 1 ≤ (31#8 : Byte).toNat ∧
      (31#8 : Byte).toNat ≤ 31 ∧ 1 ≤ (7#8 : Byte).toNat ∧ (7#8 : Byte).toNat ≤ 7) := ⟨ready_chip _ _, by decide⟩

theorem witness_KnownChipState : Ready halted ∧ halted.peer.kind = .still ∧ InRange ⟨0, 0, 0, 2000, 1, 1, 1⟩ :=
  ⟨ready_chip _ _, by decide, inRange_low⟩

/-- An open session that has its command, reached with its trace from reset on, and a request it runs. -/
theorem witness_StepKeepsInv : Inv (asking commanded ⟨.blockOp, [0x03, 0x45, 0]⟩) ∧
    stepped (asking commanded ⟨.blockOp, [0x03, 0x45, 0]⟩) (fun t => t.nbytes) = some 1 :=
  ⟨⟨by constructor <;> decide, fun _ => by constructor <;> decide⟩, by decide +kernel⟩

/-- From reset, and in the session of RD_SECONDS after its released command. -/
theorem witness_StepKeepsDiscipline :
    (Inv (asking State.reset ⟨.blockOp, [0x07]⟩) ∧ Disciplined (asking State.reset ⟨.blockOp, [0x07]⟩) ∧
      stepped (asking State.reset ⟨.blockOp, [0x07]⟩) (fun t => t.trace.length) = some 381) ∧
    (Inv (asking traced ⟨.blockOp, [0x04]⟩) ∧ Disciplined (asking traced ⟨.blockOp, [0x04]⟩) ∧
      stepped (asking traced ⟨.blockOp, [0x04]⟩) (fun t => t.trace.length) = some 92) :=
  ⟨⟨⟨by constructor <;> decide, fun _ => by constructor <;> decide⟩, ⟨Wire.reset, by decide, by constructor <;> decide⟩,
      by decide +kernel⟩,
    ⟨by constructor <;> decide, fun _ => by constructor <;> decide⟩,
    ⟨⟨high, high, .inp, .ready, 8, 0x81⟩, by decide +kernel, by constructor <;> decide⟩, by decide +kernel⟩

/-- The watcher admits the whole sessions of 41_transport, and none of the traces that break one of its rules: a CLK event that
is no edge outside a session (R33), the wrong delay after CE and CLK(Low) (R270), a rising edge with no DRV before its delay
and a sample with no falling edge before its delay (R107), a read command that is not released (R274) and a write command that
is, an output again in a read session (R107), an end after one of eight bytes (R277), a command byte outside R91 (R93), and a
session inside the recovery (R273). -/
theorem test_watcher :
    (∀ es ∈ [readEvents 0x81#8 0x59#8, writeEvents 0x8E#8 0#8, burstReadEvents zeroBlock, burstWriteEvents zeroBlock],
      (Wire.reset.run (es ++ startEvents)).isSome = true) ∧
    ∀ es ∈ [[.clk low], [.ce high, .clk low, .dly .clkLow], [.ce high, .clk low, .dly .rdAccess],
        startEvents ++ [.dir .out, .dly .dataSetup, .clk high],
        startEvents ++ shiftOutEvents 0x81#8 true ++ [.dir .inp, .dly .rdAccess, .smp low],
        startEvents ++ shiftOutEvents 0x81#8 false, startEvents ++ shiftOutEvents 0x80#8 true,
        startEvents ++ shiftOutEvents 0xBF#8 true ++ shiftInEvents 0x59#8 ++ [.dir .out],
        startEvents ++ shiftOutEvents 0xBE#8 false ++ shiftOutEvents 0x59#8 false ++ endEvents,
        startEvents ++ shiftOutEvents 0xC0#8 false, (writeEvents 0x80#8 0#8).dropLast ++ startEvents],
      Wire.reset.run es = none := by decide +kernel

theorem witness_NoContention : Inv (asking released ⟨.blockOp, [0x04]⟩) ∧
    stepped (asking released ⟨.blockOp, [0x04]⟩) (fun t => t.nbytes) = some 1 :=
  ⟨⟨by constructor <;> decide, fun _ => by constructor <;> decide⟩, by decide +kernel⟩

theorem witness_BlockReset : (faulted released).platform.pinsReturn = true := by decide

end Sys2Proof.Tests
end

section
/-! PROOFS. What an operation keeps, each time from one fact about a piece: the invariant, the wire discipline, the growth of the
trace, and the sequencer's state (10_state R21, R28-R33; 41_transport R104, R107; 70_reset_and_hazards R260-R277). -/

namespace Sys2Proof.Machine

/-! ## What every piece keeps, every step keeps -/

/-- A guarded update keeps what its body keeps (R28). -/
theorem State.live_keeps {P : State → Prop} {f : State → State} {s : State} (h : P s) (hf : P (f s)) : P (s.live f) := by
  unfold State.live; split
  · exact h
  · exact hf

theorem chain_keeps {P : State → Prop} (piece : ∀ {s t}, Piece s t → P s → P t) {s t : State} (h : Chain s t) (hs : P s) :
    P t := by
  induction h with
  | refl => exact hs
  | tail _ hp ih => exact piece hp ih

/-- What a raised fault, a piece of an operation and its completion keep, a step keeps. -/
theorem step_keeps {P : State → Prop} (raises : ∀ {s} r, P s → P { s with fault := some r })
    (piece : ∀ {s t}, Piece s t → P s → P t) (completes : ∀ {s} r, P s → P (s.complete r))
    {s t : State} (hs : P s) (h : step s = .next t) : P t := by
  rcases step_cases h with rfl | ⟨-, r, -, rfl⟩ | ⟨-, u, r, hu, rfl⟩
  · exact hs
  · exact raises r hs
  · exact completes r (chain_keeps piece hu hs)

/-! ## The invariant (R33) -/

theorem inv_fault {s : State} (r : FaultReason) (h : Inv s) : Inv { s with fault := some r } :=
  h.congr rfl rfl rfl rfl rfl rfl rfl rfl rfl

theorem inv_piece {s t : State} (hp : Piece s t) (h : Inv s) : Inv t := by
  cases hp with
  | sessionStart => exact inv_sessionStart h
  | sessionEnd => exact inv_sessionEnd h
  | shiftOut b rel => exact inv_shiftOut h b rel
  | shiftIn => exact inv_shiftIn h
  | bufRead k => exact State.live_keeps h (inv_buf h _)
  | bufWrite k v => exact State.live_keeps h (inv_buf h _)
  | draw => exact inv_draws h _

/-- Settles O56: every piece of an operation keeps the invariant, a fault and a completion touch none of its latches. -/
theorem stepKeepsInv : Obligations.StepKeepsInv := by
  intro s t h hstep
  exact step_keeps inv_fault inv_piece (fun r hs => inv_complete hs r) h hstep

/-! ## The wire discipline (R107, R270-R277) -/

/-- The discipline speaks of the trace and the session's latches only. -/
theorem Disciplined.congr {s t : State} (h : Disciplined s) (trace : t.trace = s.trace) (seq : t.seq = s.seq) (ce : t.ce = s.ce)
    (clk : t.clk = s.clk) (iodir : t.iodir = s.iodir) (valid : t.cmdValid = s.cmdValid) (cmd : t.cmd = s.cmd)
    (nbytes : t.nbytes = s.nbytes) : Disciplined t := by
  obtain ⟨w, hrun, hw⟩ := h
  exact ⟨w, by rwa [trace], hw.congr seq ce clk iodir valid cmd nbytes⟩

/-- Events that the watcher takes from where it stands to where the new latches say it is keep the discipline. -/
theorem Disciplined.append {s t : State} {ev : List Event} (h : Disciplined s) (trace : t.trace = s.trace ++ ev)
    (takes : ∀ w, Watching w s → ∃ w', w.run ev = some w' ∧ Watching w' t) : Disciplined t := by
  obtain ⟨w, hrun, hw⟩ := h
  obtain ⟨w', hrun', hw'⟩ := takes w hw
  exact ⟨w', by rw [trace, Wire.run_append, hrun, Option.bind_some, hrun'], hw'⟩

theorem disciplined_fault {s : State} (r : FaultReason) (h : Disciplined s) : Disciplined { s with fault := some r } :=
  h.congr rfl rfl rfl rfl rfl rfl rfl rfl

theorem disciplined_complete {s : State} (r : Result) (h : Disciplined s) : Disciplined (s.complete r) :=
  h.congr (by simp) (by simp) (by simp) (by simp) (by simp) (by simp) (by simp) (by simp)

/-- A framing operation keeps the discipline if its pseudocode does wherever it is admitted. -/
theorem disciplined_subOp {check : State → Option FaultReason} {body : State → State} {s : State} (h : Disciplined s)
    (hb : s.fault = none → check s = none → Disciplined (body s)) : Disciplined (subOp check body s) := by
  by_cases hf : s.fault = none
  · cases ha : check s with
    | none => rw [subOp_admitted hf ha]; exact hb hf ha
    | some r => rw [subOp_refused hf ha]; exact disciplined_fault r h
  · rw [subOp_faulted hf]; exact h

/-- Inside a session the watcher has seen what the latches say once these levels, its command and its count agree. -/
theorem watching_active {w : Wire} {t : State} (hs : t.seq = .active) (hv : t.cmdValid = true) (hp : w.phase = .ready)
    (hce : w.ce = t.ce) (hclk : w.clk = t.clk) (hdir : w.dir = t.iodir) (hcmd : w.cmd = t.cmd)
    (hbits : w.bits = 8 + 8 * t.nbytes) : Watching w t where
  ce := hce
  clk := hclk
  dir := hdir
  idle := by simp [hs]
  active _ := hp
  fresh := by simp [hv]
  moved _ _ := ⟨hcmd, hbits⟩

theorem disciplined_startBody {s : State} (h : Inv s) (hd : Disciplined s) (hf : s.fault = none) (ha : admitStart s = none) :
    Disciplined (startBody s) := by
  obtain ⟨⟨-, hce, hclk, hdir, htrace⟩, hlow, -, hidle, hactive, hfresh⟩ := wired_startBody h hf ha
  refine hd.append htrace fun w hw => ⟨_, Wire.run_start (hw.idle hidle) (hw.clk.trans hlow), ?_⟩
  exact { ce := hce.symm, clk := (hw.clk.trans hlow).trans hclk.symm, dir := hw.dir.trans hdir.symm,
          idle := by simp [hactive], active := fun _ => rfl, fresh := fun _ _ => rfl, moved := by simp [hfresh] }

/-- A session is only ended once the watcher too has counted all its bits (R277). -/
theorem disciplined_endBody {s : State} (h : Inv s) (hd : Disciplined s) (hf : s.fault = none) (ha : admitEnd s = none) :
    Disciplined (endBody s) := by
  obtain ⟨⟨-, hce, hclk, hdir, htrace⟩, hlow, -, hactive, hvalid, hcount, hidle⟩ := wired_endBody h hf ha
  refine hd.append htrace fun w hw => ?_
  obtain ⟨hcmd, hbits⟩ := hw.moved hactive hvalid
  have hwhole : w.whole = true := by simp [Wire.whole, hcmd, hbits, hcount]
  refine ⟨_, Wire.run_end (hw.active hactive) (hw.clk.trans hlow) hwhole, ?_⟩
  exact { ce := hce.symm, clk := (hw.clk.trans hlow).trans hclk.symm, dir := hw.dir.trans hdir.symm,
          idle := fun _ => rfl, active := by simp [hidle], fresh := by simp [hidle], moved := by simp [hidle] }

/-- A SHIFT_OUT sends the session's command byte, which the watcher spells, or a data byte it counts. -/
theorem disciplined_shiftOutBody {s : State} {b : Byte} {rel : Bool} (h : Inv s) (hd : Disciplined s) (hf : s.fault = none)
    (ha : admitShiftOut b rel s = none) : Disciplined (shiftOutBody b rel s) := by
  obtain ⟨⟨-, hce, hclk, hdir, htrace⟩, hlow, hsce, hactive, hactive', hvalid', hmoved⟩ := wired_shiftOutBody h hf ha
  refine hd.append htrace fun w hw => ?_
  have hready := hw.active hactive
  have hwce := (hw.ce.trans hsce).trans hce.symm
  have hwlow := hw.clk.trans hlow
  rcases hmoved with ⟨hv, hadmitted, rfl, hcmd, hcount⟩ | ⟨hv, hwrite, rfl, hshort, hcmd, hcount⟩
  · refine ⟨_, Wire.run_command hready hwlow (hw.fresh hactive hv) hadmitted, ?_⟩
    exact watching_active hactive' hvalid' hready hwce hclk.symm hdir.symm hcmd.symm (by simp [hcount])
  · obtain ⟨hwcmd, hbits⟩ := hw.moved hactive hv
    refine ⟨_, Wire.run_data hready hwlow hbits (by rw [hwcmd]; exact hshort) (by rw [hwcmd]; exact hwrite), ?_⟩
    exact watching_active hactive' hvalid' hready hwce (hwlow.trans hclk.symm) hdir.symm (hwcmd.trans hcmd.symm) (by simp [hcount])

theorem disciplined_shiftInBody {s : State} (h : Inv s) (hd : Disciplined s) (hf : s.fault = none)
    (ha : admitShiftIn s = none) : Disciplined (shiftInBody s) := by
  obtain ⟨⟨v, -, hce, hclk, hdir, htrace⟩, hsce, -, hactive, hactive', hv, hvalid', hread, hshort, hcmd, hcount⟩ :=
    wired_shiftInBody h hf ha
  refine hd.append htrace fun w hw => ?_
  obtain ⟨hwcmd, hbits⟩ := hw.moved hactive hv
  have hready := hw.active hactive
  refine ⟨_, Wire.run_read hready hbits (by rw [hwcmd]; exact hshort) (by rw [hwcmd]; exact hread), ?_⟩
  exact watching_active hactive' hvalid' hready ((hw.ce.trans hsce).trans hce.symm) hclk.symm hdir.symm (hwcmd.trans hcmd.symm)
    (by simp [hcount])

/-- The framing operations move the wires, and the buffer and the draws do not touch them. -/
theorem disciplined_piece {s t : State} (hp : Piece s t) (h : Inv s) (hd : Disciplined s) : Disciplined t := by
  cases hp with
  | sessionStart => exact disciplined_subOp hd (disciplined_startBody h hd)
  | sessionEnd => exact disciplined_subOp hd (disciplined_endBody h hd)
  | shiftOut b rel => exact disciplined_subOp hd (disciplined_shiftOutBody h hd)
  | shiftIn => exact disciplined_subOp hd (disciplined_shiftInBody h hd)
  | bufRead k => exact State.live_keeps hd (hd.congr rfl rfl rfl rfl rfl rfl rfl rfl)
  | bufWrite k v => exact State.live_keeps hd (hd.congr rfl rfl rfl rfl rfl rfl rfl rfl)
  | draw => exact hd.congr rfl rfl rfl rfl rfl rfl rfl rfl

/-- Settles O57: the discipline is kept together with the invariant, piece by piece. -/
theorem stepKeepsDiscipline : Obligations.StepKeepsDiscipline := by
  intro s t hinv hd hstep
  obtain ⟨-, hkept⟩ := step_keeps (P := fun s => Inv s ∧ Disciplined s)
    (fun r ⟨hi, hd⟩ => ⟨inv_fault r hi, disciplined_fault r hd⟩)
    (fun hp ⟨hi, hd⟩ => ⟨inv_piece hp hi, disciplined_piece hp hi hd⟩)
    (fun r ⟨hi, hd⟩ => ⟨inv_complete hi r, disciplined_complete r hd⟩) ⟨hinv, hd⟩ hstep
  exact hkept

/-! ## A faulted block (R28, R100) -/

theorem form_faulted {f : State → Host.Outcome State Fault Refusal} (hform : Form f) {s : State} (hs : s.fault ≠ none) :
    f s = .next s := by
  have hl : s.faulted = true := State.faulted_iff s |>.mpr hs
  cases hform with
  | transport result h => simp [runTransport, hl]
  | codec r => simp [runCodec, State.complete_of_faulted r hs]
  | yearCodec year f => simp [runYearCodec, hl]
  | pack v w => simp [execBcdPack, hl]

theorem exec_faulted (i : Instr) {s : State} (hs : s.fault ≠ none) : exec i s = .next s := form_faulted (exec_form i) hs

theorem step_of_idle {s : State} (h : s.fetch = .idle) : step s = .next s := by simp [step, h]

theorem fetch_faulted {s : State} (hs : s.fault ≠ none) : s.fetch = .idle := by simp [State.fetch, hs]

theorem fetch_end {s : State} (h : s.program[s.hpc]? = none) : s.fetch = .idle := by
  unfold State.fetch
  rw [h]
  simp

/-- Settles O7: a faulted block and a finished program fetch nothing, and each form of an operation begins with the guard. -/
theorem faultedBlockDoesNothing : Obligations.FaultedBlockDoesNothing :=
  ⟨fun _ hs => ⟨step_of_idle (fetch_faulted hs), fun i => exec_faulted i hs⟩, fun _ h => step_of_idle (fetch_end h)⟩

/-! ## The step's outcomes (R29, R30) -/

theorem grows_piece {s t : State} (hp : Piece s t) : Grows s t := by
  cases hp with
  | sessionStart => exact grows_sessionStart s
  | sessionEnd => exact grows_sessionEnd s
  | shiftOut b rel => exact grows_shiftOut b rel s
  | shiftIn => exact grows_shiftIn s
  | bufRead k => exact Grows.live ⟨⟨[], rfl⟩, rfl, rfl, rfl, rfl, rfl⟩
  | bufWrite k v => exact Grows.live ⟨⟨[], rfl⟩, rfl, rfl, rfl, rfl, rfl⟩
  | draw => exact ⟨⟨[], rfl⟩, rfl, rfl, rfl, rfl, rfl⟩

theorem grows_chain {s t : State} (h : Chain s t) : Grows s t :=
  chain_keeps (P := Grows s) (fun hp hg => hg.trans (grows_piece hp)) h (Grows.refl s)

theorem Grows.trace_append {s t : State} (h : Grows s t) : ∃ es, t.trace = s.trace ++ es := by
  obtain ⟨es, he⟩ := h.trace
  exact ⟨es.reverse, trace_eq (by rw [List.reverse_reverse, he])⟩

/-- Settles O9: of a step's three outcomes, the last ends in a fault or gives one result, and its chain of pieces grows. -/
theorem stepAdvances : Obligations.StepAdvances := by
  intro s t hstep
  rcases step_cases hstep with rfl | ⟨hf, r, -, rfl⟩ | ⟨hf, u, r, hu, rfl⟩
  · exact ⟨rfl, rfl, rfl, ⟨[], by simp⟩, .inl rfl⟩
  · exact ⟨rfl, rfl, rfl, ⟨[], by simp [State.trace]⟩, .inr (.inl ⟨hf, by simp, rfl, rfl⟩)⟩
  · have hg := grows_chain hu
    refine ⟨by simpa using hg.program, by simpa using hg.platform, by simpa using hg.kind, by simpa using hg.trace_append, .inr ?_⟩
    by_cases hu' : u.fault = none
    · rw [State.complete_of_ok r hu']
      exact .inr ⟨hf, hu', by simp [hg.hpc], r, by simp [hg.results]⟩
    · rw [State.complete_of_faulted r hu']
      exact .inl ⟨hf, hu', hg.hpc, hg.results⟩

/-! ## An admitted pin operation -/

/-- What a pin operation of a block with no fault answers: its check's fault, or the end of its pseudocode. -/
theorem runTransport_cases {check : State → Option FaultReason} {body : State → State} {result : State → Result} {s t : State}
    (hf : s.fault = none) (h : runTransport check body result s = .next t) :
    (∃ r, check s = some r ∧ t = { s with fault := some r }) ∨
      (check s = none ∧ s.platform.pinsReturn = true ∧ t = (body s).complete (result (body s))) := by
  have hl : s.faulted = false := by simp [State.faulted, hf]
  cases ha : check s with
  | some r =>
    simp only [runTransport, hl, ha, State.raise_of_ok r hf] at h
    injection h with h
    exact .inl ⟨r, rfl, h.symm⟩
  | none =>
    cases hp : s.platform.pinsReturn with
    | true =>
      simp only [runTransport, hl, ha, hp] at h
      injection h with h
      exact .inr ⟨rfl, rfl, h.symm⟩
    | false => simp [runTransport, hl, ha, hp] at h

/-- A pin operation whose check and pseudocode raise nothing completes (R30). -/
theorem runTransport_admitted {check : State → Option FaultReason} {body : State → State} {result : State → Result} {s : State}
    (hf : s.fault = none) (hp : s.platform.pinsReturn = true) (ha : check s = none) (hb : (body s).fault = none) :
    runTransport check body result s = .next ((body s).completed (result (body s))) := by
  have hl : s.faulted = false := by simp [State.faulted, hf]
  simp [runTransport, hl, ha, hp, State.complete_of_ok _ hb, State.completed]

/-- A pin operation that ends with no fault passed its check, and its pseudocode raised nothing. -/
theorem runTransport_completed {check : State → Option FaultReason} {body : State → State} {result : State → Result}
    {s t : State} (hf : s.fault = none) (h : runTransport check body result s = .next t) (ht : t.fault = none) :
    check s = none ∧ (body s).fault = none ∧ t.seq = (body s).seq := by
  rcases runTransport_cases hf h with ⟨r, -, rfl⟩ | ⟨ha, -, rfl⟩
  · cases ht
  · exact ⟨ha, by simpa using ht, by simp⟩

/-- A pin operation whose admitted pseudocode raises nothing ends with a fault only where its check raises it. -/
theorem runTransport_faults {check : State → Option FaultReason} {body : State → State} {result : State → Result}
    {s t : State} (hf : s.fault = none) (hb : check s = none → s.platform.pinsReturn = true → (body s).fault = none)
    (h : runTransport check body result s = .next t) (ht : t.fault ≠ none) : ∃ r, t = { s with fault := some r } := by
  rcases runTransport_cases hf h with ⟨r, -, rfl⟩ | ⟨ha, hp, rfl⟩
  · exact ⟨r, rfl⟩
  · exact absurd (hb ha hp) (by simpa using ht)

/-! ## SHIFT_OUT (R104) -/

/-- A SHIFT_OUT that passes its check completes with what it does as a step of a transfer, if that raises nothing. -/
theorem exec_shiftOut {s u : State} {b : Byte} {rel : Bool} (hf : s.fault = none) (hp : s.platform.pinsReturn = true)
    (ha : admitShiftOut b rel s = none) (hu : shiftOut b rel s = u) (hok : u.fault = none) :
    exec (.shiftOut b rel) s = .next (u.completed .none) := by
  have hbody : shiftOutBody b rel s = u := (subOp_admitted hf ha).symm.trans hu
  subst hbody
  exact runTransport_admitted (result := noResult) hf hp ha hok

/-- The command byte of a session, whichever peer is attached (R72, R104). -/
theorem shiftOut_command_any {s : State} (h : Inv s) (hf : s.fault = none) (hs : s.seq = .active) (hr : s.rel = false)
    (hv : s.cmdValid = false) {c : Byte} (hd : decodeCmd c ≠ none) :
    shiftOut c (readFlag c) s = { s with
      cmd := c, cmdValid := true, sr := c, bit := 8, ioOut := bitAt c 7
      iodir := if readFlag c then .inp else .out
      clk := readFlag c, rel := readFlag c
      revTrace := (shiftOutEvents c (readFlag c)).reverse ++ s.revTrace
      peer := if s.peer.attached = true then
          { s.peer with pcmd := c, pk := 0, pstate := if readFlag c then .rdata else .wdata }
        else s.peer } := by
  have hc := h.block.unreleased hr
  cases ha : s.peer.attached with
  | true =>
    obtain ⟨hstate, hbit, hdrive⟩ := (h.peer ha).cmd hs hv
    rw [shiftOut_command hf hs hr hv hc hd ha hstate hbit hdrive, if_pos rfl]
  | false => rw [shiftOut_command_disconnected hf hs hr hv hc hd ha, if_neg Bool.false_ne_true]

/-- A data byte of a write session, whichever peer is attached: an attached one has counted as many bytes (R72, R104). -/
theorem shiftOut_data_any {s : State} (h : Inv s) (hf : s.fault = none) (hs : s.seq = .active) (hr : s.rel = false)
    (hv : s.cmdValid = true) (hw : readFlag s.cmd = false) (hn : s.nbytes ≠ need s.cmd) (d : Byte) :
    shiftOut d false s = { s with
      nbytes := s.nbytes + 1, sr := d, bit := 8, ioOut := bitAt d 7, iodir := .out
      revTrace := (shiftOutEvents d false).reverse ++ s.revTrace
      peer := if s.peer.attached = true then { s.peer with wbuf := s.peer.wbuf.set s.nbytes d, pk := s.nbytes + 1 }
        else s.peer } := by
  have hc := h.block.unreleased hr
  cases ha : s.peer.attached with
  | true =>
    obtain ⟨hstate, hbit, hcount, -, hdrive⟩ := (h.peer ha).wdata hs hv hw
    have hle := (h.block.commanded hs hv).2
    have h8 : need s.cmd ≤ 8 := by unfold need; split <;> omega
    rw [shiftOut_data hf hs hr hv hc hw hn ha hstate hbit (by omega) hdrive, if_pos rfl, hcount]
  | false => rw [shiftOut_data_disconnected hf hs hr hv hc hw hn ha, if_neg Bool.false_ne_true]

/-- Settles O18: in the command phase and in the data phase the check passes, and the byte is sent whichever peer is attached. -/
theorem shiftOutSends : Obligations.ShiftOutSends := by
  intro s h hf hp hs hr
  constructor
  · intro hv c hd
    have hadm : admitShiftOut c (readFlag c) s = none := by simp [admitShiftOut, hs, hr, hv, hd]
    exact exec_shiftOut hf hp hadm (shiftOut_command_any h hf hs hr hv hd) hf
  · intro hv hw hn d
    have hwrite : readFlag s.cmd = false := hw
    have hadm : admitShiftOut d false s = none := by simp [admitShiftOut, hs, hr, hv, hwrite, hn]
    exact exec_shiftOut hf hp hadm (shiftOut_data_any h hf hs hr hv hwrite hn d) hf

/-! ## The sequencer (R21) -/

/-- A guarded update that ends with no fault has run. -/
theorem State.live_ran {f : State → State} {s : State} (h : (s.live f).fault = none) : s.live f = f s := by
  by_cases hf : s.fault = none
  · exact State.live_of_ok f hf
  · rw [State.live_of_faulted f hf] at h
    exact absurd h hf

theorem admitStart_idle {s : State} (h : admitStart s = none) : s.seq = .idle := by
  unfold admitStart at h; split at h
  · assumption
  · cases h

theorem admitEnd_active {s : State} (h : admitEnd s = none) : s.seq = .active := by
  unfold admitEnd at h; split at h
  · cases h
  · simp_all

theorem admitShiftOut_active {b : Byte} {rel : Bool} {s : State} (h : admitShiftOut b rel s = none) : s.seq = .active := by
  unfold admitShiftOut at h; split at h
  · cases h
  · simp_all

theorem admitShiftIn_active {s : State} (h : admitShiftIn s = none) : s.seq = .active := by
  unfold admitShiftIn at h; split at h
  · cases h
  · simp_all

theorem startBody_active {s : State} (h : (startBody s).fault = none) : (startBody s).seq = .active := by
  unfold startBody at h ⊢
  rw [State.live_ran h]

/-- The codec operations, by form. -/
theorem exec_codec {i : Instr} (h : isCodec i = true) :
    (∃ r, exec i = runCodec r) ∨ (∃ year f, exec i = runYearCodec year f) ∨ ∃ v w, exec i = execBcdPack v w := by
  cases i with
  | bcdDecode _ _ | bcdEncHigh _ | bcdEncLow _ => exact .inl ⟨_, rfl⟩
  | bcdPack v w => exact .inr (.inr ⟨v, w, rfl⟩)
  | decSeconds _ | decMinutes _ | decHours _ | decDate _ | decMonth _ | decDow _ | decYear _ | decControl _ | decBlock _ =>
    exact .inl ⟨_, rfl⟩
  | encSeconds _ | encMinutes _ | encHours24 _ | encDate _ | encMonth _ | encDow _ | encControl | mergeTime _ _ _ _ =>
    exact .inl ⟨_, rfl⟩
  | encYear year => exact .inr (.inl ⟨year, _, rfl⟩)
  | encBlock ts => exact .inr (.inl ⟨ts.year, fun y => .block (encBlock ts y), rfl⟩)
  | mergeDate blk year month day dow => exact .inr (.inl ⟨year, fun y => .block (mergeDate blk y month day dow), rfl⟩)
  | _ => cases h

/-- A codec operation takes at most a draw, and completes (R29, R187). -/
theorem codec_completes {i : Instr} (hi : isCodec i = true) {s t : State} (hf : s.fault = none) (h : exec i s = .next t) :
    ∃ n r, t = { s with draws := n }.completed r := by
  rcases exec_codec hi with ⟨r, hx⟩ | ⟨year, f, hx⟩ | ⟨v, w, hx⟩ <;> rw [hx] at h
  · rw [runCodec_ok hf] at h
    injection h with h
    exact ⟨s.draws, r, h.symm⟩
  · rw [runYearCodec_ok hf] at h
    injection h with h
    exact ⟨_, _, h.symm⟩
  · have hl : s.faulted = false := by simp [State.faulted, hf]
    unfold execBcdPack at h
    rw [hl, if_neg Bool.false_ne_true, runCodec_ok hf] at h
    split at h
    · injection h with h
      exact ⟨s.draws, _, h.symm⟩
    · cases h

/-- An operation opens a session, is a codec's, is another framing operation, or is a transfer whose address is refused. -/
theorem instr_kinds (i : Instr) :
    opensSession i = true ∨ isCodec i = true ∨ i = .sessionEnd ∨ (∃ b rel, i = .shiftOut b rel) ∨ i = .shiftIn ∨
      ∃ a, addressOk a = false ∧ (i = .readReg a ∨ ∃ d, i = .writeReg a d) := by
  cases i with
  | sessionEnd => exact .inr (.inr (.inl rfl))
  | shiftOut b rel => exact .inr (.inr (.inr (.inl ⟨b, rel, rfl⟩)))
  | shiftIn => exact .inr (.inr (.inr (.inr (.inl rfl))))
  | readReg a =>
    cases ha : addressOk a with
    | true => exact .inl ha
    | false => exact .inr (.inr (.inr (.inr (.inr ⟨a, ha, .inl rfl⟩))))
  | writeReg a d =>
    cases ha : addressOk a with
    | true => exact .inl ha
    | false => exact .inr (.inr (.inr (.inr (.inr ⟨a, ha, .inr ⟨d, rfl⟩⟩))))
  | bcdDecode _ _ | bcdEncHigh _ | bcdEncLow _ | bcdPack _ _ => exact .inr (.inl rfl)
  | decSeconds _ | decMinutes _ | decHours _ | decDate _ | decMonth _ | decDow _ | decYear _ | decControl _ | decBlock _ =>
    exact .inr (.inl rfl)
  | encSeconds _ | encMinutes _ | encHours24 _ | encDate _ | encMonth _ | encDow _ | encYear _ | encControl | encBlock _ =>
    exact .inr (.inl rfl)
  | mergeDate _ _ _ _ _ | mergeTime _ _ _ _ => exact .inr (.inl rfl)
  | _ => exact .inl rfl

/-- A transfer to an address outside R54 raises its fault and does nothing else. -/
theorem exec_badAddress {a : Byte} (ha : addressOk a = false) {i : Instr} (hi : i = .readReg a ∨ ∃ d, i = .writeReg a d)
    {s t : State} (hf : s.fault = none) (h : exec i s = .next t) : t = { s with fault := some .badAddress } := by
  have refused : ∀ {body result}, runTransport (admitReg a) body result s = .next t → t = { s with fault := some .badAddress } := by
    intro body result h
    rcases runTransport_cases hf h with ⟨r, hr, rfl⟩ | ⟨hn, -, -⟩
    · rw [admitReg, if_pos ha] at hr
      injection hr with hr
      rw [hr]
    · rw [admitReg, if_pos ha] at hn
      cases hn
  rcases hi with rfl | ⟨d, rfl⟩
  · exact refused h
  · exact refused h

/-- Under the invariant an operation that ends with a fault raised it at its check, and did nothing else (R242). -/
theorem exec_faults {i : Instr} {s t : State} (hinv : Inv s) (hf : s.fault = none) (h : exec i s = .next t)
    (ht : t.fault ≠ none) : ∃ r, t = { s with fault := some r } := by
  by_cases hstart : i = .sessionStart
  · subst hstart
    exact runTransport_faults (body := startBody) hf (fun ha _ => (wired_startBody hinv hf ha).1.ok) h ht
  rcases instr_kinds i with hi | hi | rfl | ⟨b, rel, rfl⟩ | rfl | ⟨a, ha, hi⟩
  · obtain ⟨check, body, result, hexec, hcheck, hbody⟩ := exec_opens hi
    obtain ⟨-, hready⟩ := hbody hstart
    rw [hexec] at h
    refine runTransport_faults hf (fun hadm hp => ?_) h ht
    rw [hcheck] at hadm
    exact (hready s ⟨hinv, hf, admitStart_idle hadm, hp⟩).ok
  · obtain ⟨n, r, rfl⟩ := codec_completes hi hf h
    exact absurd hf ht
  · exact runTransport_faults (body := endBody) hf (fun ha _ => (wired_endBody hinv hf ha).1.ok) h ht
  · exact runTransport_faults (body := shiftOutBody b rel) hf (fun ha _ => (wired_shiftOutBody hinv hf ha).1.ok) h ht
  · exact runTransport_faults (body := shiftInBody) hf
      (fun ha _ => (wired_shiftInBody hinv hf ha).1.elim fun _ hw => hw.ok) h ht
  · exact ⟨_, exec_badAddress ha hi hf h⟩

/-- A completed SESSION_START opens a session (R21). -/
theorem sessionStart_moves {s t : State} (hf : s.fault = none) (h : exec .sessionStart s = .next t) (ht : t.fault = none) :
    s.seq = .idle ∧ t.seq = .active := by
  obtain ⟨ha, hb, hseq⟩ := runTransport_completed (body := startBody) hf h ht
  exact ⟨admitStart_idle ha, hseq.trans (startBody_active hb)⟩

/-- A completed SESSION_END closes it (R21). -/
theorem sessionEnd_moves {s t : State} (hf : s.fault = none) (h : exec .sessionEnd s = .next t) (ht : t.fault = none) :
    s.seq = .active ∧ t.seq = .idle := by
  obtain ⟨ha, -, hseq⟩ := runTransport_completed (body := endBody) hf h ht
  exact ⟨admitEnd_active ha, hseq.trans (by rw [endBody_eq hf])⟩

/-- A completed shift stays inside its session (R21). -/
theorem shift_moves {i : Instr} (hi : (∃ b rel, i = .shiftOut b rel) ∨ i = .shiftIn) {s t : State} (hf : s.fault = none)
    (h : exec i s = .next t) (ht : t.fault = none) : s.seq = .active ∧ t.seq = .active := by
  rcases hi with ⟨b, rel, rfl⟩ | rfl
  · obtain ⟨ha, -, hseq⟩ := runTransport_completed (body := shiftOutBody b rel) hf h ht
    have hs := admitShiftOut_active ha
    exact ⟨hs, hseq.trans ((seq_shiftOutBody b rel s).trans hs)⟩
  · obtain ⟨ha, -, hseq⟩ := runTransport_completed (body := shiftInBody) hf h ht
    have hs := admitShiftIn_active ha
    exact ⟨hs, hseq.trans ((seq_shiftInBody s).trans hs)⟩

/-- Every other completed operation leaves the sequencer where it was: whole sessions from IDLE to IDLE, and pure codecs (R21). -/
theorem others_stay {i : Instr} (hstart : i ≠ .sessionStart) (hend : i ≠ .sessionEnd) {s t : State} (hf : s.fault = none)
    (h : exec i s = .next t) (ht : t.fault = none) : t.seq = s.seq := by
  rcases instr_kinds i with hi | hi | hi | hi | hi | ⟨a, ha, hi⟩
  · obtain ⟨check, body, result, hexec, hcheck, hbody⟩ := exec_opens hi
    rw [hexec] at h
    obtain ⟨hadm, hb, hseq⟩ := runTransport_completed hf h ht
    rw [hcheck] at hadm
    obtain ⟨hends, -⟩ := hbody hstart
    rw [hseq, hends s hb, admitStart_idle hadm]
  · obtain ⟨n, r, rfl⟩ := codec_completes hi hf h
    rfl
  · exact absurd hi hend
  · obtain ⟨hs, ht'⟩ := shift_moves (.inl hi) hf h ht
    exact ht'.trans hs.symm
  · obtain ⟨hs, ht'⟩ := shift_moves (.inr hi) hf h ht
    exact ht'.trans hs.symm
  · rw [exec_badAddress ha hi hf h]

/-- Settles O22: a completed operation moves as its row says; one that ends with a fault raised it and moved nothing. -/
theorem sequencerTransitions : Obligations.SequencerTransitions := by
  intro i s t h
  refine ⟨fun hf ht => ⟨?_, ?_, fun hi => shift_moves hi hf h ht, fun h1 h2 => others_stay h1 h2 hf h ht⟩, fun hinv ht => ?_⟩
  · rintro rfl
    exact sessionStart_moves hf h ht
  · rintro rfl
    exact sessionEnd_moves hf h ht
  · by_cases hf : s.fault = none
    · obtain ⟨r, rfl⟩ := exec_faults hinv hf h ht
      rfl
    · rw [exec_faulted i hf] at h
      injection h with h
      rw [h]

/-! ## The fetched request (R30, R95) -/

theorem fetch_runs {s : State} {req : Request} {i : Instr} (hf : s.fault = none) (hreq : s.program[s.hpc]? = some req)
    (hshared : s.platform.shared = false) (hdistinct : s.platform.pins.distinct = true) (hdec : decode req = .instr i) :
    s.fetch = .runs i := by
  simp [State.fetch, State.faulted, hf, hreq, hshared, hdistinct, hdec]

/-- Settles O6: with no fault and pins in order, what is fetched at hpc is what its request decodes to. -/
theorem stepRunsDecoded : Obligations.StepRunsDecoded := by
  intro s req i hf hreq hshared hdistinct hdec
  unfold step
  rw [fetch_runs hf hreq hshared hdistinct hdec]

/-! ## Reset (R260, R262) -/

/-- The block resets to a ready state from any state whose pins return (R260, R262). -/
theorem ready_blockReset {s : State} (hp : s.platform.pinsReturn = true) : Ready s.blockReset :=
  ready_of_idle rfl rfl hp rfl rfl rfl (fun _ => ⟨rfl, rfl⟩)

theorem ready_stateReset : Ready State.reset := ready_of_idle rfl rfl rfl rfl rfl rfl (fun _ => ⟨rfl, rfl⟩)

/-- At reset the watcher has seen nothing, and the latches say so. -/
theorem disciplined_reset : Disciplined State.reset := by
  refine ⟨Wire.reset, rfl, ?_⟩
  constructor <;> decide

/-- Settles O59: the values of R260 stand in the reset state, which is ready and which the watcher has yet to see move. -/
theorem resetState : Obligations.ResetState :=
  ⟨⟨rfl, rfl, rfl, rfl, rfl, rfl, rfl, rfl, rfl, rfl, rfl, rfl⟩, ready_stateReset.inv, disciplined_reset, ready_stateReset⟩

/-- Settles O60: each field of the reset block has the value named, and the peer is OFF, so the block is ready. -/
theorem blockReset : Obligations.BlockReset := fun _ =>
  ⟨rfl, rfl, rfl, rfl, rfl, rfl, rfl, rfl, rfl, rfl, rfl, rfl, rfl, rfl, rfl, ready_blockReset⟩

end Sys2Proof.Machine
end

section
/-! PROOFS. The chip's registers seen through the transfers: who drives the line, what a session reads and writes with a peer
and with none, and what is refused before it starts (20_memory R54, R63, R70-R77; 41_transport R106-R120; 44_sequences R203-R214). -/

namespace Sys2Proof.Machine

/-! ## The data line has one driver (R75, R107) -/

/-- Under the invariant a driving peer has been asked for a read, and the pin is an input since its hand-off. -/
theorem input_of_driving {s : State} (h : Inv s) (hd : s.peer.driving = true) : s.iodir = .inp := by
  obtain ⟨hat, hdrive⟩ : s.peer.attached = true ∧ s.peer.pdrive = true := by simpa [Peer.driving] using hd
  have hp := h.peer hat
  cases hs : s.seq with
  | idle => simp [(hp.off hs).2] at hdrive
  | active =>
    cases hv : s.cmdValid with
    | false =>
      obtain ⟨-, -, hoff⟩ := hp.cmd hs hv
      simp [hoff] at hdrive
    | true =>
      cases hr : readFlag s.cmd with
      | false =>
        obtain ⟨-, -, -, -, hoff⟩ := hp.wdata hs hv hr
        simp [hoff] at hdrive
      | true => exact (h.block.reading hs hv hr).1

/-- A framing operation raises no F_CONTENTION where neither its check nor its admitted pseudocode does. -/
theorem subOp_uncontended {check : State → Option FaultReason} {body : State → State} {s : State}
    (hs : s.fault ≠ some .contention) (hc : check s ≠ some .contention)
    (hb : s.fault = none → check s = none → (body s).fault = none) : (subOp check body s).fault ≠ some .contention := by
  by_cases hf : s.fault = none
  · cases ha : check s with
    | none => simp [subOp_admitted hf ha, hb hf ha]
    | some r =>
      rw [subOp_refused hf ha, ← ha]
      exact hc
  · rwa [subOp_faulted hf]

theorem uncontended_piece {s t : State} (hp : Piece s t) (h : Inv s) (hs : s.fault ≠ some .contention) :
    t.fault ≠ some .contention := by
  cases hp with
  | sessionStart => exact subOp_uncontended hs (admitStart_ne s) fun hf ha => (wired_startBody h hf ha).1.ok
  | sessionEnd => exact subOp_uncontended hs (admitEnd_ne s) fun hf ha => (wired_endBody h hf ha).1.ok
  | shiftOut b rel => exact subOp_uncontended hs (admitShiftOut_ne b rel s) fun hf ha => (wired_shiftOutBody h hf ha).1.ok
  | shiftIn =>
    exact subOp_uncontended hs (admitShiftIn_ne s) fun hf ha => (wired_shiftInBody h hf ha).1.elim fun _ hw => hw.ok
  | bufRead k => exact State.live_keeps (P := fun u => u.fault ≠ some .contention) hs hs
  | bufWrite k v => exact State.live_keeps (P := fun u => u.fault ≠ some .contention) hs hs
  | draw => exact hs

/-- Settles O58: no piece of an operation raises F_CONTENTION, and the invariant the step keeps parts the two drivers. -/
theorem noContention : Obligations.NoContention := by
  intro s t hinv hstep
  refine ⟨fun ht => ?_, fun ⟨hout, hdrive⟩ => ?_⟩
  · rcases step_cases hstep with rfl | ⟨-, r, hr, rfl⟩ | ⟨hf, u, r, hu, rfl⟩
    · exact ht
    · exact absurd (Option.some.inj ht) hr
    · obtain ⟨-, hne⟩ := chain_keeps (P := fun u => Inv u ∧ u.fault ≠ some .contention)
        (fun hp ⟨hi, hn⟩ => ⟨inv_piece hp hi, uncontended_piece hp hi hn⟩) hu ⟨hinv, by simp [hf]⟩
      exact absurd ((State.complete_fault u r).symm.trans ht) hne
  · have hinp := input_of_driving (stepKeepsInv s t hinv hstep) hdrive
    rw [hinp] at hout
    cases hout

/-! ## Requests that do not run (R63, R249) -/

theorem step_raises {s : State} {r : FaultReason} (hf : s.fault = none) (h : s.fetch = .raises r) :
    step s = .next { s with fault := some r } := by
  simp [step, h, State.raise_of_ok r hf]

theorem step_refuses {s : State} {r : Refusal} (h : s.fetch = .refuses r) : step s = .refused r := by simp [step, h]

theorem Pins.shares_of_mem {a b : Pins} {p : Nat} (ha : p ∈ [a.ce, a.io, a.clk]) (hb : p ∈ [b.ce, b.io, b.clk]) :
    a.shares b = true :=
  List.any_eq_true.mpr ⟨p, ha, by simpa [or_assoc] using hb⟩

/-- Two instances of a list that share a pin are found, wherever they stand (R63). -/
theorem anyShared_of_sublist {a b : Pins} (hab : a.shares b = true) {l : List Pins} (h : [a, b].Sublist l) :
    anyShared l = true := by
  induction l with
  | nil => cases h
  | cons p ps ih =>
    cases h with
    | cons _ h => simp [anyShared, ih h]
    | cons_cons _ h =>
      have hmem : b ∈ ps := List.singleton_sublist.mp h
      have : ps.any a.shares = true := List.any_eq_true.mpr ⟨b, hmem, hab⟩
      simp [anyShared, this]

theorem fetch_shared {s : State} {req : Request} (hf : s.fault = none) (hreq : s.program[s.hpc]? = some req)
    (hshared : s.platform.shared = true) : s.fetch = .raises .pinShared := by
  simp [State.fetch, State.faulted, hf, hreq, hshared]

theorem fetch_indistinct {s : State} {req : Request} (hf : s.fault = none) (hreq : s.program[s.hpc]? = some req)
    (hshared : s.platform.shared = false) (hdistinct : s.platform.pins.distinct = false) :
    s.fetch = .refuses .pinsNotDistinct := by
  simp [State.fetch, State.faulted, hf, hreq, hshared, hdistinct]

section

variable {s : State} {req : Request} (hf : s.fault = none) (hreq : s.program[s.hpc]? = some req)
  (hshared : s.platform.shared = false) (hdistinct : s.platform.pins.distinct = true)

include hf hreq hshared hdistinct

theorem fetch_badCommand (hdec : decode req = .badCommand) : s.fetch = .raises .badCommand := by
  simp [State.fetch, State.faulted, hf, hreq, hshared, hdistinct, hdec]

theorem fetch_badOpc (hdec : decode req = .badOpc) : s.fetch = .raises .badOpc := by
  simp [State.fetch, State.faulted, hf, hreq, hshared, hdistinct, hdec]

theorem fetch_badOperands (hdec : decode req = .badOperands) : s.fetch = .refuses .operandOutsideType := by
  simp [State.fetch, State.faulted, hf, hreq, hshared, hdistinct, hdec]

end

theorem decode_wireCmd_invalid {c : Nat} (h : 256 ≤ c ∨ decodeCmd (BitVec.ofNat 8 c) = none) (ws : List Nat) :
    decode ⟨.wireCmd, c :: ws⟩ = .badCommand := by
  show decodeWire c ws = .badCommand
  unfold decodeWire
  split
  · rename_i hc
    rw [h.resolve_left (by omega)]
  · rfl

/-- Settles O8: shared pins are found first, then indistinct ones, and then the request is decoded. -/
theorem unrunnableRequests : Obligations.UnrunnableRequests := by
  refine ⟨⟨rfl, rfl, fun c ws h => decode_wireCmd_invalid h ws⟩, fun s req hf hreq => ⟨?_, ?_, ?_⟩⟩
  · intro a b hsub p ha hb
    exact step_raises hf (fetch_shared hf hreq (anyShared_of_sublist (Pins.shares_of_mem ha hb) hsub))
  · intro hshared hdistinct
    exact step_refuses (fetch_indistinct hf hreq hshared hdistinct)
  · intro hshared hdistinct
    exact ⟨fun hd => step_raises hf (fetch_badCommand hf hreq hshared hdistinct hd),
      fun hd => step_raises hf (fetch_badOpc hf hreq hshared hdistinct hd),
      fun hd => step_refuses (fetch_badOperands hf hreq hshared hdistinct hd)⟩

/-! ## An address outside the nine (R54) -/

/-- A pin operation whose check fails raises its fault and does nothing else (R100). -/
theorem runTransport_refused {check : State → Option FaultReason} {body : State → State} {result : State → Result}
    {s : State} {r : FaultReason} (hf : s.fault = none) (ha : check s = some r) :
    runTransport check body result s = .next { s with fault := some r } := by
  simp [runTransport, State.faulted, hf, ha, State.raise_of_ok r hf]

/-- Settles O11: the address is the first thing either transfer's check looks at. -/
theorem badAddressFaults : Obligations.BadAddressFaults := by
  intro a d s hf ha
  have hbad : addressOk a = false := by simpa [addressOk] using ha
  have hcheck : admitReg a s = some .badAddress := by simp [admitReg, hbad]
  exact ⟨runTransport_refused hf hcheck, runTransport_refused hf hcheck⟩

/-! ## The start of a session (R71, R74) -/

/-- SESSION_START completes on a ready block with what its pseudocode does, if that raises nothing. -/
theorem exec_sessionStart {s : State} (hr : Ready s) (hb : (startBody s).fault = none) :
    exec .sessionStart s = .next ((startBody s).completed .none) :=
  runTransport_ready (body := startBody) (result := noResult) hr hr.admitStart hb

/-- Settles O16: with a peer the snapshot is what the ticks of the gap leave, and a quiet peer's gap passes none. -/
theorem peerSelected : Obligations.PeerSelected := by
  intro s hr
  have hok := (wired_startBody hr.inv hr.ok hr.admitStart).1.ok
  refine ⟨_, exec_sessionStart hr hok, ?_, ?_, ?_⟩
  · intro ha
    rw [startBody_attached hr.ok hr.clk ha (hr.off ha)]
    exact ⟨rfl, rfl⟩
  · intro ha
    rw [startBody_disconnected hr.ok hr.clk ha]
    exact ⟨rfl, rfl⟩
  · intro hq
    rw [startBody_attached hr.ok hr.clk hq.attached (hr.off hq.attached), State.elapse_quiet hq.halted]
    exact ⟨rfl, rfl⟩

/-! ## SHIFT_IN (R106) -/

/-- A SHIFT_IN that passes its check completes with what it does as a step of a transfer, if that raises nothing. -/
theorem exec_shiftIn {s u : State} (hf : s.fault = none) (hp : s.platform.pinsReturn = true) (ha : admitShiftIn s = none)
    (hu : shiftIn s = u) (hok : u.fault = none) : exec .shiftIn s = .next (u.completed (.byte u.sr)) := by
  have hbody : shiftInBody s = u := (subOp_admitted hf ha).symm.trans hu
  subst hbody
  exact runTransport_admitted (result := srResult) hf hp ha hok

/-- Settles O19: an attached peer has a byte of its snapshot to send while the count is short, and with none the line is drawn. -/
theorem shiftInReceives : Obligations.ShiftInReceives := by
  intro s h hf hp hs hv hcmd hn
  have hr : readFlag s.cmd = true := hcmd
  have hadm : admitShiftIn s = none := by simp [admitShiftIn, hs, hv, hr, hn]
  constructor
  · rintro ha v rfl
    obtain ⟨hstate, hbit, hcount, -, -⟩ := (h.peer ha).rdata hs hv hr
    have hu := shiftIn_attached hf hs hv hr hn ha hstate hbit (rdsrc_of_inv h ha hs hv hr hn)
    rw [hcount] at hu
    exact exec_shiftIn hf hp hadm hu hf
  · rintro ha v rfl
    exact exec_shiftIn hf hp hadm (shiftIn_disconnected hf hs hv hr hn ha) hf

/-! ## Operations of a ready block -/

/-- A pin operation of a ready block completes in the state its pseudocode leaves, if that holds no fault. -/
theorem runTransport_of_body {check : State → Option FaultReason} {body : State → State} {result : State → Result}
    {s u : State} (hr : Ready s) (hc : check s = none) (hu : body s = u) (hok : u.fault = none) :
    runTransport check body result s = .next (u.completed (result u)) := by
  subst hu
  exact runTransport_ready hr hc hok

/-! ## Transfers of one register (R110, R113), whoever checks their address -/

/-- Either address of a register is admitted, and names its read command and its write command (R54). -/
theorem addressOf_commands {r : RegName} {a : Byte} (h : a = r.writeAddr ∨ a = r.readAddr) :
    addressOk a = true ∧ a ||| 0x01#8 = r.readAddr ∧ a &&& 0xFE#8 = r.writeAddr := by
  obtain ⟨hwr, hrr, hww, hrw, -, -, hw, hr⟩ := regName_commands r
  rcases h with rfl | rfl
  · exact ⟨hw, hwr, hww⟩
  · exact ⟨hr, hrr, hrw⟩

/-- On a ready block the check of a register transfer passes for either address of a register. -/
theorem Ready.admitReg {s : State} (hr : Ready s) {r : RegName} {a : Byte} (h : a = r.writeAddr ∨ a = r.readAddr) :
    admitReg a s = none := by
  simp [Machine.admitReg, (addressOf_commands h).1, hr.admitStart]

/-- A read of either address of a register returns it as it stood at the session's start (R110, R111). -/
theorem runRead_attached {check : State → Option FaultReason} {s : State} (hr : Ready s) (hc : check s = none)
    (ha : s.peer.attached = true) {r : RegName} {a : Byte} (h : a = r.writeAddr ∨ a = r.readAddr) :
    runTransport check (readReg a) srResult s =
      .next ({ s.ended r.readAddr 1 (s.elapse.peer.regs.get r.idx) (readEvents r.readAddr (s.elapse.peer.regs.get r.idx)) with
        draws := s.elapse.draws
        peer := { s.peer.ended r.readAddr 1 s.elapse.peer.regs s.elapse.peer.regs with
                  plevel := bitAt (s.elapse.peer.regs.get r.idx) 7 }
      }.completed (.byte (s.elapse.peer.regs.get r.idx))) := by
  obtain ⟨hok, hread, -⟩ := addressOf_commands h
  obtain ⟨hd, hi, hrd, -⟩ := addressOk_commands a hok
  obtain ⟨-, -, -, -, hidx, -⟩ := regName_commands r
  have hbody := readReg_attached hr ha a hd hi hrd
  rw [hread, hidx] at hbody
  exact runTransport_of_body hr hc hbody hr.ok

/-- With no peer a read of either address of a register returns eight draws (R77). -/
theorem runRead_disconnected {check : State → Option FaultReason} {s : State} (hr : Ready s) (hc : check s = none)
    (ha : s.peer.attached = false) {r : RegName} {a : Byte} (h : a = r.writeAddr ∨ a = r.readAddr) :
    runTransport check (readReg a) srResult s =
      .next ({ s.ended r.readAddr 1 (undrivenByte s.draws) (readEvents r.readAddr (undrivenByte s.draws)) with
        draws := s.draws + 8 }.completed (.byte (undrivenByte s.draws))) := by
  obtain ⟨hok, hread, -⟩ := addressOf_commands h
  obtain ⟨hd, hi, hrd, -⟩ := addressOk_commands a hok
  have hbody := readReg_disconnected hr ha a hd hi hrd
  rw [hread] at hbody
  exact runTransport_of_body hr hc hbody hr.ok

/-- A write to either address of a register leaves in the chip what R73 says of the registers it found (R113, R114). -/
theorem runWrite_attached {check : State → Option FaultReason} {s : State} (hr : Ready s) (hc : check s = none)
    (ha : s.peer.attached = true) {r : RegName} {a : Byte} (h : a = r.writeAddr ∨ a = r.readAddr) (d : Byte) :
    runTransport check (writeReg a d) noResult s =
      .next ({ s.ended r.writeAddr 1 d (writeEvents r.writeAddr d) with
        draws := s.elapse.draws
        peer := { s.peer.ended r.writeAddr 1 s.elapse.peer.regs (s.elapse.peer.regs.written r.idx d) with
                  wbuf := s.peer.wbuf.set 0 d } }.completed .none) := by
  obtain ⟨hok, -, hwrite⟩ := addressOf_commands h
  obtain ⟨-, -, -, hd, hi, hrd⟩ := addressOk_commands a hok
  obtain ⟨-, -, -, -, -, hidx, -⟩ := regName_commands r
  have hbody := writeReg_attached hr ha a d hd hi hrd
  rw [hwrite, hidx] at hbody
  exact runTransport_of_body hr hc hbody hr.ok

/-- With no peer a write leaves nothing but the block's latches (R77). -/
theorem runWrite_disconnected {check : State → Option FaultReason} {s : State} (hr : Ready s) (hc : check s = none)
    (ha : s.peer.attached = false) {r : RegName} {a : Byte} (h : a = r.writeAddr ∨ a = r.readAddr) (d : Byte) :
    runTransport check (writeReg a d) noResult s =
      .next ((s.ended r.writeAddr 1 d (writeEvents r.writeAddr d)).completed .none) := by
  obtain ⟨hok, -, hwrite⟩ := addressOf_commands h
  obtain ⟨-, -, -, hd, hi, hrd⟩ := addressOk_commands a hok
  have hbody := writeReg_disconnected hr ha a d hd hi hrd
  rw [hwrite] at hbody
  exact runTransport_of_body hr hc hbody hr.ok

/-- Settles O23: READ_REG's check admits both addresses, and its session is the read of their register. -/
theorem readRegReads : Obligations.ReadRegReads := by
  rintro r a s h hr ha v rfl
  exact runRead_attached hr (hr.admitReg h) ha h

/-- Settles O24: WRITE_REG's check admits both addresses, and its session is the write of their register. -/
theorem writeRegWrites : Obligations.WriteRegWrites := by
  intro r a d s h hr ha
  exact runWrite_attached hr (hr.admitReg h) ha h d

/-! ## Bursts (R116, R119), as operations and on the wire -/

theorem exec_burstReads {i : Instr} (hi : i ∈ [Instr.burstRead, .burstRd]) :
    exec i = runTransport admitStart burstRead bufResult := by
  rcases List.mem_pair.mp hi with rfl | rfl <;> rfl

theorem exec_burstWrites {i : Instr} {blk : Block} (hi : i ∈ [Instr.burstWrite blk, .burstWr blk]) :
    exec i = runTransport admitStart (burstWrite blk) noResult := by
  rcases List.mem_pair.mp hi with rfl | rfl <;> rfl

/-- Settles O26: the operation and the wire command are the same burst. -/
theorem burstTransfers : Obligations.BurstTransfers := by
  intro s blk hr ha
  constructor
  · rintro i hi v rfl
    rw [exec_burstReads hi]
    exact runTransport_of_body hr hr.admitStart (burstRead_attached hr ha) hr.ok
  · intro i hi
    rw [exec_burstWrites hi]
    exact runTransport_of_body hr hr.admitStart (burstWrite_attached hr ha blk) hr.ok

/-! ## With no peer (R77) -/

/-- The wire's read commands, each with its register (R91). -/
theorem exec_wireReads : ∀ p ∈ [(Instr.rdSeconds, RegName.seconds), (.rdMinutes, .minutes), (.rdHours, .hours),
      (.rdDate, .date), (.rdMonth, .month), (.rdDow, .dow), (.rdYear, .year), (.rdControl, .control), (.rdTrickle, .trickle)],
    exec p.1 = wireReadOp p.2 := by
  simp only [List.forall_mem_cons, List.not_mem_nil, false_implies, implies_true, and_true]
  exact ⟨rfl, rfl, rfl, rfl, rfl, rfl, rfl, rfl, rfl⟩

/-- The wire's write commands, each with its register (R91). -/
theorem exec_wireWrites (d : Byte) : ∀ p ∈ [(Instr.wrSeconds d, RegName.seconds), (.wrMinutes d, .minutes),
      (.wrHours d, .hours), (.wrDate d, .date), (.wrMonth d, .month), (.wrDow d, .dow), (.wrYear d, .year),
      (.wrControl d, .control), (.wrTrickle d, .trickle)],
    exec p.1 = wireWriteOp p.2 d := by
  simp only [List.forall_mem_cons, List.not_mem_nil, false_implies, implies_true, and_true]
  exact ⟨rfl, rfl, rfl, rfl, rfl, rfl, rfl, rfl, rfl⟩

/-- Settles O29: each of the forms is the same session of its register, or of the burst, with nobody at the other end. -/
theorem disconnectedTransfers : Obligations.DisconnectedTransfers := by
  intro s d blk hr ha
  refine ⟨?_, ?_, ?_, ?_⟩
  · rintro ⟨j, r⟩ hp i hi v rfl
    have hwire : exec j = wireReadOp r := exec_wireReads _ hp
    simp only [List.mem_cons, List.not_mem_nil, or_false] at hi
    rcases hi with rfl | rfl | rfl
    · rw [hwire]
      exact runRead_disconnected hr hr.admitStart ha (.inr rfl)
    · exact runRead_disconnected hr (hr.admitReg (.inl rfl)) ha (.inl rfl)
    · exact runRead_disconnected hr (hr.admitReg (.inr rfl)) ha (.inr rfl)
  · rintro ⟨j, r⟩ hp i hi
    have hwire : exec j = wireWriteOp r d := exec_wireWrites d _ hp
    simp only [List.mem_cons, List.not_mem_nil, or_false] at hi
    rcases hi with rfl | rfl | rfl
    · rw [hwire]
      exact runWrite_disconnected hr hr.admitStart ha (.inl rfl) d
    · exact runWrite_disconnected hr (hr.admitReg (.inl rfl)) ha (.inl rfl) d
    · exact runWrite_disconnected hr (hr.admitReg (.inr rfl)) ha (.inr rfl) d
  · rintro i hi v rfl
    rw [exec_burstReads hi]
    exact runTransport_of_body hr hr.admitStart (burstRead_disconnected hr ha) hr.ok
  · intro i hi
    rw [exec_burstWrites hi]
    exact runTransport_of_body hr hr.admitStart (burstWrite_disconnected hr ha blk) hr.ok

/-! ## Write protection (R73, R276) -/

/-- A protected chip refuses a write of any register but CONTROL (R73). -/
theorem Regs.written_protected {r : Regs} (h : wpFlag r.clock.control = true) {n : Nat} (hn : n ≠ 7) (d : Byte) :
    r.written n d = r := by
  simp [Regs.written, h, hn]

/-- A protected chip refuses a burst, CONTROL's byte included (R73, R120). -/
theorem Regs.burstWritten_protected {r : Regs} (h : wpFlag r.clock.control = true) (blk : Block) : r.burstWritten blk = r := by
  simp [Regs.burstWritten, h]

/-- CONTROL's index is no other register's (R34). -/
theorem RegName.idx_ne_control {r : RegName} (h : r ≠ .control) : r.idx ≠ 7 := by
  revert h
  cases r <;> decide

/-- Settles O30: on a quiet chip the three writes are the taken ones' sessions, and WP alone decides what the registers become. -/
theorem writeProtectRefuses : Obligations.WriteProtectRefuses := by
  intro s r d blk hr hq hcontrol
  have hregs : s.elapse.peer.regs = s.peer.regs := by rw [State.elapse_quiet hq.halted]
  have hwp : wpFlag s.elapse.peer.regs.clock.control = true := by
    rw [hregs]
    exact hcontrol
  have hwrites := fun r => writeRegWrites r r.writeAddr d s (.inl rfl) hr hq.attached
  obtain ⟨-, hbursts⟩ := burstTransfers s blk hr hq.attached
  refine ⟨fun hne => ?_, ?_, ?_⟩
  · refine ⟨_, hwrites r, hr.ok, ?_, trace_eq rfl, rfl⟩
    exact (Regs.written_protected hwp (RegName.idx_ne_control hne) d).trans hregs
  · refine ⟨_, hbursts (.burstWrite blk) (by simp), hr.ok, ?_, trace_eq rfl, rfl⟩
    exact (Regs.burstWritten_protected hwp blk).trans hregs
  · have htaken : s.elapse.peer.regs.written 7 d = ⟨{ s.peer.regs.clock with control := d }, s.peer.regs.trickle⟩ := by
      rw [hregs, Regs.written_control, Regs.set_control]
    have hclock := congrArg Regs.clock htaken
    have htrickle := congrArg Regs.trickle htaken
    exact ⟨_, hwrites .control, hr.ok, hclock, htrickle⟩

/-! ## Getters (R203, R211), whichever peer is attached -/

/-- A single-field getter sends its one session and returns the decoded byte it sampled (R203). -/
theorem getField_any {s : State} (hr : Ready s) {a : Byte} (hok : addressOk a = true) (result : Byte → Result) :
    ∃ (t : State) (d : Byte), getField a result s = .next t ∧ Ready t ∧ t.trace = s.trace ++ readEvents (a ||| 0x01#8) d ∧
      t.results = s.results ++ [result d] ∧ t.buf = s.buf := by
  obtain ⟨d, n, p, hbody, -, hready⟩ := readReg_any hr hok
  refine ⟨_, d, runTransport_ready hr hr.admitStart hready.ok, hready.completed _, ?_, ?_, ?_⟩ <;> rw [hbody]
  · exact trace_eq rfl
  · rfl
  · rfl

/-- A block getter sends its one session, leaves the block it sampled in buf and returns what it decodes to (R211): the block
is the same whichever part of it is returned. -/
theorem getBlock_any {s : State} (hr : Ready s) (result : Timestamp → Result) :
    ∃ t, getBlock result s = .next t ∧ Ready t ∧ t.trace = s.trace ++ burstReadEvents (burstRead s).buf ∧
      t.buf = (burstRead s).buf ∧ t.results = s.results ++ [result (decTimestamp (burstRead s).buf)] := by
  have hsent := sent_burstRead hr
  refine ⟨_, runTransport_ready hr hr.admitStart hsent.ready.ok, hsent.ready.completed _, hsent.trace, rfl, ?_⟩
  exact congrArg (· ++ _) hsent.results

/-- The fields of a decoded block, each from its byte alone (R169, R170). -/
theorem decTimestamp_fields (blk : Block) :
    (decTimestamp blk).second.toNat = digits blk.seconds 3 ∧ (decTimestamp blk).minute.toNat = digits blk.minutes 3 ∧
    (decTimestamp blk).hour.toNat = digits blk.hours 2 ∧ (decTimestamp blk).day.toNat = digits blk.date 2 ∧
    (decTimestamp blk).month.toNat = digits blk.month 1 ∧ (decTimestamp blk).dow.toNat = blk.dow.toNat % 8 ∧
    (decTimestamp blk).year = 2000 + digits blk.year 4 :=
  ⟨unpackByte_toNat 3 (by decide) _, unpackByte_toNat 3 (by decide) _, unpackByte_toNat 2 (by decide) _,
    unpackByte_toNat 2 (by decide) _, unpackByte_toNat 1 (by decide) _, decDow_toNat _,
    congrArg (2000 + ·) (unpack_eq_digits 4 (by decide) _)⟩

/-- A getter of one byte of digits, as its row gives it: the command it sends and the width of the tens digit. -/
theorem getDigits_any {i : Instr} {a : Byte} {w : Nat} (hi : exec i = getField a fun d => .byte (unpackByte d w))
    (hok : addressOk a = true) (hw : w ∈ [1, 2, 3, 4]) {s : State} (hr : Ready s) :
    ∃ (t : State) (d v : Byte), exec i s = .next t ∧ Ready t ∧ t.trace = s.trace ++ readEvents (a ||| 0x01#8) d ∧
      v.toNat = digits d w ∧ t.results = s.results ++ [.byte v] ∧ t.buf = s.buf := by
  obtain ⟨t, d, hnext, hready, htrace, hresults, hbuf⟩ := getField_any hr hok fun d => .byte (unpackByte d w)
  rw [hi]
  exact ⟨t, d, unpackByte d w, hnext, hready, htrace, unpackByte_toNat w hw d, hresults, hbuf⟩

/-- Settles O46: the three field getters are reads of one byte, and the three block getters decode one burst. -/
theorem gettersWithAnyPeer : Obligations.GettersWithAnyPeer := by
  intro s hr
  constructor
  · simp only [List.forall_mem_cons, List.not_mem_nil, false_implies, implies_true, and_true]
    exact ⟨getDigits_any (a := 0x80#8) rfl (by decide) (by decide) hr,
      getDigits_any (a := 0x84#8) rfl (by decide) (by decide) hr,
      getDigits_any (a := 0x86#8) rfl (by decide) (by decide) hr⟩
  · obtain ⟨hsecond, hminute, hhour, hday, hmonth, hdow, hyear⟩ := decTimestamp_fields (burstRead s).buf
    refine ⟨(burstRead s).buf, decTimestamp (burstRead s).buf, hsecond, hminute, hhour, hday, hmonth, hdow, hyear, ?_⟩
    simp only [List.forall_mem_cons, List.not_mem_nil, false_implies, implies_true, and_true]
    exact ⟨getBlock_any hr .timestamp, getBlock_any hr fun t => .date t.year t.month t.day t.dow,
      getBlock_any hr fun t => .time t.hour t.minute t.second⟩

end Sys2Proof.Machine
end

section
/-! PROOFS. The encoding (30_encoding R90-R99): what the decoder reads is what the encoder wrote, which requests are no operation,
which bytes are commands and how long their sessions are; and the digits the BCD encoders place in a byte (42_bcd R141-R146). -/

namespace Sys2Proof.Machine

/-! ## Operand words and their readers (R95, R97) -/

/-- The words `ws` spell the operand `a`: the reader takes them off the front of any list and gives `a`. -/
def Spells {α : Type} (read : List Nat → Option (α × List Nat)) (ws : List Nat) (a : α) : Prop :=
  ∀ r, read (ws ++ r) = some (a, r)

theorem spells_byte (b : Byte) : Spells readU8 [b.toNat] b := readU8_toNat b

theorem spells_nibble (d : Nibble) : Spells readU4 [d.toNat] d := readU4_toNat d

theorem spells_bool (b : Bool) : Spells readBool [b.toNat] b := readBool_toNat b

theorem spells_nat (n : Nat) : Spells readNat [n] n := readNat_cons n

theorem spells_width {w : Nat} (h : 1 ≤ w ∧ w ≤ 4) : Spells readWidth [w - 1] w := readWidth_pred h

theorem spells_block (blk : Block) : Spells readBlock blk.words blk := readBlock_words_append blk

theorem spells_timestamp (ts : Timestamp) : Spells readTimestamp ts.words ts := fun r => by
  simp [readTimestamp, Timestamp.words]

section

variable {α β γ δ : Type} {ra : List Nat → Option (α × List Nat)} {rb : List Nat → Option (β × List Nat)}
  {rc : List Nat → Option (γ × List Nat)} {rd : List Nat → Option (δ × List Nat)} {wa wb wc wd : List Nat}
  {a : α} {b : β} {c : γ} {d : δ} (ws : List Nat)

theorem take1_of_spells {f : α → Instr} (ha : Spells ra wa a) : take1 ra f wa = .instr (f a) :=
  (takeWith_some (r := []) (by simpa using ha [])).trans rfl

theorem take2_of_spells {f : α → β → Instr} (ha : Spells ra wa a) (hb : Spells rb wb b) :
    take2 ra rb f (wa ++ wb) = .instr (f a b) :=
  (takeWith_some (ha wb)).trans (take1_of_spells hb)

theorem take3_of_spells {f : α → β → γ → Instr} (ha : Spells ra wa a) (hb : Spells rb wb b) (hc : Spells rc wc c) :
    take3 ra rb rc f (wa ++ (wb ++ wc)) = .instr (f a b c) :=
  (takeWith_some (ha _)).trans (take2_of_spells hb hc)

theorem take4_of_spells {f : α → β → γ → δ → Instr} (ha : Spells ra wa a) (hb : Spells rb wb b) (hc : Spells rc wc c)
    (hd : Spells rd wd d) : take4 ra rb rc rd f (wa ++ (wb ++ (wc ++ wd))) = .instr (f a b c d) :=
  (takeWith_some (ha _)).trans (take3_of_spells hb hc hd)

/-- Whatever words follow it, a row of the table does not answer that its OPC is unknown. -/
@[simp] theorem take0_ne_badOpc (i : Instr) : take0 i ws ≠ .badOpc := by cases ws <;> simp [take0]

@[simp] theorem takeWith_ne_badOpc {k : α → List Nat → Decoded} (hk : ∀ a r, k a r ≠ .badOpc) : takeWith ra k ws ≠ .badOpc := by
  unfold takeWith
  split
  · exact hk _ _
  · simp

@[simp] theorem take1_ne_badOpc (f : α → Instr) : take1 ra f ws ≠ .badOpc :=
  takeWith_ne_badOpc ws fun a r => take0_ne_badOpc r (f a)

@[simp] theorem take2_ne_badOpc (f : α → β → Instr) : take2 ra rb f ws ≠ .badOpc :=
  takeWith_ne_badOpc ws fun a r => take1_ne_badOpc r (f a)

@[simp] theorem take3_ne_badOpc (f : α → β → γ → Instr) : take3 ra rb rc f ws ≠ .badOpc :=
  takeWith_ne_badOpc ws fun a r => take2_ne_badOpc r (f a)

@[simp] theorem take4_ne_badOpc (f : α → β → γ → δ → Instr) : take4 ra rb rc rd f ws ≠ .badOpc :=
  takeWith_ne_badOpc ws fun a r => take3_ne_badOpc r (f a)

end

/-! ## The decoder undoes the encoder -/

/-- Settles O1: each instruction's words spell its operands, in the order in which its row reads them. -/
theorem decodeEncodeAgree : Obligations.DecodeEncodeAgree := by
  intro i hwf
  cases i with
  | rdSeconds | rdMinutes | rdHours | rdDate | rdMonth | rdDow | rdYear | rdControl | rdTrickle | burstRd => rfl
  | sessionStart | sessionEnd | shiftIn | burstRead | encControl | clearWp | initChip | getSecond | getMinute | getHour
  | getDay | getMonth | getDow | getYear | getFull | getDateOnly | getTimeOnly => rfl
  | wrSeconds d | wrMinutes d | wrHours d | wrDate d | wrMonth d | wrDow d | wrYear d | wrControl d | wrTrickle d =>
    exact (decode_wireRequest _ _).trans (take1_of_spells (spells_byte d))
  | burstWr blk => exact (decode_wireRequest _ _).trans (take1_of_spells (spells_block blk))
  | readReg b | bcdEncHigh b | bcdEncLow b | decSeconds b | decMinutes b | decHours b | decDate b | decMonth b | decDow b
  | decYear b | decControl b | encSeconds b | encMinutes b | encHours24 b | encDate b | encMonth b | encDow b | setSecond b
  | setMinute b | setHour b | setDay b | setMonth b | setDow b => exact take1_of_spells (spells_byte b)
  | encYear year | setYear year => exact take1_of_spells (spells_nat year)
  | burstWrite blk | decBlock blk => exact take1_of_spells (spells_block blk)
  | encBlock ts | setFull ts => exact take1_of_spells (spells_timestamp ts)
  | shiftOut b rel => exact take2_of_spells (spells_byte b) (spells_bool rel)
  | writeReg a d => exact take2_of_spells (spells_byte a) (spells_byte d)
  | bcdDecode h l => exact take2_of_spells (spells_nibble h) (spells_nibble l)
  | bcdPack v w =>
    have hw : 1 ≤ w ∧ w ≤ 4 := by simpa [Instr.wellFormed] using hwf
    exact take2_of_spells (spells_byte v) (spells_width hw)
  | setTimeOnly hour minute second =>
    exact take3_of_spells (spells_byte hour) (spells_byte minute) (spells_byte second)
  | setDateOnly year month day dow =>
    exact take4_of_spells (spells_nat year) (spells_byte month) (spells_byte day) (spells_byte dow)
  | mergeTime blk hour minute second =>
    exact take4_of_spells (spells_block blk) (spells_byte hour) (spells_byte minute) (spells_byte second)
  | mergeDate blk year month day dow =>
    exact (takeWith_some (spells_block blk _)).trans
      (take4_of_spells (spells_nat year) (spells_byte month) (spells_byte day) (spells_byte dow))

theorem decode_of_encode_eq {i : Instr} {req : Request} (hwf : i.wellFormed = true) (h : encode i = req) :
    decode req = .instr i := by
  rw [← h]
  exact decodeEncodeAgree i hwf

/-- Settles O2: each request is what the encoder writes for its instruction. -/
theorem decodesSpecWords : Obligations.DecodesSpecWords := by
  refine ⟨?_, ?_, ?_, ?_, ?_, ?_, ?_, ?_, ?_, ?_, ?_, ?_, ?_, ?_⟩ <;> exact decode_of_encode_eq rfl rfl

/-! ## OPCs outside the table (R95, R99, R241 row 1) -/

/-- The decoder's rows are the OPCs of R95's table, and its last arm takes every other. -/
theorem decodeOp_badOpc_iff (opc : Nat) (ws : List Nat) : decodeOp opc ws = .badOpc ↔ ¬opcListed opc := by
  unfold decodeOp
  split
  case h_55 =>
    have hunlisted : ¬opcListed opc := by
      unfold opcListed
      simp only [imp_false] at *
      omega
    exact iff_of_true rfl hunlisted
  all_goals simp [opcListed]

/-- Settles O5: a request of an unlisted OPC decodes to no operation, and its step raises the fault and ends there. -/
theorem unknownOpcFaults : Obligations.UnknownOpcFaults := by
  refine ⟨decodeOp_badOpc_iff, fun s opc ws hf hreq hshared hdistinct hopc => ?_⟩
  exact step_raises hf (fetch_badOpc hf hreq hshared hdistinct ((decodeOp_badOpc_iff opc ws).mpr hopc))

/-! ## Command bytes (R90-R93, R99) -/

/-- A field of a byte is its bits, read as a number (R11). -/
theorem toNat_extractLsb' (b : Byte) (lo w : Nat) : (b.extractLsb' lo w).toNat = field b lo w := by
  simp [field, Nat.shiftRight_eq_div_pow]

/-- A bit of a byte, read as a number (R11). -/
theorem toNat_bitAt (b : Byte) (i : Nat) : (bitAt b i).toNat = b.toNat / 2 ^ i % 2 := Nat.toNat_testBit _ _

theorem field_lt (b : Byte) (lo w : Nat) : field b lo w < 2 ^ w := Nat.mod_lt _ (Nat.two_pow_pos w)

theorem RegName.ofIdx_eq_some_iff (n : Nat) (r : RegName) : RegName.ofIdx n = some r ↔ r.idx = n := by
  constructor
  · unfold RegName.ofIdx
    split <;> rintro ⟨⟩ <;> rfl
  · rintro rfl
    cases r <;> rfl

theorem RegName.ofIdx_eq_none_iff (n : Nat) : RegName.ofIdx n = none ↔ 9 ≤ n := by
  unfold RegName.ofIdx
  split
  case h_10 =>
    have hbeyond : 9 ≤ n := by
      simp only [imp_false] at *
      omega
    exact iff_of_true rfl hbeyond
  all_goals simp

/-- The mark bits of a command byte are 1 and 0; every other byte is INVALID (R90, R99). -/
theorem decodeCmd_unmarked {c : Byte} (h : bitAt c 7 = false ∨ bitAt c 6 = true) : decodeCmd c = none := by
  rcases h with h | h <;> simp [decodeCmd, h]

section

variable {c : Byte} (h7 : bitAt c 7 = true) (h6 : bitAt c 6 = false)

include h7 h6

theorem decodeCmd_burst (h : field c 1 5 = 31) : decodeCmd c = some (if bitAt c 0 then .burstRd else .burstWr) := by
  simp [decodeCmd, h7, h6, h]

theorem decodeCmd_register (h : field c 1 5 ≠ 31) :
    decodeCmd c = (RegName.ofIdx (field c 1 5)).map (fun r => if bitAt c 0 then .rd r else .wr r) := by
  simp [decodeCmd, h7, h6, h]

/-- The byte of the row found has the index and the read bit that were decoded (R91). -/
theorem toNat_of_decodeCmd {w : WireCmd} (h : decodeCmd c = some w) :
    w.byte.toNat = 128 + 2 * field c 1 5 + (bitAt c 0).toNat := by
  by_cases hidx : field c 1 5 = 31
  · rw [decodeCmd_burst h7 h6 hidx] at h
    obtain rfl := Option.some.inj h
    rw [hidx]
    cases bitAt c 0 <;> rfl
  · rw [decodeCmd_register h7 h6 hidx] at h
    obtain ⟨r, hr, rfl⟩ := Option.map_eq_some_iff.mp h
    rw [← (RegName.ofIdx_eq_some_iff _ r).mp hr]
    cases bitAt c 0 <;> cases r <;> rfl

/-- A byte is its two mark bits, its index and its read bit (R90). -/
theorem toNat_of_marked : c.toNat = 128 + 2 * field c 1 5 + (bitAt c 0).toNat := by
  have hc := c.isLt
  have b7 := toNat_bitAt c 7
  have b6 := toNat_bitAt c 6
  rw [h7, Bool.toNat_true] at b7
  rw [h6, Bool.toNat_false] at b6
  rw [toNat_bitAt]
  unfold field
  omega

/-- Of the marked bytes those are INVALID whose index is neither a register's nor the burst's (R99). -/
theorem decodeCmd_marked_eq_none_iff : decodeCmd c = none ↔ 9 ≤ field c 1 5 ∧ field c 1 5 ≤ 30 := by
  have hlt := field_lt c 1 5
  by_cases hidx : field c 1 5 = 31
  · simp [decodeCmd_burst h7 h6 hidx, hidx]
  · rw [decodeCmd_register h7 h6 hidx, Option.map_eq_none_iff, RegName.ofIdx_eq_none_iff]
    omega

end

theorem unmarked_or_marked (c : Byte) :
    (bitAt c 7 = false ∨ bitAt c 6 = true) ∨ (bitAt c 7 = true ∧ bitAt c 6 = false) := by
  cases bitAt c 7 <;> cases bitAt c 6 <;> decide

/-- The decoder finds no row for a byte but the row of that byte (R91). -/
theorem byte_of_decodeCmd {c : Byte} {w : WireCmd} (h : decodeCmd c = some w) : w.byte = c := by
  rcases unmarked_or_marked c with hun | ⟨h7, h6⟩
  · rw [decodeCmd_unmarked hun] at h
    cases h
  · exact BitVec.eq_of_toNat_eq ((toNat_of_decodeCmd h7 h6 h).trans (toNat_of_marked h7 h6).symm)

theorem decodeCmd_eq_none_iff (c : Byte) :
    decodeCmd c = none ↔ bitAt c 7 = false ∨ bitAt c 6 = true ∨ (9 ≤ field c 1 5 ∧ field c 1 5 ≤ 30) := by
  rcases unmarked_or_marked c with hun | ⟨h7, h6⟩
  · exact iff_of_true (decodeCmd_unmarked hun) (or_assoc.mp (.inl hun))
  · simp [decodeCmd_marked_eq_none_iff h7 h6, h7, h6]

/-- Settles O3: a byte is rebuilt from the row found for it, and no row is found in the two INVALID cases alone. -/
theorem commandDecoderExact : Obligations.CommandDecoderExact := by
  refine ⟨fun c w => ⟨byte_of_decodeCmd, ?_⟩, fun c => ?_⟩
  · rintro rfl
    exact decodeCmd_byte w
  · rw [toNat_extractLsb']
    exact decodeCmd_eq_none_iff c

/-- Settles O4: the index field alone gives the length, and each row's byte has its row's index and read bit. -/
theorem sessionLengthFromCommand : Obligations.SessionLengthFromCommand := by
  intro c
  refine ⟨?_, rfl, fun w hw => ?_⟩
  · have hidx : field c 1 5 = 31 ↔ c.extractLsb' 1 5 = 31#5 := by
      rw [← BitVec.toNat_inj, toNat_extractLsb']
      rfl
    simp only [need, hidx]
  · obtain rfl := byte_of_decodeCmd hw
    cases w with
    | wr r => cases r <;> exact ⟨rfl, rfl⟩
    | rd r => cases r <;> exact ⟨rfl, rfl⟩
    | burstWr => exact ⟨rfl, rfl⟩
    | burstRd => exact ⟨rfl, rfl⟩

/-! ## Wire commands of one register (R91, R110, R113) -/

/-- Settles O25: a wire command is its register's session, at the address that is its own command byte. -/
theorem wireCommands : Obligations.WireCommands := by
  intro s d hr ha
  constructor
  · rintro ⟨i, r⟩ hp v rfl
    have hwire : exec i = wireReadOp r := exec_wireReads _ hp
    rw [hwire]
    exact runRead_attached hr hr.admitStart ha (.inr rfl)
  · rintro ⟨i, r⟩ hp
    have hwire : exec i = wireWriteOp r d := exec_wireWrites d _ hp
    rw [hwire]
    exact runWrite_attached hr hr.admitStart ha (.inl rfl) d

/-! ## The digits of a byte (R141-R146) -/

/-- With a width of the codec both digits lie inside the byte (R143). -/
theorem pack_toNat (v : Byte) {w : Nat} (hw : 1 ≤ w ∧ w ≤ 4) :
    (pack v w).toNat = v.toNat / 10 % 2 ^ w * 16 + v.toNat % 10 := by
  have hpow : 2 ^ w ≤ 2 ^ 4 := Nat.pow_le_pow_right (by decide) hw.2
  have htens : v.toNat / 10 % 2 ^ w < 2 ^ w := Nat.mod_lt _ (Nat.two_pow_pos w)
  simp only [pack, bcdHigh, bcdLow, BitVec.toNat_ofNat]
  omega

/-- A value whose tens digit fits its field comes back from its byte (R144, R146). -/
theorem unpack_pack {v : Byte} {w : Nat} (hw : 1 ≤ w ∧ w ≤ 4) (hfits : v.toNat / 10 < 2 ^ w) :
    unpack (pack v w) w = v.toNat := by
  have hb : (pack v w).toNat = v.toNat / 10 * 16 + v.toNat % 10 := by rw [pack_toNat v hw, Nat.mod_eq_of_lt hfits]
  have htens : (pack v w).toNat / 2 ^ 4 = v.toNat / 10 := by omega
  have hunits : (pack v w).toNat / 2 ^ 0 % 2 ^ 4 = v.toNat % 10 := by omega
  simp only [unpack, bcdDecode, field, htens, hunits, Nat.mod_eq_of_lt hfits]
  omega

/-- Settles O33: the tens digit of a byte and its units digit fit their results, and a packed value that fits unpacks. -/
theorem bcdEncoders : Obligations.BcdEncoders := by
  intro v w s hf
  have hv := v.isLt
  refine ⟨⟨_, ?_, runCodec_ok hf _⟩, ⟨_, ?_, runCodec_ok hf _⟩, fun h1 h4 => ?_, fun hw => ?_⟩
  · rw [BitVec.toNat_ofNat, bcdHigh]
    omega
  · rw [BitVec.toNat_ofNat, bcdLow]
    omega
  · have hexec : exec (.bcdPack v w) s = .next (s.completed (.byte (pack v w))) := by
      simp [exec, execBcdPack, State.faulted, hf, h1, h4, runCodec_ok]
    refine ⟨pack v w, pack_toNat v ⟨h1, h4⟩, hexec, fun hfits => ?_⟩
    have hback := unpack_pack ⟨h1, h4⟩ hfits
    exact ⟨hback, (unpack_eq_digits w (by simp; omega) _).symm.trans hback⟩
  · simp [exec, execBcdPack, State.faulted, hf, hw]

end Sys2Proof.Machine
end

section
/-! PROOFS. The transport (41_transport R101-R119, R241): the checks of the framing operations, what opens and closes a session,
the counts of a session's events, the two bursts, and the setters' chains of sessions (44_sequences R200-R226). -/

namespace Sys2Proof.Machine

/-! ## Checks that refuse (R101-R105, R241) -/

/-- SESSION_START's check refuses an open session (R101). -/
theorem admitStart_open {s : State} (h : s.seq ≠ .idle) : admitStart s = some .sessionOpen := by simp [admitStart, h]

/-- Settles O10: each operation of the class begins with SESSION_START's check, which an open session fails. -/
theorem sessionOpenFaults : Obligations.SessionOpenFaults := by
  intro i s hi hf hs
  obtain ⟨check, body, result, hexec, hcheck, -⟩ := exec_opens hi
  have hopen : check s = some .sessionOpen := (hcheck s).trans (admitStart_open (by simp [hs]))
  rw [hexec]
  exact runTransport_refused hf hopen

theorem exec_sessionEnd_refused {s : State} {r : FaultReason} (hf : s.fault = none) (h : admitEnd s = some r) :
    exec .sessionEnd s = .next { s with fault := some r } := runTransport_refused hf h

theorem exec_shiftIn_refused {s : State} {r : FaultReason} (hf : s.fault = none) (h : admitShiftIn s = some r) :
    exec .shiftIn s = .next { s with fault := some r } := runTransport_refused hf h

theorem exec_shiftOut_refused {s : State} {b : Byte} {rel : Bool} {r : FaultReason} (hf : s.fault = none)
    (h : admitShiftOut b rel s = some r) : exec (.shiftOut b rel) s = .next { s with fault := some r } :=
  runTransport_refused hf h

/-- Settles O12: each clause is one branch of its operation's check. -/
theorem sessionEndAndShiftInChecks : Obligations.SessionEndAndShiftInChecks := by
  intro s hf
  refine ⟨fun hs => exec_sessionEnd_refused hf ?_, fun hs hr => exec_sessionEnd_refused hf ?_,
    fun hs hr hshort => exec_sessionEnd_refused hf ?_, fun hs => exec_shiftIn_refused hf ?_,
    fun hs hwrite => exec_shiftIn_refused hf ?_, fun hs hv hread hn => exec_shiftIn_refused hf ?_⟩
  · simp [admitEnd, hs]
  · simp [admitEnd, hs, hr]
  · have hunmoved : ¬(s.cmdValid = true ∧ s.nbytes = need s.cmd) := by
      rintro ⟨hv, hn⟩
      rcases hshort with h | h
      · simp [hv] at h
      · exact h hn
    simp [admitEnd, hs, hr, hunmoved]
  · simp [admitShiftIn, hs]
  · have hnotRead : s.cmdValid = false ∨ readFlag s.cmd = false := hwrite
    simp [admitShiftIn, hs, hnotRead]
  · have hreadFlag : readFlag s.cmd = true := hread
    simp [admitShiftIn, hs, hv, hreadFlag, hn]

/-- Settles O13: each clause is one branch of SHIFT_OUT's check, in the command phase or in the data phase. -/
theorem shiftOutChecks : Obligations.ShiftOutChecks := by
  intro s b rel hf
  have hread : ∀ c : Byte, c.getLsbD 0 = readFlag c := fun _ => rfl
  simp only [hread]
  refine ⟨fun hs => ?_, fun hs hr => ?_, fun hs hr hv => ⟨fun hd => ?_, fun hd hb hrel => ?_, fun hd hb hrel => ?_⟩,
    fun hs hr hv => ⟨fun hc => ?_, fun hc hrel => ?_, fun hc hrel hn => ?_⟩⟩ <;> apply exec_shiftOut_refused hf
  · simp [admitShiftOut, hs]
  · simp [admitShiftOut, hs, hr]
  · simp [admitShiftOut, hs, hr, hv, hd]
  · simp [admitShiftOut, hs, hr, hv, hd, hb, hrel]
  · simp [admitShiftOut, hs, hr, hv, hd, hb, hrel]
  · simp [admitShiftOut, hs, hr, hv, hc]
  · simp [admitShiftOut, hs, hr, hv, hc, hrel]
  · simp [admitShiftOut, hs, hr, hv, hc, hrel, hn]

/-! ## The start and the end of a session (R101, R102) -/

/-- What SESSION_START writes, whichever peer is attached: only the peer and the draws depend on it (R101). -/
theorem startBody_any {s : State} (hr : Ready s) : ∃ p n, startBody s =
    { s with seq := .active, ce := Config.ceActive, clk := low, rel := false, cmdValid := false, nbytes := 0, peer := p,
             draws := n, revTrace := startEvents.reverse ++ s.revTrace } := by
  have hc := hr.clk
  cases ha : s.peer.attached with
  | true => exact ⟨_, _, by rw [startBody_attached hr.ok hc ha (hr.off ha), hc]⟩
  | false => exact ⟨s.peer, s.draws, by rw [startBody_disconnected hr.ok hc ha, hc]⟩

/-- Settles O15: the check refuses an open session, and on a ready block the pseudocode writes the latches of R101. -/
theorem sessionStartOpens : Obligations.SessionStartOpens := by
  refine ⟨rfl, fun s hf => ⟨fun hs => runTransport_refused hf (admitStart_open hs), fun hr => ⟨hr.clk, ?_⟩⟩⟩
  obtain ⟨p, n, hbody⟩ := startBody_any hr
  exact ⟨p, n, runTransport_of_body hr hr.admitStart hbody hr.ok⟩

/-- An admitted command byte is a burst's or names one of the nine registers (R91). -/
theorem cmdIdx_of_admitted {c : Byte} (h : decodeCmd c ≠ none) : cmdIdx c = 31 ∨ cmdIdx c ≤ 8 := by
  have hlt := field_lt c 1 5
  have hidx : ¬(9 ≤ field c 1 5 ∧ field c 1 5 ≤ 30) := fun hbad =>
    h ((decodeCmd_eq_none_iff c).mpr (.inr (.inr hbad)))
  unfold cmdIdx
  omega

/-- A peer that has received all the bytes of an admitted write commits them, WP permitting (R73). -/
theorem Peer.commit_whole {p : Peer} (hstate : p.pstate = .wdata) (hcmd : decodeCmd p.pcmd ≠ none) (hk : p.pk = need p.pcmd) :
    p.commit = if cmdIdx p.pcmd = 31 then p.regs.burstWritten p.wbuf
      else p.regs.written (cmdIdx p.pcmd) (p.wbuf.get 0) := by
  rcases cmdIdx_of_admitted hcmd with hidx | hidx
  · have h8 : p.pk = 8 := by rw [hk, need]; exact if_pos hidx
    simp [Peer.commit, hstate, hidx, h8, Regs.burstWritten]
  · have h1 : p.pk = 1 := hk.trans (need_single hidx)
    have hsingle : cmdIdx p.pcmd ≠ 31 := by omega
    simp [Peer.commit, hstate, hidx, h1, hsingle, Regs.written]

/-- What the end of a session that moved all its bytes leaves in the peer: a read nothing, a write what it committed (R73). -/
theorem peer_closed_whole {s : State} (h : Inv s) (hs : s.seq = .active) (hv : s.cmdValid = true) (hn : s.nbytes = need s.cmd) :
    s.peer.closed = if s.peer.attached = true then { s.peer with
        pstate := .off, pdrive := false
        regs := if readFlag s.cmd = true then s.peer.regs
          else if cmdIdx s.cmd = 31 then s.peer.regs.burstWritten s.peer.wbuf
          else s.peer.regs.written (cmdIdx s.cmd) (s.peer.wbuf.get 0) }
      else s.peer := by
  unfold Peer.closed
  cases ha : s.peer.attached with
  | false => rfl
  | true =>
    simp only [if_true]
    cases hr : readFlag s.cmd with
    | true =>
      obtain ⟨hstate, -⟩ := (h.peer ha).rdata hs hv hr
      simp [Peer.deselect, Peer.commit, hstate]
    | false =>
      obtain ⟨hstate, -, hk, hcmd, -⟩ := (h.peer ha).wdata hs hv hr
      obtain ⟨hd, -⟩ := h.block.commanded hs hv
      have hcommit := Peer.commit_whole hstate (by rwa [hcmd]) (by rw [hk, hcmd, hn])
      rw [hcmd] at hcommit
      simp [Peer.deselect, hstate, hcommit]

/-- Settles O17: the check passes, the two events go out, and the peer closes as R73 says. -/
theorem sessionEndCloses : Obligations.SessionEndCloses := by
  intro s h hf hp hs hr hv hn
  have hadm : admitEnd s = none := by simp [admitEnd, hs, hr, hv, hn]
  have hbody := endBody_eq hf
  have hok : (endBody s).fault = none := by rw [hbody]; exact hf
  have hexec : exec .sessionEnd s = .next ((endBody s).completed .none) :=
    runTransport_admitted (result := noResult) hf hp hadm hok
  rw [hexec, hbody, peer_closed_whole h hs hv hn]
  rfl

/-! ## Operations that open and close a session (R100, R108) -/

/-- A completed operation gives the host one result and moves on to the next request (R30). -/
theorem exec_completed {i : Instr} {s t : State} (hf : s.fault = none) (h : exec i s = .next t) (ht : t.fault = none) :
    t.hpc = s.hpc + 1 ∧ ∃ r, t.results = s.results ++ [r] := by
  rcases exec_cases h with ⟨hs, -⟩ | ⟨-, r, -, rfl⟩ | ⟨-, u, r, hu, rfl⟩
  · exact absurd hf hs
  · cases ht
  · have hg := grows_chain hu
    have hu' : u.fault = none := by simpa using ht
    rw [State.complete_of_ok r hu']
    exact ⟨congrArg (· + 1) hg.hpc, r, congrArg (· ++ [r]) hg.results⟩

/-- Settles O52: its body keeps a ready block ready, so the operation completes. -/
theorem operationsComplete : Obligations.OperationsComplete := by
  intro i s hi hstart hr
  obtain ⟨check, body, result, hexec, hcheck, hbody⟩ := exec_opens hi
  obtain ⟨-, hkeeps⟩ := hbody hstart
  have hready := hkeeps s hr
  have hnext : exec i s = .next ((body s).completed (result (body s))) := by
    rw [hexec]
    exact runTransport_ready hr ((hcheck s).trans hr.admitStart) hready.ok
  obtain ⟨hhpc, r, hresults⟩ := exec_completed hr.ok hnext hready.ok
  exact ⟨_, r, hnext, hready.completed _, hhpc, hresults⟩

/-! ## The counts of a session's events (R281) -/

/-- From the clock level `c` these events leave it at `c'`; they are `len` events with `rise` rising and `fall` falling edges,
and their delays sum to at least `micros` microseconds. -/
structure Measured (c : Level) (ev : List Event) (c' : Level) (len rise fall micros : Nat) : Prop where
  after   : clkAfter c ev = c'
  length  : ev.length = len
  rising  : risingEdges c ev = rise
  falling : fallingEdges c ev = fall
  lasts   : minDuration ev = micros

section

variable {c c' c'' : Level} {xs ys : List Event} {n n' r r' f f' d d' : Nat}

theorem Measured.append (h : Measured c xs c' n r f d) (k : Measured c' ys c'' n' r' f' d') :
    Measured c (xs ++ ys) c'' (n + n') (r + r') (f + f') (d + d') where
  after := by rw [clkAfter_append, h.after, k.after]
  length := by rw [List.length_append, h.length, k.length]
  rising := by rw [risingEdges_append, h.after, h.rising, k.rising]
  falling := by rw [fallingEdges_append, h.after, h.falling, k.falling]
  lasts := by rw [minDuration_append, h.lasts, k.lasts]

/-- A turn of the data pin is one event and moves no clock. -/
theorem Measured.dir (p : Dir) (h : Measured c xs c' n r f d) : Measured c (.dir p :: xs) c' (n + 1) r f d where
  after := h.after
  length := congrArg (· + 1) h.length
  rising := h.rising
  falling := h.falling
  lasts := h.lasts

/-- A piece that leaves the clock where it found it, repeated. -/
theorem Measured.flatMap {g : Nat → List Event} (h : ∀ k, Measured c (g k) c n r f d) (l : List Nat) :
    Measured c (l.flatMap g) c (n * l.length) (r * l.length) (f * l.length) (d * l.length) := by
  obtain ⟨hrising, hfalling, hafter⟩ := edges_flatMap (fun k => ⟨(h k).rising, (h k).falling, (h k).after⟩) l
  exact ⟨hafter, length_flatMap_const (fun k => (h k).length) l, hrising, hfalling,
    minDuration_flatMap_const (fun k => (h k).lasts) l⟩

end

theorem measured_start : Measured low startEvents low 3 0 0 4 := ⟨rfl, rfl, rfl, rfl, rfl⟩

theorem measured_end : Measured low endEvents low 2 0 0 4 := ⟨rfl, rfl, rfl, rfl, rfl⟩

theorem measured_outBit (l : Level) : Measured low (outBitEvents l) low 6 1 1 3 := by
  obtain ⟨hrising, hfalling, hafter, hlength, hlasts⟩ := edges_outBitEvents l
  exact ⟨hafter, hlength, hrising, hfalling, hlasts⟩

theorem measured_outRelease (l : Level) : Measured low (outReleaseEvents l) high 5 1 0 2 := by
  obtain ⟨hrising, hfalling, hafter, hlength, hlasts⟩ := edges_outReleaseEvents l
  exact ⟨hafter, hlength, hrising, hfalling, hlasts⟩

theorem measured_inBit (l : Level) : Measured low (inBitEvents l) low 5 1 1 2 := by
  obtain ⟨hrising, hfalling, hafter, hlength, hlasts⟩ := edges_inBitEvents l
  exact ⟨hafter, hlength, hrising, hfalling, hlasts⟩

/-- The first bit after a hand-off finds the clock High, so it has no rising edge of its own (R106). -/
theorem measured_inBit_high (l : Level) : Measured high (inBitEvents l) low 5 0 1 2 := by
  obtain ⟨hrising, hfalling, hafter⟩ := edges_inBitEvents_high l
  exact ⟨hafter, rfl, hrising, hfalling, rfl⟩

theorem measured_shiftOut (b : Byte) : Measured low (shiftOutEvents b false) low 49 8 8 24 :=
  ((Measured.flatMap (fun i => measured_outBit (bitAt b i)) (List.range 7)).append (measured_outBit (bitAt b 7))).dir .out

theorem measured_shiftOut_released (b : Byte) : Measured low (shiftOutEvents b true) high 48 8 7 23 :=
  ((Measured.flatMap (fun i => measured_outBit (bitAt b i)) (List.range 7)).append (measured_outRelease (bitAt b 7))).dir .out

theorem measured_shiftIn (b : Byte) : Measured low (shiftInEvents b) low 41 8 8 16 :=
  (Measured.flatMap (fun i => measured_inBit (bitAt b i)) (List.range 8)).dir .inp

theorem measured_shiftIn_high (b : Byte) : Measured high (shiftInEvents b) low 41 7 8 16 :=
  ((measured_inBit_high (bitAt b 0)).append
    (Measured.flatMap (fun i => measured_inBit (bitAt b i)) [1, 2, 3, 4, 5, 6, 7])).dir .inp

theorem measured_read (c b : Byte) : Measured low (readEvents c b) low 94 15 15 47 :=
  ((measured_start.append (measured_shiftOut_released c)).append (measured_shiftIn_high b)).append measured_end

theorem measured_write (c d : Byte) : Measured low (writeEvents c d) low 103 16 16 56 :=
  ((measured_start.append (measured_shiftOut c)).append (measured_shiftOut d)).append measured_end

/-- The first of the eight bytes comes right after the hand-off (R116). -/
theorem measured_burstRead (blk : Block) : Measured low (burstReadEvents blk) low 381 71 71 159 :=
  ((measured_start.append (measured_shiftOut_released 0xBF#8)).append ((measured_shiftIn_high (blk.get 0)).append
    (Measured.flatMap (fun k => measured_shiftIn (blk.get k)) [1, 2, 3, 4, 5, 6, 7]))).append measured_end

theorem measured_burstWrite (blk : Block) : Measured low (burstWriteEvents blk) low 446 72 72 224 :=
  ((measured_start.append (measured_shiftOut 0xBE#8)).append
    (Measured.flatMap (fun k => measured_shiftOut (blk.get k)) (List.range 8))).append measured_end

/-- Settles O31: every session is measured from its pieces. -/
theorem eventCountsAndDurations : Obligations.EventCountsAndDurations := by
  intro b c d blk
  have hOut := measured_shiftOut b
  have hOutReleased := measured_shiftOut_released b
  have hInp := measured_shiftIn b
  have hInpHigh := measured_shiftIn_high b
  have hRead := measured_read c d
  have hWrite := measured_write c d
  have hBurstRead := measured_burstRead blk
  have hBurstWrite := measured_burstWrite blk
  exact ⟨⟨measured_start.length, measured_end.length, hOut.length, hOutReleased.length, hInp.length, hRead.length,
      hWrite.length, hBurstRead.length, hBurstWrite.length⟩,
    ⟨hOut.rising, hOut.falling, hOutReleased.rising, hOutReleased.falling, hInpHigh.rising, hInpHigh.falling,
      hInp.rising, hInp.falling⟩,
    ⟨measured_start.lasts, measured_end.lasts, hOut.lasts, hOutReleased.lasts, hInp.lasts, hRead.lasts, hWrite.lasts,
      hBurstRead.lasts, hBurstWrite.lasts⟩⟩

/-! ## Operations that are whole sessions, whichever peer is attached -/

/-- An operation whose body sends whole sessions completes, gives its result and leaves the block ready (R30, R100). -/
theorem runTransport_sent {body : State → State} {s : State} {ev : List Event} (hr : Ready s) (h : Sent s (body s) ev)
    (result : State → Result) :
    runTransport admitStart body result s = .next ((body s).completed (result (body s))) ∧
      Ready ((body s).completed (result (body s))) ∧
      ((body s).completed (result (body s))).results = s.results ++ [result (body s)] ∧
      ((body s).completed (result (body s))).trace = s.trace ++ ev :=
  ⟨runTransport_ready hr hr.admitStart h.ready.ok, h.ready.completed _, congrArg (· ++ _) h.results, h.trace⟩

/-- The trace has grown by what was sent, and that is what can be counted in it. -/
theorem Sent.measured {s t : State} {ev : List Event} {c' : Level} {n r f d : Nat} (h : Sent s t ev) (hr : Ready s)
    (hm : Measured low ev c' n r f d) :
    t.trace.length = s.trace.length + n ∧ risingEdges s.clk (t.trace.drop s.trace.length) = r := by
  rw [h.trace, List.length_append, List.drop_left, hm.length, hr.clk, hm.rising]
  exact ⟨rfl, rfl⟩

/-- Settles O27: the session samples what it leaves in buf, and a quiet peer sends its registers. -/
theorem burstReadSession : Obligations.BurstReadSession := by
  refine ⟨rfl, fun s hf hs => runTransport_refused hf (admitStart_open hs), fun s hr => ?_⟩
  have hsent := sent_burstRead hr
  obtain ⟨hexec, hready, hresults, htrace⟩ := runTransport_sent hr hsent bufResult
  obtain ⟨hlength, hrising⟩ := hsent.measured hr (measured_burstRead _)
  refine ⟨_, (burstRead s).buf, hexec, hready.ok, hready.idle, rfl, hresults, htrace, hlength, hrising, fun hq => ?_⟩
  rw [burstRead_quiet hr hq]

/-- Settles O28: the session sends the block and leaves it in buf, and a quiet unprotected peer holds it. -/
theorem burstWriteSession : Obligations.BurstWriteSession := by
  intro blk
  refine ⟨decodeEncodeAgree (.burstWrite blk) rfl, fun s hf hs => runTransport_refused hf (admitStart_open hs), fun s hr => ?_⟩
  obtain ⟨hsent, hbuf⟩ := sent_burstWrite hr blk
  obtain ⟨hexec, hready, hresults, htrace⟩ := runTransport_sent hr hsent noResult
  obtain ⟨hlength, hrising⟩ := hsent.measured hr (measured_burstWrite blk)
  refine ⟨_, hexec, hready.ok, hready.idle, hbuf, hresults, htrace, hlength, hrising, fun hq hwp => ?_⟩
  have hclock : (burstWrite blk s).peer.regs.clock = blk := by
    rw [burstWrite_quiet hr hq]
    simp [Peer.ended, Regs.burstWritten, hwp]
  exact hclock

/-! ## Setters (R200, R215-R226) -/

/-- A register write that ends a chain of sessions: an attached peer is left with it over what it found (R73, R113). -/
theorem Sent.thenWrite {s u : State} {ev : List Event} (h : Sent s u ev) (r : RegName) (d : Byte) :
    Sent s (writeReg r.writeAddr d u) (ev ++ writeEvents r.writeAddr d) ∧ (writeReg r.writeAddr d u).buf = u.buf ∧
      u.draws ≤ (writeReg r.writeAddr d u).draws ∧ (s.peer.attached = true →
        (writeReg r.writeAddr d u).peer.regs = (writeReg r.writeAddr d u).peer.snap.written r.idx d) := by
  obtain ⟨-, -, hww, -, -, hidx, hok, -⟩ := regName_commands r
  obtain ⟨hsent, hbuf⟩ := sent_writeReg h.ready hok d
  obtain ⟨hdraws, hleaves⟩ := writeReg_leaves h.ready hok d
  rw [hww] at hsent
  rw [hww, hidx, h.attached] at hleaves
  exact ⟨h.trans hsent, hbuf, hdraws, hleaves⟩

/-- A burst write that ends a chain of sessions (R73, R119). -/
theorem Sent.thenBurstWrite {s u : State} {ev : List Event} (h : Sent s u ev) (blk : Block) :
    Sent s (burstWrite blk u) (ev ++ burstWriteEvents blk) ∧ (burstWrite blk u).buf = blk ∧
      u.draws ≤ (burstWrite blk u).draws ∧ (s.peer.attached = true →
        (burstWrite blk u).peer.regs = (burstWrite blk u).peer.snap.burstWritten blk) := by
  obtain ⟨hsent, hbuf⟩ := sent_burstWrite h.ready blk
  obtain ⟨hdraws, hleaves⟩ := burstWrite_leaves h.ready blk
  rw [h.attached] at hleaves
  exact ⟨h.trans hsent, hbuf, hdraws, hleaves⟩

/-- Between two sessions ENC_YEAR sends nothing (R187). -/
theorem Sent.thenYear {s u : State} {ev : List Event} (h : Sent s u ev) (year : Nat) :
    Sent s (encYear year u).2 ev ∧ (encYear year u).2.buf = u.buf := by
  obtain ⟨hsent, hbuf⟩ := sent_encYear h.ready year
  have htrans := h.trans hsent
  rw [List.append_nil] at htrans
  exact ⟨htrans, hbuf⟩

/-- The byte that ENC_YEAR gives a later session is R187's, counted between the draws of the chain's ends. -/
theorem Sent.yearByte {s u : State} {ev : List Event} (h : Sent s u ev) (year : Nat) {t : State}
    (ht : (encYear year u).2.draws ≤ t.draws) : YearByte year s.draws t.draws (encYear year u).1 := by
  obtain ⟨-, hbyte⟩ := encYear_byte year u
  exact hbyte _ _ h.draws ht

/-- CLEAR_WP, then one register: a single-field setter's body, and INITIALIZE's (R202, R215). -/
theorem sent_setFieldBody {s : State} (hr : Ready s) (r : RegName) (d : Byte) :
    Sent s (setFieldBody r.writeAddr d s) (writeEvents 0x8E#8 0#8 ++ writeEvents r.writeAddr d) ∧
      (setFieldBody r.writeAddr d s).buf = s.buf ∧ (s.peer.attached = true →
        (setFieldBody r.writeAddr d s).peer.regs = (setFieldBody r.writeAddr d s).peer.snap.written r.idx d) := by
  obtain ⟨hclear, hbuf⟩ := sent_clearWp hr
  obtain ⟨hsent, hkept, -, hleaves⟩ := hclear.thenWrite r d
  exact ⟨hsent, hkept.trans hbuf, hleaves⟩

/-- A single-field setter, as its row gives it: the register it writes and the byte it encodes (R215). -/
theorem setField_any {i : Instr} {r : RegName} {d d' : Byte} (hi : exec i = setField r.writeAddr d') (hd : d' = d) {s : State}
    (hr : Ready s) :
    ∃ t : State, exec i s = .next t ∧ Ready t ∧ t.results = s.results ++ [.none] ∧ t.buf = s.buf ∧
      t.trace = s.trace ++ (writeEvents 0x8E#8 0#8 ++ writeEvents r.writeAddr d) ∧
      (s.peer.attached = true → t.peer.regs = t.peer.snap.written r.idx d) := by
  subst hd
  obtain ⟨hsent, hbuf, hleaves⟩ := sent_setFieldBody hr r d'
  obtain ⟨hexec, hready, hresults, htrace⟩ := runTransport_sent hr hsent noResult
  rw [hi]
  exact ⟨_, hexec, hready, hresults, hbuf, htrace, hleaves⟩

/-- A year is drawn or encoded once WP is clear, and then sent to its register (R222). -/
theorem setYear_any {s : State} (hr : Ready s) (year : Nat) :
    ∃ (t : State) (b : Byte), exec (.setYear year) s = .next t ∧ Ready t ∧ t.results = s.results ++ [.none] ∧ t.buf = s.buf ∧
      YearByte year s.draws t.draws b ∧ t.trace = s.trace ++ (writeEvents 0x8E#8 0#8 ++ writeEvents 0x8C#8 b) ∧
      (s.peer.attached = true → t.peer.regs = t.peer.snap.written 6 b) := by
  obtain ⟨hclear, hbuf⟩ := sent_clearWp hr
  obtain ⟨hyear, hyearBuf⟩ := hclear.thenYear year
  obtain ⟨hsent, hkept, hdraws, hleaves⟩ := hyear.thenWrite .year (encYear year (clearWp s)).1
  obtain ⟨hexec, hready, hresults, htrace⟩ := runTransport_sent (body := setYearBody year) hr hsent noResult
  exact ⟨_, _, hexec, hready, hresults, (hkept.trans hyearBuf).trans hbuf, hclear.yearByte year hdraws, htrace, hleaves⟩

/-- INITIALIZE is CLEAR_WP and a zero to TRICKLE, and returns true (R202). -/
theorem initChip_any {s : State} (hr : Ready s) :
    ∃ t : State, exec .initChip s = .next t ∧ Ready t ∧ t.results = s.results ++ [.flag true] ∧
      t.trace = s.trace ++ (writeEvents 0x8E#8 0#8 ++ writeEvents 0x90#8 0#8) ∧
      (s.peer.attached = true → t.peer.regs = t.peer.snap.written 8 0#8) := by
  obtain ⟨hsent, -, hleaves⟩ := sent_setFieldBody hr .trickle 0#8
  obtain ⟨hexec, hready, hresults, htrace⟩ := runTransport_sent (body := initializeBody) hr hsent fun _ => .flag true
  exact ⟨_, hexec, hready, hresults, htrace, hleaves⟩

/-- The encoded block, byte by byte (R189). -/
theorem encBlock_packed (ts : Timestamp) (b : Byte) : encBlock ts b =
    ⟨packed ts.second 3, packed ts.minute 3, packed ts.hour 2, packed ts.day 2, packed ts.month 1, ts.dow &&& 0x07#8, b, 0#8⟩ := by
  simp only [encBlock, encSeconds, encMinutes, encHours24, encDate, encMonth, encControl, encDow_and, pack_eq_packed]

/-- The merged date, byte by byte (R190). -/
theorem mergeDate_packed (read : Block) (b month day dow : Byte) : mergeDate read b month day dow =
    ⟨read.seconds &&& 0x7F#8, read.minutes, read.hours &&& 0x7F#8, packed day 2, packed month 1, dow &&& 0x07#8, b, 0#8⟩ := by
  simp only [mergeDate, encDate, encMonth, encControl, encDow_and, pack_eq_packed]

/-- The merged time, byte by byte (R191). -/
theorem mergeTime_packed (read : Block) (hour minute second : Byte) : mergeTime read hour minute second =
    ⟨packed second 3, packed minute 3, packed hour 2, read.date, read.month, read.dow, read.year, 0#8⟩ := by
  simp only [mergeTime, encSeconds, encMinutes, encHours24, encControl, pack_eq_packed]

/-- SET_FULL sends the encoded block once WP is clear (R224). -/
theorem setFull_any {s : State} (hr : Ready s) (ts : Timestamp) :
    ∃ (t : State) (b : Byte), exec (.setFull ts) s = .next t ∧ Ready t ∧ t.results = s.results ++ [.none] ∧
      YearByte ts.year s.draws t.draws b ∧
      t.trace = s.trace ++ (writeEvents 0x8E#8 0#8 ++ burstWriteEvents (encBlock ts b)) ∧ t.buf = encBlock ts b ∧
      (s.peer.attached = true → t.peer.regs = t.peer.snap.burstWritten (encBlock ts b)) := by
  obtain ⟨hclear, -⟩ := sent_clearWp hr
  obtain ⟨hyear, -⟩ := hclear.thenYear ts.year
  obtain ⟨hsent, hbuf, hdraws, hleaves⟩ := hyear.thenBurstWrite (encBlock ts (encYear ts.year (clearWp s)).1)
  obtain ⟨hexec, hready, hresults, htrace⟩ := runTransport_sent (body := setFullBody ts) hr hsent noResult
  exact ⟨_, _, hexec, hready, hresults, hclear.yearByte ts.year hdraws, htrace, hbuf, hleaves⟩

/-- CLEAR_WP, then a read of the block that a merge keeps part of (R225, R226). -/
theorem sent_clearRead {s : State} (hr : Ready s) :
    Sent s (burstRead (clearWp s)) (writeEvents 0x8E#8 0#8 ++ burstReadEvents (burstRead (clearWp s)).buf) := by
  obtain ⟨hclear, -⟩ := sent_clearWp hr
  exact hclear.trans (sent_burstRead hclear.ready)

/-- SET_DATE_ONLY sends the merge of the block it sampled, the year drawn or encoded after the read (R225). -/
theorem setDateOnly_any {s : State} (hr : Ready s) (year : Nat) (month day dow : Byte) :
    ∃ (t : State) (b : Byte) (read : Block), exec (.setDateOnly year month day dow) s = .next t ∧ Ready t ∧
      t.results = s.results ++ [.none] ∧ YearByte year s.draws t.draws b ∧
      t.trace = s.trace ++ (writeEvents 0x8E#8 0#8 ++ burstReadEvents read ++
        burstWriteEvents (mergeDate read b month day dow)) ∧ t.buf = mergeDate read b month day dow ∧
      (s.peer.attached = true → t.peer.regs = t.peer.snap.burstWritten (mergeDate read b month day dow)) := by
  have hread := sent_clearRead hr
  obtain ⟨hyear, hkept⟩ := hread.thenYear year
  obtain ⟨hsent, hbuf, hdraws, hleaves⟩ := hyear.thenBurstWrite
    (mergeDate (encYear year (burstRead (clearWp s))).2.buf (encYear year (burstRead (clearWp s))).1 month day dow)
  obtain ⟨hexec, hready, hresults, htrace⟩ := runTransport_sent (body := setDateBody year month day dow) hr hsent noResult
  rw [← hkept] at htrace
  exact ⟨_, _, _, hexec, hready, hresults, hread.yearByte year hdraws, htrace, hbuf, hleaves⟩

/-- SET_TIME_ONLY's last session is the burst write of the merge (R226). -/
theorem setTimeBody_eq (hour minute second : Byte) (s : State) : setTimeBody hour minute second s =
    burstWrite (mergeTime (burstRead (clearWp s)).buf hour minute second) (burstRead (clearWp s)) := by
  unfold setTimeBody
  generalize burstRead (clearWp s) = u
  rfl

/-- SET_TIME_ONLY sends the merge of the block it sampled (R226). -/
theorem setTimeOnly_any {s : State} (hr : Ready s) (hour minute second : Byte) :
    ∃ (t : State) (read : Block), exec (.setTimeOnly hour minute second) s = .next t ∧ Ready t ∧
      t.results = s.results ++ [.none] ∧
      t.trace = s.trace ++ (writeEvents 0x8E#8 0#8 ++ burstReadEvents read ++
        burstWriteEvents (mergeTime read hour minute second)) ∧ t.buf = mergeTime read hour minute second ∧
      (s.peer.attached = true → t.peer.regs = t.peer.snap.burstWritten (mergeTime read hour minute second)) := by
  obtain ⟨hsent, hbuf, -, hleaves⟩ := (sent_clearRead hr).thenBurstWrite
    (mergeTime (burstRead (clearWp s)).buf hour minute second)
  rw [← setTimeBody_eq] at hsent hbuf hleaves
  obtain ⟨hexec, hready, hresults, htrace⟩ := runTransport_sent (body := setTimeBody hour minute second) hr hsent noResult
  generalize setTimeBody hour minute second s = t at hexec hready hresults htrace hbuf hleaves
  exact ⟨_, _, hexec, hready, hresults, htrace, hbuf, hleaves⟩

/-- Settles O51: each setter is a chain of sessions that begins with CLEAR_WP's, and its last session writes what it encoded. -/
theorem settersClearWriteProtectFirst : Obligations.SettersClearWriteProtectFirst := by
  intro s v year month day dow hour minute ts hr
  refine ⟨?_, setYear_any hr year, initChip_any hr, ?_, ?_, ?_⟩
  · simp only [List.forall_mem_cons, List.not_mem_nil, false_implies, implies_true, and_true]
    exact ⟨setField_any rfl (pack_eq_packed v 3) hr, setField_any rfl (pack_eq_packed v 3) hr,
      setField_any rfl (pack_eq_packed v 2) hr, setField_any rfl (pack_eq_packed v 2) hr,
      setField_any rfl (pack_eq_packed v 1) hr, setField_any rfl (encDow_and v) hr⟩
  · obtain ⟨t, b, hexec, hready, hresults, hbyte, hrest⟩ := setFull_any hr ts
    exact ⟨t, b, _, hexec, hready, hresults, hbyte, encBlock_packed ts b, hrest⟩
  · obtain ⟨t, b, read, hexec, hready, hresults, hbyte, hrest⟩ := setDateOnly_any hr year month day dow
    exact ⟨t, b, read, _, hexec, hready, hresults, hbyte, mergeDate_packed read b month day dow, hrest⟩
  · obtain ⟨t, read, hexec, hready, hresults, hrest⟩ := setTimeOnly_any hr hour minute v
    exact ⟨t, read, _, hexec, hready, hresults, mergeTime_packed read hour minute v, hrest⟩

end Sys2Proof.Machine
end

section
/-! PROOFS. The BCD decoder (42_bcd R140, R147): its request, and its exact result, which fits a byte for every two digits. -/

namespace Sys2Proof.Machine

/-- No two digits, of any value a u4 holds, decode to more than 165 (R140, R147). -/
theorem bcdDecode_le (h l : Nibble) : bcdDecode h.toNat l.toNat ≤ 165 := by
  have hh := h.isLt
  have hl := l.isLt
  unfold bcdDecode
  omega

/-- The byte that BCD_DECODE returns is the exact value: nothing wraps (R147). -/
theorem toNat_ofNat_bcdDecode (h l : Nibble) :
    (BitVec.ofNat 8 (bcdDecode h.toNat l.toNat)).toNat = bcdDecode h.toNat l.toNat :=
  Nat.mod_eq_of_lt ((bcdDecode_le h l).trans_lt (by decide))

/-- Settles O32: the request is the encoder's, and the value is at most 165, so the byte returned is exact. -/
theorem bcdDecodeExact : Obligations.BcdDecodeExact := by
  intro h l s hf
  have hexact := toNat_ofNat_bcdDecode h l
  exact ⟨decode_of_encode_eq rfl rfl, _, hexact, hexact.trans_le (bcdDecode_le h l), runCodec_ok hf _⟩

end Sys2Proof.Machine
end

section
/-! PROOFS. The register-map codec (43_register_map R160-R192): each field from its byte and each byte from its field, what the
merges keep, and the round trip of a timestamp through its block. -/

namespace Sys2Proof.Machine

/-! ## Decoders (R160-R171) -/

/-- The year is the offset its two digits spell, from 2000 on (R167). -/
theorem decYear_eq (b : Byte) : decYear b = 2000 + digits b 4 := congrArg (2000 + ·) (unpack_eq_digits 4 (by decide) b)

/-- Settles O34: each decoder's byte is the number its digits spell, and its flag is bit 7. -/
theorem fieldDecoders : Obligations.FieldDecoders := by
  intro b s hf
  have hunpack := fun w hw => unpackByte_toNat w hw b
  refine ⟨⟨_, hunpack 3 (by decide), runCodec_ok hf _⟩, ⟨_, hunpack 3 (by decide), runCodec_ok hf _⟩,
    ⟨_, hunpack 2 (by decide), runCodec_ok hf _⟩, ⟨_, hunpack 1 (by decide), runCodec_ok hf _⟩,
    ⟨_, decDow_toNat b, runCodec_ok hf _⟩, ?_, runCodec_ok hf _⟩
  rw [← decYear_eq]
  exact runCodec_ok hf _

/-- In the 12-hour layout the hour's tens digit has one bit, and PM is bit 5 (R163). -/
theorem hours_of_mode12 {b : Byte} (h : mode12Flag b = true) : decHour b = unpackByte b 1 ∧ pmFlag b = bitAt b 5 := by
  simp [decHour, pmFlag, h]

/-- In the 24-hour layout the mode-selected hour is the 24-hour reading, and there is no PM (R163, R171). -/
theorem hours_of_mode24 {b : Byte} (h : mode12Flag b = false) : decHour b = hour24view b ∧ pmFlag b = false := by
  simp [decHour, hour24view, pmFlag, h]

/-- The mode-selected hour is the number spelled in the layout that bit 7 selects (R163). -/
theorem decHour_toNat (b : Byte) : (decHour b).toNat = if b.getLsbD 7 then digits b 1 else digits b 2 := by
  cases hmode : b.getLsbD 7 with
  | true =>
    obtain ⟨hhour, -⟩ := hours_of_mode12 (b := b) hmode
    rw [hhour]
    exact unpackByte_toNat 1 (by decide) b
  | false =>
    obtain ⟨hhour, -⟩ := hours_of_mode24 (b := b) hmode
    rw [hhour]
    exact unpackByte_toNat 2 (by decide) b

/-- Settles O35: bit 7 selects the layout of the hour, and the 24-hour reading does not look at it. -/
theorem hoursDecoder : Obligations.HoursDecoder := by
  intro b s hf
  have hexec : exec (.decHours b) s =
      .next (s.completed (.hours (mode12Flag b) (pmFlag b) (decHour b) (hour24view b))) := runCodec_ok hf _
  have hhour := decHour_toNat b
  refine ⟨decHour b, hour24view b, unpackByte_toNat 2 (by decide) b, fun h7 => ?_, fun h7 => ?_⟩
  · have hmode : mode12Flag b = true := h7
    obtain ⟨-, hpm⟩ := hours_of_mode12 hmode
    rw [hmode, hpm] at hexec
    rw [if_pos h7] at hhour
    exact ⟨hhour, hexec⟩
  · have hmode : mode12Flag b = false := h7
    obtain ⟨hview, hpm⟩ := hours_of_mode24 hmode
    rw [hmode, hpm] at hexec
    exact ⟨hview, hexec⟩

/-- Settles O36: the request is the encoder's, and every result is read from its own byte of the block. -/
theorem blockDecoder : Obligations.BlockDecoder := by
  intro blk s hf
  obtain ⟨hsecond, hminute, hhour, hday, hmonth, hdow, hyear⟩ := decTimestamp_fields blk
  exact ⟨decode_of_encode_eq (i := .decBlock blk) rfl rfl, decTimestamp blk, decHour blk.hours, hsecond, hminute, hhour, hday,
    hmonth, hdow, hyear, decHour_toNat _, runCodec_ok hf _⟩

/-! ## Encoders (R180-R189) -/

/-- No bit of a packed byte stands above its tens digit (R180). -/
theorem pack_lt (v : Byte) {w : Nat} (hw : 1 ≤ w ∧ w ≤ 4) : (pack v w).toNat < 2 ^ (w + 4) := by
  have htens : v.toNat / 10 % 2 ^ w < 2 ^ w := Nat.mod_lt _ (Nat.two_pow_pos w)
  rw [pack_toNat v hw, Nat.pow_add]
  omega

theorem bitAt_pack {w : Nat} (hw : 1 ≤ w ∧ w ≤ 4) {i : Nat} (hi : w + 4 ≤ i) (v : Byte) : bitAt (pack v w) i = false :=
  Nat.testBit_lt_two_pow ((pack_lt v hw).trans_le (Nat.pow_le_pow_right (by decide) hi))

/-- Settles O37: a packed byte has nothing above its tens digit, and ENC_DOW keeps three bits. -/
theorem fieldEncoders : Obligations.FieldEncoders := by
  intro v s hf
  simp only [← pack_eq_packed, ← encDow_and]
  exact ⟨runCodec_ok hf _, runCodec_ok hf _, runCodec_ok hf _, runCodec_ok hf _, runCodec_ok hf _, runCodec_ok hf _,
    runCodec_ok hf _, bitAt_pack (by decide) (by decide) v, bitAt_pack (by decide) (by decide) v,
    bitAt_pack (by decide) (by decide) v, pack_lt v (by decide)⟩

/-- ENC_YEAR's byte and the draws it takes: none for a year in 2000..2099, the next one for any other (R187, log 10). -/
theorem encYear_exact (year : Nat) (s : State) :
    (2000 ≤ year ∧ year ≤ 2099 → (encYear year s).1.toNat = (year - 2000) / 10 * 16 + (year - 2000) % 10 ∧
      (encYear year s).2.draws = s.draws) ∧
    (¬(2000 ≤ year ∧ year ≤ 2099) → (encYear year s).1 = Config.yearByte s.draws ∧
      (encYear year s).2.draws = s.draws + 1) := by
  refine ⟨fun h => ?_, fun h => ?_⟩
  · rw [encYear_in h]
    exact ⟨encYearIn_toNat h, rfl⟩
  · rw [encYear_out h]
    exact ⟨rfl, rfl⟩

/-- A codec operation that takes the byte of a year in range takes no draw. -/
theorem runYearCodec_in {s : State} (hf : s.fault = none) {year : Nat} (h : 2000 ≤ year ∧ year ≤ 2099) (result : Byte → Result) :
    runYearCodec year result s = .next (s.completed (result (encYearIn year))) := by
  rw [runYearCodec_ok hf, encYear_in h]

/-- Settles O38: a year in the window is packed, and any other takes the next draw. -/
theorem yearEncoder : Obligations.YearEncoder := by
  intro year s hf
  refine ⟨fun hlo hhi => ⟨_, encYearIn_toNat ⟨hlo, hhi⟩, runYearCodec_in hf ⟨hlo, hhi⟩ _⟩, fun hout => ?_⟩
  have hexec := runYearCodec_ok hf year .byte
  rw [encYear_out (by omega)] at hexec
  exact hexec

/-- Settles O39: the request is the encoder's, the year's byte is ENC_YEAR's in the same state, and the others are packed. -/
theorem blockEncoder : Obligations.BlockEncoder := by
  intro ts s hf
  refine ⟨decode_of_encode_eq (i := .encBlock ts) rfl rfl, _, _, runYearCodec_ok hf ts.year _, ?_⟩
  rw [← encBlock_packed]
  exact runYearCodec_ok hf ts.year fun y => .block (encBlock ts y)

/-! ## Merges (R190, R191) -/

/-- Clearing bit 7 of a byte keeps both digits of a field whose tens digit lies below it (R190). -/
theorem digits_clearBit7 {w : Nat} (hw : w ∈ [1, 2, 3]) (b : Byte) : digits (b &&& 0x7F#8) w = digits b w := by
  have htens : (0x7F#8).extractLsb' 4 w = BitVec.allOnes w := by
    revert w
    decide
  have hunits : (0x7F#8).extractLsb' 0 4 = BitVec.allOnes 4 := by decide
  simp only [digits, BitVec.extractLsb'_and, htens, hunits, BitVec.and_allOnes]

theorem unpackByte_clearBit7 {w : Nat} (hw : w ∈ [1, 2, 3]) (b : Byte) : unpackByte (b &&& 0x7F#8) w = unpackByte b w := by
  have hw4 : w ∈ [1, 2, 3, 4] := by
    revert w
    decide
  rw [unpackByte_digits hw4, unpackByte_digits hw4, digits_clearBit7 hw]

/-- Settles O40: the merges are their blocks byte by byte, and the flags they clear lie above the digits. -/
theorem mergesKeepTheRest : Obligations.MergesKeepTheRest := by
  intro blk year month day dow hour minute second s hf
  refine ⟨⟨_, _, runYearCodec_ok hf year _, ?_⟩, ?_, digits_clearBit7 (by decide) _, digits_clearBit7 (by decide) _⟩
  · rw [← mergeDate_packed]
    exact runYearCodec_ok hf year fun y => .block (mergeDate blk y month day dow)
  · rw [← mergeTime_packed]
    exact runCodec_ok hf _

/-! ## The round trip (R192) -/

/-- A value whose tens digit fits its field comes back as the byte it was (R192). -/
theorem unpackByte_pack {v : Byte} {w : Nat} (hw : 1 ≤ w ∧ w ≤ 4) (hfits : v.toNat / 10 < 2 ^ w) :
    unpackByte (pack v w) w = v := by
  rw [unpackByte, unpack_pack hw hfits, BitVec.ofNat_toNat, BitVec.setWidth_eq]

theorem decDow_encDow {v : Byte} (h : v.toNat ≤ 7) : decDow (encDow v) = v := by
  apply BitVec.eq_of_toNat_eq
  rw [decDow_toNat, encDow, BitVec.toNat_ofNat]
  omega

theorem decYear_encYearIn {year : Nat} (h : 2000 ≤ year ∧ year ≤ 2099) : decYear (encYearIn year) = year := by
  have hoffset : (BitVec.ofNat 8 (year - 2000)).toNat = year - 2000 := Nat.mod_eq_of_lt (by omega)
  have hback : unpack (encYearIn year) 4 = year - 2000 :=
    (unpack_pack (by decide) (by rw [hoffset]; omega)).trans hoffset
  rw [decYear, hback]
  omega

/-- Every timestamp in R38's ranges comes back from its block (R192). -/
theorem decTimestamp_encBlock {ts : Timestamp} (h : InRange ts) : decTimestamp (encBlock ts (encYearIn ts.year)) = ts := by
  obtain ⟨hhour, hminute, hsecond, hyear, hmonth, hday, hdow⟩ := h
  have hourBack : hour24view (encHours24 ts.hour) = ts.hour := unpackByte_pack (by decide) (by omega)
  have minuteBack : decMinutes (encMinutes ts.minute) = ts.minute := unpackByte_pack (by decide) (by omega)
  have secondBack : decSeconds (encSeconds ts.second) = ts.second := unpackByte_pack (by decide) (by omega)
  have monthBack : decMonth (encMonth ts.month) = ts.month := unpackByte_pack (by decide) (by omega)
  have dayBack : decDate (encDate ts.day) = ts.day := unpackByte_pack (by decide) (by omega)
  simp only [decTimestamp, encBlock, hourBack, minuteBack, secondBack, monthBack, dayBack, decDow_encDow hdow.2,
    decYear_encYearIn hyear]

/-- An encoded block has CH, MODE12 and WP clear (R180, R188). -/
theorem encBlock_flags (ts : Timestamp) (y : Byte) : chFlag (encBlock ts y).seconds = false ∧
    mode12Flag (encBlock ts y).hours = false ∧ wpFlag (encBlock ts y).control = false :=
  ⟨bitAt_pack (by decide) (by decide) ts.second, bitAt_pack (by decide) (by decide) ts.hour,
    (by decide : wpFlag encControl = false)⟩

/-- Settles O41: the year takes no draw, every field comes back, and in the 24-hour layout the hour is its own reading. -/
theorem blockRoundTrip : Obligations.BlockRoundTrip := by
  intro ts s hts hf
  refine ⟨_, runYearCodec_in hf hts.year fun y => .block (encBlock ts y), fun u hu => ?_⟩
  have hback := decTimestamp_encBlock hts
  obtain ⟨hch, hmode, hwp⟩ := encBlock_flags ts (encYearIn ts.year)
  generalize encBlock ts (encYearIn ts.year) = blk at *
  obtain ⟨hview, hpm⟩ := hours_of_mode24 hmode
  have hhour : decHour blk.hours = ts.hour := hview.trans (congrArg Timestamp.hour hback)
  have hexec : exec (.decBlock blk) u = .next (u.completed (.decoded (decTimestamp blk) (chFlag blk.seconds)
      (mode12Flag blk.hours) (pmFlag blk.hours) (decHour blk.hours) (wpFlag blk.control))) := runCodec_ok hu _
  rw [hexec, hback, hch, hmode, hpm, hhour, hwp]

end Sys2Proof.Machine
end

section
/-! PROOFS. The getters and setters (44_sequences R203-R226): the state each leaves with an attached peer, and what is read back
after a setter on the zero-tick peer (R227). -/

namespace Sys2Proof.Machine

/-! ## Getters with an attached peer (R203-R214) -/

/-- A single-field getter, as its row gives it: it returns what it makes of its register's byte, which it finds at the session's
start (R203). -/
theorem getField_attached {i : Instr} {r : RegName} {result result' : Byte → Result} (hi : exec i = getField r.writeAddr result')
    (hres : ∀ b, result' b = result b) {s : State} (hr : Ready s) (ha : s.peer.attached = true) {v : Byte}
    (hv : v = s.elapse.peer.regs.get r.idx) :
    exec i s = .next ({ s.ended r.readAddr 1 v (readEvents r.readAddr v) with
      draws := s.elapse.draws
      peer := { s.peer.ended r.readAddr 1 s.elapse.peer.regs s.elapse.peer.regs with
                plevel := v.getLsbD 7 } }.completed (result v)) := by
  obtain ⟨hread, -, -, -, hidx, -, hok, -⟩ := regName_commands r
  obtain ⟨hd, hsingle, hrd, -⟩ := addressOk_commands _ hok
  have hbody := readReg_attached hr ha r.writeAddr hd hsingle hrd
  rw [hread, hidx, ← hv] at hbody
  rw [hi, ← hres]
  exact runTransport_of_body hr hr.admitStart hbody hr.ok

/-- Settles O43: each getter is its register's read, and its decoder reads the digits of the byte. -/
theorem fieldGetters : Obligations.FieldGetters := by
  intro s hr ha
  simp only [List.forall_mem_cons, List.not_mem_nil, false_implies, implies_true, and_true]
  have hbyte : ∀ w ∈ [1, 2, 3, 4], ∀ b, Result.byte (unpackByte b w) = .byte (BitVec.ofNat 8 (digits b w)) :=
    fun w hw b => congrArg Result.byte (unpackByte_digits hw b)
  exact ⟨fun _ => getField_attached (r := .seconds) rfl (hbyte 3 (by decide)) hr ha,
    fun _ => getField_attached (r := .minutes) rfl (hbyte 3 (by decide)) hr ha,
    fun _ => getField_attached (r := .hours) rfl (hbyte 2 (by decide)) hr ha,
    fun _ => getField_attached (r := .date) rfl (hbyte 2 (by decide)) hr ha,
    fun _ => getField_attached (r := .month) rfl (hbyte 1 (by decide)) hr ha,
    fun _ => getField_attached (r := .dow) rfl (fun b => congrArg Result.byte (decDow_and b)) hr ha,
    fun _ => getField_attached (r := .year) rfl (fun b => congrArg Result.year (decYear_eq b)) hr ha⟩

/-- A block getter returns its part of the timestamp that the chip's block decodes to at the session's start (R211). -/
theorem getBlock_attached {s : State} (hr : Ready s) (ha : s.peer.attached = true) (result : Timestamp → Result) :
    getBlock result s = .next ({ s.ended 0xBF#8 8 s.elapse.peer.regs.clock.control (burstReadEvents s.elapse.peer.regs.clock) with
      buf := s.elapse.peer.regs.clock
      draws := s.elapse.draws
      peer := { s.peer.ended 0xBF#8 8 s.elapse.peer.regs s.elapse.peer.regs with
                plevel := s.elapse.peer.regs.clock.control.getLsbD 7 }
    }.completed (result (decTimestamp s.elapse.peer.regs.clock))) :=
  runTransport_of_body hr hr.admitStart (burstRead_attached hr ha) hr.ok

/-- Settles O45: the three getters are one burst read, and return parts of one decoded block. -/
theorem blockGetters : Obligations.BlockGetters := by
  intro s hr ha
  obtain ⟨hsecond, hminute, hhour, hday, hmonth, hdow, hyear⟩ := decTimestamp_fields s.elapse.peer.regs.clock
  refine ⟨decTimestamp s.elapse.peer.regs.clock, hsecond, hminute, hhour, hday, hmonth, hdow, hyear, ?_⟩
  simp only [List.forall_mem_cons, List.not_mem_nil, false_implies, implies_true, and_true]
  exact ⟨getBlock_attached hr ha .timestamp, getBlock_attached hr ha fun t => .date t.year t.month t.day t.dow,
    getBlock_attached hr ha fun t => .time t.hour t.minute t.second⟩

/-! ## Sessions after CLEAR_WP on a chip that passes no tick (R200, R201) -/

/-- No tick passes whatever was drawn. -/
theorem Quiet.drawn {s : State} (h : Quiet s) (n : Nat) : Quiet { s with draws := n } := ⟨h.attached, h.halted⟩

/-- A burst is taken by a chip whose WP is clear, whatever was drawn before it (R73, R120). -/
theorem burstWrite_unprotected {u : State} (hr : Ready u) (hq : Quiet u) (hwp : wpFlag u.peer.regs.clock.control = false)
    (n : Nat) (blk : Block) :
    burstWrite blk { u with draws := n } = { u.ended 0xBE#8 8 blk.control (burstWriteEvents blk) with
      buf := blk
      draws := n
      peer := { u.peer.ended 0xBE#8 8 u.peer.regs ⟨blk, u.peer.regs.trickle⟩ with wbuf := blk } } := by
  rw [burstWrite_quiet (hr.drawn n) (hq.drawn n), Regs.burstWritten, if_pos hwp]
  rfl

section

variable {s : State} (hr : Ready s) (hq : Quiet s)

include hr hq

/-- On a chip that passes no tick CLEAR_WP takes no draw. -/
theorem clearWp_draws : (clearWp s).draws = s.draws := by
  rw [clearWp_quiet hr hq]
  rfl

/-- A register written right after CLEAR_WP is taken whatever WP was (R215). -/
theorem clearWrite_quiet (n : Nat) (r : RegName) (d : Byte) :
    writeReg r.writeAddr d { clearWp s with draws := n } =
      { s.ended r.writeAddr 1 d (writeEvents 0x8E#8 0#8 ++ writeEvents r.writeAddr d) with
        draws := n
        peer := { s.peer.ended r.writeAddr 1 (s.peer.regs.set 7 0#8) ((s.peer.regs.set 7 0#8).set r.idx d) with
                  wbuf := s.peer.wbuf.set 0 d } } := by
  obtain ⟨hready, hquiet, hwp⟩ := clearWp_after hr hq
  rw [writeReg_quiet (hready.drawn n) (hquiet.drawn n), Regs.written_unprotected hwp, clearWp_quiet hr hq]
  simp [State.ended, Peer.ended, Regs.set_control]

/-- A burst written right after CLEAR_WP is taken whatever WP was (R224). -/
theorem clearBurst_quiet (n : Nat) (blk : Block) :
    burstWrite blk { clearWp s with draws := n } =
      { s.ended 0xBE#8 8 blk.control (writeEvents 0x8E#8 0#8 ++ burstWriteEvents blk) with
        buf := blk
        draws := n
        peer := { s.peer.ended 0xBE#8 8 (s.peer.regs.set 7 0#8) ⟨blk, s.peer.regs.trickle⟩ with wbuf := blk } } := by
  obtain ⟨hready, hquiet, hwp⟩ := clearWp_after hr hq
  rw [burstWrite_unprotected hready hquiet hwp, clearWp_quiet hr hq]
  simp [State.ended, Peer.ended, Regs.set_control]

/-- A burst read right after CLEAR_WP finds CONTROL zero and every other byte as it was (R225, R226). -/
theorem clearRead_quiet :
    burstRead (clearWp s) =
      { s.ended 0xBF#8 8 0#8 (writeEvents 0x8E#8 0#8 ++ burstReadEvents { s.peer.regs.clock with control := 0#8 }) with
        buf := { s.peer.regs.clock with control := 0#8 }
        peer := { s.peer.ended 0xBF#8 8 (s.peer.regs.set 7 0#8) (s.peer.regs.set 7 0#8) with
                  wbuf := s.peer.wbuf.set 0 0#8, plevel := low } } := by
  obtain ⟨hready, hquiet, -⟩ := clearWp_after hr hq
  rw [burstRead_quiet hready hquiet, clearWp_quiet hr hq]
  simp [State.ended, Peer.ended, Regs.set_control, bitAt]

/-- That read takes no draw, leaves the block in the buffer for the merge, and the chip as CLEAR_WP left it. -/
theorem clearRead_after :
    (burstRead (clearWp s)).draws = s.draws ∧
    (burstRead (clearWp s)).buf = { s.peer.regs.clock with control := 0#8 } ∧
    Ready (burstRead (clearWp s)) ∧ Quiet (burstRead (clearWp s)) ∧
    wpFlag (burstRead (clearWp s)).peer.regs.clock.control = false := by
  have hready := ready_burstRead (ready_clearWp hr)
  rw [clearRead_quiet hr hq] at hready ⊢
  exact ⟨rfl, rfl, hready, ⟨hq.attached, hq.halted⟩, (by decide : wpFlag 0#8 = false)⟩

/-- CLEAR_WP, a burst read and a burst write: the chain of a setter that merges (R225, R226). -/
theorem clearReadBurst_quiet (n : Nat) (blk : Block) :
    burstWrite blk { burstRead (clearWp s) with draws := n } =
      { s.ended 0xBE#8 8 blk.control (writeEvents 0x8E#8 0#8 ++
          burstReadEvents { s.peer.regs.clock with control := 0#8 } ++ burstWriteEvents blk) with
        buf := blk
        draws := n
        peer := { s.peer.ended 0xBE#8 8 (s.peer.regs.set 7 0#8) ⟨blk, s.peer.regs.trickle⟩ with
                  wbuf := blk, plevel := low } } := by
  obtain ⟨-, -, hready, hquiet, hwp⟩ := clearRead_after hr hq
  rw [burstWrite_unprotected hready hquiet hwp, clearRead_quiet hr hq]
  simp [State.ended, Peer.ended, Regs.set_control]

end

/-! ## Setters on a chip that passes no tick (R222-R226) -/

/-- Settles O48: the year's byte is encoded or drawn once WP is clear, and then written to its register. -/
theorem yearSetter : Obligations.YearSetter := by
  intro s year hr hq
  have hyear := encYear_exact year (clearWp s)
  rw [clearWp_draws hr hq] at hyear
  obtain ⟨hin, hout⟩ := hyear
  have hbody : setYearBody year s = writeReg RegName.year.writeAddr (encYear year (clearWp s)).1
      { clearWp s with draws := (encYear year (clearWp s)).2.draws } := by
    rw [← encYear_state]
    rfl
  rw [clearWrite_quiet hr hq] at hbody
  exact ⟨_, _, hin, hout, runTransport_of_body hr hr.admitStart hbody hr.ok⟩

/-- Settles O49: the block is encoded once WP is clear, and then written as a burst. -/
theorem fullSetter : Obligations.FullSetter := by
  intro s ts hr hq
  have hyear := encYear_exact ts.year (clearWp s)
  rw [clearWp_draws hr hq] at hyear
  obtain ⟨hin, hout⟩ := hyear
  have hbody : setFullBody ts s = burstWrite (encBlock ts (encYear ts.year (clearWp s)).1)
      { clearWp s with draws := (encYear ts.year (clearWp s)).2.draws } := by
    rw [← encYear_state]
    rfl
  rw [clearBurst_quiet hr hq] at hbody
  refine ⟨_, _, hin, hout, ?_⟩
  rintro _ rfl
  rw [← encBlock_packed]
  exact runTransport_of_body hr hr.admitStart hbody hr.ok

/-- SET_DATE_ONLY's last session is the burst write of the merge, its year encoded or drawn after the read (R225). -/
theorem setDateBody_eq (year : Nat) (month day dow : Byte) (s : State) : setDateBody year month day dow s =
    burstWrite (mergeDate (burstRead (clearWp s)).buf (encYear year (burstRead (clearWp s))).1 month day dow)
      { burstRead (clearWp s) with draws := (encYear year (burstRead (clearWp s))).2.draws } := by
  unfold setDateBody withYear
  generalize burstRead (clearWp s) = u
  rw [encYear_state]

/-- Settles O50: either merge is of the block as CLEAR_WP left it, and is taken. -/
theorem mergeSetters : Obligations.MergeSetters := by
  intro s year month day dow hour minute second hr hq
  obtain ⟨hdraws, hbuf, -⟩ := clearRead_after hr hq
  constructor
  · have hyear := encYear_exact year (burstRead (clearWp s))
    rw [hdraws] at hyear
    obtain ⟨hin, hout⟩ := hyear
    have hbody := setDateBody_eq year month day dow s
    rw [clearReadBurst_quiet hr hq, hbuf, mergeDate_packed] at hbody
    refine ⟨_, _, hin, hout, ?_⟩
    rintro _ rfl
    exact runTransport_of_body hr hr.admitStart hbody hr.ok
  · rintro _ rfl
    have hbody := (setTimeBody_eq hour minute second s).trans (clearReadBurst_quiet hr hq (burstRead (clearWp s)).draws _)
    rw [hbuf, mergeTime_packed, hdraws] at hbody
    exact runTransport_of_body hr hr.admitStart hbody hr.ok

/-! ## Set, then get, on the zero-tick peer (R227) -/

theorem quiet_of_still {s : State} (h : s.peer.kind = .still) : Quiet s :=
  ⟨by simp [Peer.attached, h], by simp [h]⟩

/-- On a chip that passes no tick a block getter reads the registers as they stand and leaves them so. -/
theorem getBlock_quiet {s : State} (hr : Ready s) (hq : Quiet s) (result : Timestamp → Result) :
    ∃ t, getBlock result s = .next t ∧ Ready t ∧ t.peer.kind = s.peer.kind ∧ t.peer.regs = s.peer.regs ∧
      t.results = s.results ++ [result (decTimestamp s.peer.regs.clock)] := by
  have hready := ready_burstRead hr
  refine ⟨_, runTransport_ready hr hr.admitStart hready.ok, hready.completed _, ?_⟩
  rw [burstRead_quiet hr hq]
  exact ⟨rfl, rfl, rfl⟩

/-- The byte of a year in range is determined by the digits it spells. -/
theorem eq_encYearIn {year : Nat} (h : 2000 ≤ year ∧ year ≤ 2099) {b : Byte}
    (hb : b.toNat = (year - 2000) / 10 * 16 + (year - 2000) % 10) : b = encYearIn year :=
  BitVec.eq_of_toNat_eq (hb.trans (encYearIn_toNat h).symm)

/-- With a year in range SET_FULL leaves the chip with the timestamp's own block. -/
theorem setFull_quiet {s : State} (hr : Ready s) (hq : Quiet s) {ts : Timestamp} (hy : 2000 ≤ ts.year ∧ ts.year ≤ 2099) :
    ∃ t, exec (.setFull ts) s = .next t ∧ Ready t ∧ t.peer.kind = s.peer.kind ∧
      t.peer.regs.clock = encBlock ts (encYearIn ts.year) := by
  obtain ⟨b, n, hin, -, hexec⟩ := fullSetter s ts hr hq
  obtain rfl := eq_encYearIn hy (hin hy).1
  exact ⟨_, hexec _ rfl, ready_of_idle hr.ok rfl hr.pins rfl rfl rfl fun _ => ⟨rfl, rfl⟩, rfl, (encBlock_packed _ _).symm⟩

/-- With a year in range SET_DATE_ONLY leaves the chip with the merge of the date and the block it held. -/
theorem setDateOnly_quiet {s : State} (hr : Ready s) (hq : Quiet s) {year : Nat} (hy : 2000 ≤ year ∧ year ≤ 2099)
    (month day dow : Byte) :
    ∃ t, exec (.setDateOnly year month day dow) s = .next t ∧ Ready t ∧ t.peer.kind = s.peer.kind ∧
      t.peer.regs.clock = mergeDate s.peer.regs.clock (encYearIn year) month day dow := by
  obtain ⟨⟨b, n, hin, -, hexec⟩, -⟩ := mergeSetters s year month day dow 0 0 0 hr hq
  obtain rfl := eq_encYearIn hy (hin hy).1
  exact ⟨_, hexec _ rfl, ready_of_idle hr.ok rfl hr.pins rfl rfl rfl fun _ => ⟨rfl, rfl⟩, rfl,
    (mergeDate_packed _ _ _ _ _).symm⟩

/-- Settles O53: the getter decodes the block that the setter left, and in range that is the timestamp. -/
theorem setFullThenGetFull : Obligations.SetFullThenGetFull := by
  intro s ts hr hstill hts
  obtain ⟨t, hset, hready, hkind, hclock⟩ := setFull_quiet hr (quiet_of_still hstill) hts.year
  obtain ⟨u, hget, -, -, -, hresults⟩ := getBlock_quiet hready (quiet_of_still (hkind.trans hstill)) .timestamp
  rw [hclock, decTimestamp_encBlock hts] at hresults
  exact ⟨t, u, hset, hget, hresults⟩

/-- A merged date leaves the time that the block reads as it was, whatever flags its bytes had (R190). -/
theorem decTimestamp_mergeDate_time (blk : Block) (y month day dow : Byte) :
    (decTimestamp (mergeDate blk y month day dow)).hour = (decTimestamp blk).hour ∧
    (decTimestamp (mergeDate blk y month day dow)).minute = (decTimestamp blk).minute ∧
    (decTimestamp (mergeDate blk y month day dow)).second = (decTimestamp blk).second :=
  ⟨unpackByte_clearBit7 (by decide) blk.hours, rfl, unpackByte_clearBit7 (by decide) blk.seconds⟩

/-- A merged date in R38's ranges comes back from its block (R190, R192). -/
theorem decTimestamp_mergeDate_date (blk : Block) {year : Nat} {month day dow : Byte} (hyear : 2000 ≤ year ∧ year ≤ 2099)
    (hmonth : month.toNat ≤ 12) (hday : day.toNat ≤ 31) (hdow : dow.toNat ≤ 7) :
    (decTimestamp (mergeDate blk (encYearIn year) month day dow)).year = year ∧
    (decTimestamp (mergeDate blk (encYearIn year) month day dow)).month = month ∧
    (decTimestamp (mergeDate blk (encYearIn year) month day dow)).day = day ∧
    (decTimestamp (mergeDate blk (encYearIn year) month day dow)).dow = dow :=
  ⟨decYear_encYearIn hyear, unpackByte_pack (by decide) (by omega), unpackByte_pack (by decide) (by omega),
    decDow_encDow hdow⟩

/-- Settles O54: both time getters decode the same time, and the date getter the date that was merged in. -/
theorem dateSetterKeepsTime : Obligations.DateSetterKeepsTime := by
  intro s year month day dow hr hstill hlo hhi _ hmonth _ hday _ hdow
  have hyear : 2000 ≤ year ∧ year ≤ 2099 := ⟨hlo, hhi⟩
  have hq := quiet_of_still hstill
  obtain ⟨t, hget, -, -, -, hbefore⟩ := getBlock_quiet hr hq fun t => .time t.hour t.minute t.second
  obtain ⟨u, hset, huready, hukind, huclock⟩ := setDateOnly_quiet hr hq hyear month day dow
  have huq := quiet_of_still (hukind.trans hstill)
  obtain ⟨v, hgetTime, hvready, hvkind, hvregs, hafter⟩ := getBlock_quiet huready huq fun t => .time t.hour t.minute t.second
  have hvq := quiet_of_still (hvkind.trans (hukind.trans hstill))
  obtain ⟨w, hgetDate, -, -, -, hdate⟩ := getBlock_quiet hvready hvq fun t => .date t.year t.month t.day t.dow
  obtain ⟨hhour, hminute, hsecond⟩ := decTimestamp_mergeDate_time s.peer.regs.clock (encYearIn year) month day dow
  obtain ⟨hyearBack, hmonthBack, hdayBack, hdowBack⟩ := decTimestamp_mergeDate_date s.peer.regs.clock hyear hmonth hday hdow
  rw [huclock, hhour, hminute, hsecond] at hafter
  rw [hvregs, huclock, hyearBack, hmonthBack, hdayBack, hdowBack] at hdate
  exact ⟨t, u, v, w, _, hget, hbefore, hset, hgetTime, hafter, hgetDate, hdate⟩

end Sys2Proof.Machine
end

section
/-! PROOFS. INITIALIZE and the operations that touch one register (44_sequences R201-R223): what a getter reads whichever peer is
attached, the state a write leaves on a chip that passes no tick, and the registers known after INITIALIZE and SET_FULL (R264). -/

namespace Sys2Proof.Machine

/-! ## Getters of one register, whichever peer is attached (R203) -/

/-- A single-field getter, as its row gives it: it returns what it makes of the byte it sampled, and from a peer that passes no
tick that is its register's (R203). -/
theorem getField_reads {i : Instr} {r : RegName} {result result' : Byte → Result} (hi : exec i = getField r.writeAddr result')
    (hres : ∀ b, result' b = result b) {s : State} (hr : Ready s) :
    ∃ (t : State) (d : Byte), exec i s = .next t ∧ t.fault = none ∧ t.trace = s.trace ++ readEvents r.readAddr d ∧
      t.results = s.results ++ [result d] ∧ t.buf = s.buf ∧ (Quiet s → d = s.peer.regs.get r.idx ∧ t.peer.regs = s.peer.regs) := by
  obtain ⟨hread, -, -, -, -, -, hok, -⟩ := regName_commands r
  obtain ⟨d, n, p, hbody, -, -⟩ := readReg_any hr hok
  rw [hread] at hbody
  obtain rfl : result' = result := funext hres
  rw [hi]
  refine ⟨_, d, runTransport_of_body hr hr.admitStart hbody hr.ok, hr.ok, trace_eq rfl, rfl, rfl, fun hq => ?_⟩
  have hquiet := hbody.symm.trans (readReg_quiet hr hq r)
  exact ⟨congrArg State.sr hquiet, congrArg (·.peer.regs) hquiet⟩

/-- Settles O44: each getter's request is the encoder's, and its decoder reads the digits of the byte its session sampled. -/
theorem gettersReadOneRegister : Obligations.GettersReadOneRegister := by
  unfold Obligations.GettersReadOneRegister
  simp only [List.forall_mem_cons, List.not_mem_nil, false_implies, implies_true, and_true]
  have hbyte : ∀ w ∈ [1, 2, 3, 4], ∀ b, Result.byte (unpackByte b w) = .byte (BitVec.ofNat 8 (digits b w)) :=
    fun w hw b => congrArg Result.byte (unpackByte_digits hw b)
  exact ⟨⟨decode_of_encode_eq rfl rfl, fun _ => getField_reads (r := .minutes) rfl (hbyte 3 (by decide))⟩,
    ⟨decode_of_encode_eq rfl rfl, fun _ => getField_reads (r := .month) rfl (hbyte 1 (by decide))⟩,
    ⟨decode_of_encode_eq rfl rfl, fun _ => getField_reads (r := .dow) rfl fun b => congrArg Result.byte (decDow_and b)⟩,
    ⟨decode_of_encode_eq rfl rfl, fun _ => getField_reads (r := .year) rfl fun b => congrArg Result.year (decYear_eq b)⟩⟩

/-! ## One register written after CLEAR_WP, on a chip that passes no tick (R202, R215) -/

/-- CLEAR_WP and one register write leave that register and CONTROL written, take no draw, and send nothing else (R215). -/
theorem setFieldBody_quiet {s : State} (hr : Ready s) (hq : Quiet s) (r : RegName) (d : Byte) :
    setFieldBody r.writeAddr d s = { s.ended r.writeAddr 1 d (writeEvents 0x8E#8 0#8 ++ writeEvents r.writeAddr d) with
      peer := { s.peer.ended r.writeAddr 1 (s.peer.regs.set 7 0#8) ((s.peer.regs.set 7 0#8).set r.idx d) with
                wbuf := s.peer.wbuf.set 0 d } } := by
  have hkept : { clearWp s with draws := s.draws } = clearWp s := by rw [← clearWp_draws hr hq]
  have hbody := clearWrite_quiet hr hq s.draws r d
  rw [hkept] at hbody
  exact hbody

/-- Settles O42: CLEAR_WP is one write of CONTROL, and INITIALIZE the field setter's body for TRICKLE. -/
theorem clearWpAndInitialize : Obligations.ClearWpAndInitialize := by
  intro s hr hq
  exact ⟨runTransport_of_body hr hr.admitStart (clearWp_quiet hr hq) hr.ok,
    runTransport_of_body (body := initializeBody) (result := fun _ => .flag true) hr hr.admitStart
      (setFieldBody_quiet hr hq .trickle 0#8) hr.ok⟩

/-- A single-field setter, as its row gives it: the register it writes and the byte it encodes (R215). -/
theorem setField_quiet {i : Instr} {r : RegName} {d d' : Byte} (hi : exec i = setField r.writeAddr d') (hd : d' = d) {s : State}
    (hr : Ready s) (hq : Quiet s) :
    exec i s = .next ({ s.ended r.writeAddr 1 d (writeEvents 0x8E#8 0#8 ++ writeEvents r.writeAddr d) with
      peer := { s.peer.ended r.writeAddr 1 (s.peer.regs.set 7 0#8) ((s.peer.regs.set 7 0#8).set r.idx d) with
                wbuf := s.peer.wbuf.set 0 d } }.completed .none) := by
  subst hd
  rw [hi]
  exact runTransport_of_body hr hr.admitStart (setFieldBody_quiet hr hq r d') hr.ok

/-- Settles O47: each setter writes its own register, and its encoder packs the digits of the value. -/
theorem fieldSetters : Obligations.FieldSetters := by
  intro s v hr hq
  simp only [List.forall_mem_cons, List.not_mem_nil, false_implies, implies_true, and_true]
  exact ⟨setField_quiet rfl (pack_eq_packed v 3) hr hq, setField_quiet rfl (pack_eq_packed v 3) hr hq,
    setField_quiet rfl (pack_eq_packed v 2) hr hq, setField_quiet rfl (pack_eq_packed v 2) hr hq,
    setField_quiet rfl (pack_eq_packed v 1) hr hq, setField_quiet rfl (encDow_and v) hr hq⟩

/-! ## The chip after INITIALIZE and SET_FULL (R264) -/

/-- On a chip that passes no tick INITIALIZE leaves the block ready and TRICKLE zero. -/
theorem initChip_quiet {s : State} (hr : Ready s) (hq : Quiet s) :
    ∃ t, exec .initChip s = .next t ∧ Ready t ∧ t.peer.kind = s.peer.kind ∧ t.peer.regs.trickle = 0#8 := by
  obtain ⟨-, hexec⟩ := clearWpAndInitialize s hr hq
  exact ⟨_, hexec, ready_of_idle hr.ok rfl hr.pins rfl rfl rfl fun _ => ⟨rfl, rfl⟩, rfl, rfl⟩

/-- With a year in range SET_FULL leaves the chip with the encoded block and its TRICKLE as it was (R224). -/
theorem setFull_regs {s : State} (hr : Ready s) (hq : Quiet s) {ts : Timestamp} (hy : 2000 ≤ ts.year ∧ ts.year ≤ 2099) :
    ∃ t, exec (.setFull ts) s = .next t ∧ t.peer.regs = ⟨encBlock ts (encYearIn ts.year), s.peer.regs.trickle⟩ := by
  obtain ⟨b, n, hin, -, hexec⟩ := fullSetter s ts hr hq
  obtain rfl := eq_encYearIn hy (hin hy).1
  exact ⟨_, hexec _ (encBlock_packed ts _), rfl⟩

/-- The three bits of the DOW field hold a weekday in range whole (R38). -/
theorem and_dowMask {v : Byte} (h : v.toNat ≤ 7) : v &&& 0x07#8 = v := by
  rw [← decDow_and]
  exact BitVec.eq_of_toNat_eq ((decDow_toNat v).trans (Nat.mod_eq_of_lt (by omega)))

/-- Settles O55: SET_FULL overwrites the whole block, and TRICKLE is still the zero that INITIALIZE wrote. -/
theorem knownChipState : Obligations.KnownChipState := by
  intro s ts hr hstill hts
  obtain ⟨t, hinit, hready, hkind, htrickle⟩ := initChip_quiet hr (quiet_of_still hstill)
  obtain ⟨u, hset, hregs⟩ := setFull_regs hready (quiet_of_still (hkind.trans hstill)) hts.year
  rw [htrickle, encBlock_packed, and_dowMask hts.dow.2, encYearIn, pack_eq_packed] at hregs
  exact ⟨t, u, hinit, hset, hregs⟩

end Sys2Proof.Machine
end

section
/-! PROOFS. Where pin primitives do not return (60_exceptions R253): admitted pin operations hang, and the codec completes. -/

namespace Sys2Proof.Machine

/-- A pin operation that passes its check never returns where the pin primitives do not (R253). -/
theorem runTransport_hangs {check : State → Option FaultReason} {body : State → State} {result : State → Result} {s : State}
    (hf : s.fault = none) (hp : s.platform.pinsReturn = false) (ha : check s = none) :
    runTransport check body result s = .fault .pinsHang := by
  simp [runTransport, State.faulted, hf, ha, hp]

/-- BCD_PACK of a width in its type gives the packed byte (R143). -/
theorem execBcdPack_ok {s : State} (hf : s.fault = none) (v : Byte) {w : Nat} (hw : 1 ≤ w ∧ w ≤ 4) :
    execBcdPack v w s = .next (s.completed (.byte (pack v w))) := by
  simp [execBcdPack, State.faulted, hf, hw, runCodec_ok hf]

/-- A codec operation whose operands lie in their types is not refused, whatever the platform's pins do. -/
theorem exec_codec_returns {i : Instr} (hi : isCodec i = true) (hwf : i.wellFormed = true) {s : State} (hf : s.fault = none) :
    ∃ t, exec i s = .next t := by
  cases i with
  | bcdPack v w => exact ⟨_, execBcdPack_ok hf v (by simpa [Instr.wellFormed] using hwf)⟩
  | encYear year => exact ⟨_, runYearCodec_ok hf year .byte⟩
  | encBlock ts => exact ⟨_, runYearCodec_ok hf ts.year fun y => .block (encBlock ts y)⟩
  | mergeDate blk year month day dow => exact ⟨_, runYearCodec_ok hf year fun y => .block (mergeDate blk y month day dow)⟩
  | bcdDecode _ _ | bcdEncHigh _ | bcdEncLow _ => exact ⟨_, runCodec_ok hf _⟩
  | decSeconds _ | decMinutes _ | decHours _ | decDate _ | decMonth _ | decDow _ | decYear _ | decControl _ | decBlock _ =>
    exact ⟨_, runCodec_ok hf _⟩
  | encSeconds _ | encMinutes _ | encHours24 _ | encDate _ | encMonth _ | encDow _ | encControl | mergeTime _ _ _ _ =>
    exact ⟨_, runCodec_ok hf _⟩
  | _ => cases hi

/-- Settles O14: under each clause's hypotheses the operation's check passes, and the codec asks nothing of the pins. -/
theorem pinsThatHang : Obligations.PinsThatHang := by
  intro i s hf hp
  refine ⟨fun hi hs => ?opens, fun hs hr hv hn => ?sessionEnd, fun hs hr hv c hd => ?command, fun hs hr hv hc hn d => ?data,
    fun hs hv hc hn => ?shiftIn, fun hi hwf => ?codec⟩
  case opens =>
    obtain ⟨check, body, result, hexec, hcheck, -⟩ := exec_opens hi
    rw [hexec]
    exact runTransport_hangs hf hp ((hcheck s).trans (by simp [admitStart, hs]))
  case sessionEnd =>
    have hadm : admitEnd s = none := by simp [admitEnd, hs, hr, hv, hn]
    exact runTransport_hangs hf hp hadm
  case command =>
    have hadm : admitShiftOut c (readFlag c) s = none := by simp [admitShiftOut, hs, hr, hv, hd]
    exact runTransport_hangs hf hp hadm
  case data =>
    have hwrite : readFlag s.cmd = false := hc
    have hadm : admitShiftOut d false s = none := by simp [admitShiftOut, hs, hr, hv, hwrite, hn]
    exact runTransport_hangs hf hp hadm
  case shiftIn =>
    have hread : readFlag s.cmd = true := hc
    have hadm : admitShiftIn s = none := by simp [admitShiftIn, hs, hv, hread, hn]
    exact runTransport_hangs hf hp hadm
  case codec =>
    obtain ⟨t, ht⟩ := exec_codec_returns hi hwf hf
    obtain ⟨n, r, rfl⟩ := codec_completes hi hf ht
    exact ⟨_, ht, hf⟩

end Sys2Proof.Machine
end

section
/-! PROOFS. The events of every bit of a shift, in order (41_transport R104, R106; 70_reset_and_hazards R271, R272). -/

namespace Sys2Proof.Machine

/-- The bits of a SHIFT_OUT differ only in how they end: the released last one hands the pin over in place of its falling edge. -/
theorem shiftOutEvents_bits (b : Byte) (rel : Bool) :
    shiftOutEvents b rel = .dir .out :: (List.range 8).flatMap fun i =>
      if rel = true ∧ i = 7 then outReleaseEvents (bitAt b i) else outBitEvents (bitAt b i) := by
  have hkept : ∀ i ∈ List.range 7,
      (if rel = true ∧ i = 7 then outReleaseEvents (bitAt b i) else outBitEvents (bitAt b i)) = outBitEvents (bitAt b i) :=
    fun i hi => if_neg fun hlast => (List.mem_range.mp hi).ne hlast.2
  rw [List.range_succ, List.flatMap_append, List.flatMap_congr hkept]
  simp [shiftOutEvents]

/-- Every bit of a SHIFT_OUT begins with the same four events (R104). -/
theorem outBit_begins (l : Level) (last : Prop) [Decidable last] :
    (if last then outReleaseEvents l else outBitEvents l) =
      [.drv l, .dly .dataSetup, .clk high, .dly .clkHigh] ++ (if last then [.dir .inp] else [.clk low, .dly .clkLow]) := by
  split <;> rfl

/-- Settles O20: an admitted SHIFT_OUT finds the clock low under the invariant, and emits its byte's events bit by bit. -/
theorem shiftOutBitTiming : Obligations.ShiftOutBitTiming := by
  intro s b rel hinv hf hp ha
  obtain ⟨⟨hok, -, -, -, htrace⟩, hlow, -, -⟩ := wired_shiftOutBody hinv hf ha
  refine ⟨_, runTransport_admitted (result := noResult) hf hp ha hok, hok, hlow, htrace.trans ?_⟩
  simp only [shiftOutEvents_bits, outBit_begins, bitAt]

/-- Settles O21: the byte an admitted SHIFT_IN returns, from the peer or from the undriven line, is the one its events sample. -/
theorem shiftInBitTiming : Obligations.ShiftInBitTiming := by
  intro s hinv hf hp ha
  obtain ⟨-, -, -, hs, -, hv, -, hread, hshort, -, -⟩ := wired_shiftInBody hinv hf ha
  obtain ⟨hpeer, hnone⟩ := shiftInReceives s hinv hf hp hs hv hread hshort.ne
  cases hat : s.peer.attached with
  | true => exact ⟨_, _, hpeer hat _ rfl, hf, rfl, trace_eq (ev := shiftInEvents _) rfl⟩
  | false => exact ⟨_, _, hnone hat _ rfl, hf, rfl, trace_eq (ev := shiftInEvents _) rfl⟩

end Sys2Proof.Machine
end
